-- ==== Sys2Proof/Word.lean ====
section
/-! DEFINITION. The words of the Huffman-tree builder block (00_scope.md R4, R8). Every quantity is unsigned. -/

namespace Sys2Proof

/-- A command word, `CMDW = 48` bits (00_scope.md R4, 30_encoding.md R70). -/
abbrev Word48 := BitVec 48

/-- A byte of a stream; "the most significant bit" is bit 7 (00_scope.md R8). -/
abbrev Byte := BitVec 8

/-- A symbol, `SYMW = 9` bits: 0 to 255 are the byte values, 256 is EOD, 257 to 511 do not exist (00_scope.md R4). -/
abbrev Symbol := BitVec 9

/-- The count operand of PUSH, `CW = 32` bits (00_scope.md R4). -/
abbrev Count32 := BitVec 32

/-- The count of a node, `NW = 41` bits (00_scope.md R4). -/
abbrev Count := BitVec 41

/-- A node index, `IDXW = 10` bits (00_scope.md R4). -/
abbrev NodeIdx := BitVec 10

/-- A bit-path: its steps left to right, first step first; `false` is 0 = left, `true` is 1 = right (00_scope.md R8). -/
abbrev Path := List Bool

end Sys2Proof
end

