-- ==== Sys2Proof/Config.lean ====
section
/-! DEFINITION. The parameters of the block (00_scope.md R4). All are fixed by the spec; none is open, and the block has no
free value (93_implementation_defined.md, end of part 1). The open parameters of R4 belong to the host and no rule reads them. -/

namespace Sys2Proof.Config

/-- `EOD_SYM`: the End-Of-Data symbol. -/
@[simp] abbrev eodSym : Symbol := 256#9

/-- `NSYM`: the number of legal symbols, 0 to 256. -/
@[simp] abbrev nsym : Nat := 257

/-- `MAXLEAF`: the most leaves a tree can have. -/
@[simp] abbrev maxLeaf : Nat := 257

/-- `MAXNODE`: the most nodes, the entries of `NM`. -/
@[simp] abbrev maxNode : Nat := 513

/-- `MAXLEN`: the longest code in bits. -/
@[simp] abbrev maxLen : Nat := 256

/-- `WBITS_MAX`: the most bits one WBITS command appends. -/
@[simp] abbrev wbitsMax : Nat := 32

end Sys2Proof.Config
end

