-- ==== Sys2Proof/Syntax.lean ====
section
/-! DEFINITION. The command set, one constructor per row of opcode_table.json (30_encoding.md R73), operands as the decoder
of R76 types them, held as the fields of the word (R72). -/

namespace Sys2Proof

/-- A command of "HTB command set 1" (30_encoding.md R73). -/
inductive Instr where
  /-- NOP (40_control.md R91). -/
  | nop
  /-- CLEAR (40_control.md R92). -/
  | clear
  /-- PUSH `sym, count` (41_tree_builder.md R102). -/
  | push (sym : Symbol) (count : Count32)
  /-- BUILD (41_tree_builder.md R104). -/
  | build
  /-- ENC `sym` (43_bit_writer.md R131). -/
  | enc (sym : Symbol)
  /-- WBITS `len, bits` (43_bit_writer.md R132); `bits` is the whole field `d`, the ignored bits above `len` among them. -/
  | wbits (len : BitVec 9) (bits : BitVec 32)
  /-- WFIN (43_bit_writer.md R133). -/
  | wfin
  /-- DEC `byte` (44_bit_reader.md R151). -/
  | dec (byte : Byte)
deriving DecidableEq, Repr

end Sys2Proof
end

