-- ==== Sys2Proof/WellFormed.lean ====
section
/-! DEFINITION. Which command terms are commands: the range conditions of 30_encoding.md R72 and R73 that a field's width
does not give (`sym <= 256`, `len <= 32`). -/

namespace Sys2Proof

/-- `sym` is a legal symbol, 0 to 256 (30_encoding.md R72). -/
def symLegal (sym : Symbol) : Bool := decide (sym.toNat < Config.nsym)

/-- `len` is a legal bit count, 0 to 32 (30_encoding.md R72). -/
def lenLegal (len : BitVec 9) : Bool := decide (len.toNat ≤ Config.wbitsMax)

/-- The range conditions of 30_encoding.md R73, command by command. -/
def wellFormed : Instr → Bool
  | .nop => true
  | .clear => true
  | .push sym _ => symLegal sym
  | .build => true
  | .enc sym => symLegal sym
  | .wbits len _ => lenLegal len
  | .wfin => true
  | .dec _ => true

/-- `wellFormed` as a proposition. -/
abbrev WellFormed (i : Instr) : Prop := wellFormed i = true

end Sys2Proof
end

