-- ==== Sys2Proof/Decode.lean ====
section
/-! DEFINITION. The decoder of 30_encoding.md R76, total on 48-bit words and rejecting by the classes of R74, and the encoder,
its inverse on legal commands (R77). -/

namespace Sys2Proof

/-- Why a word is illegal: the seven classes of 30_encoding.md R74, in R74's order. A word may lie in two classes; the
decoder names the one it meets first. All seven have one effect, fault IllegalCommand. -/
inductive Illegal where
  /-- Class 1: `op` 8 to 15. -/
  | reservedOpcode
  /-- Class 2: `z != 0`. -/
  | zNotZero
  /-- Class 3: NOP, CLEAR, BUILD or WFIN with `a != 0` or `d != 0`. -/
  | operandNotZero
  /-- Class 4: PUSH or ENC with `sym` 257 to 511. -/
  | symbolReserved
  /-- Class 5: ENC with `d != 0`. -/
  | encDataNotZero
  /-- Class 6: WBITS with `len` 33 to 511. -/
  | lengthReserved
  /-- Class 7: DEC with `a != 0` or `d[31:8] != 0`. -/
  | decFieldNotZero
deriving DecidableEq, Repr

/-- Field `op = cmd[47:44]` (30_encoding.md R70). -/
def opField (w : Word48) : BitVec 4 := w.extractLsb' 44 4

/-- Field `z = cmd[43:41]` (30_encoding.md R70). -/
def zField (w : Word48) : BitVec 3 := w.extractLsb' 41 3

/-- Field `a = cmd[40:32]` (30_encoding.md R70). -/
def aField (w : Word48) : BitVec 9 := w.extractLsb' 32 9

/-- Field `d = cmd[31:0]` (30_encoding.md R70). -/
def dField (w : Word48) : BitVec 32 := w.extractLsb' 0 32

/-- Format N (30_encoding.md R71): no operand, `a` and `d` must be zero. -/
def decodeN (i : Instr) (a : BitVec 9) (d : BitVec 32) : Except Illegal Instr :=
  if a = 0 ∧ d = 0 then .ok i else .error .operandNotZero

/-- Format SC (30_encoding.md R71): a symbol in `a`, a count in `d`. -/
def decodePush (a : BitVec 9) (d : BitVec 32) : Except Illegal Instr :=
  if a.toNat ≤ 256 then .ok (.push a d) else .error .symbolReserved

/-- Format S (30_encoding.md R71): a symbol in `a`, `d` must be zero. -/
def decodeEnc (a : BitVec 9) (d : BitVec 32) : Except Illegal Instr :=
  if a.toNat ≤ 256 then (if d = 0 then .ok (.enc a) else .error .encDataNotZero) else .error .symbolReserved

/-- Format L (30_encoding.md R71): a length in `a`, a bit-path in `d`. -/
def decodeWbits (a : BitVec 9) (d : BitVec 32) : Except Illegal Instr :=
  if a.toNat ≤ 32 then .ok (.wbits a d) else .error .lengthReserved

/-- Format B (30_encoding.md R71): a byte in `d[7:0]`, `a` and `d[31:8]` must be zero. -/
def decodeDec (a : BitVec 9) (d : BitVec 32) : Except Illegal Instr :=
  if a = 0 ∧ d.extractLsb' 8 24 = 0 then .ok (.dec (d.extractLsb' 0 8)) else .error .decFieldNotZero

/-- The cases of `op` (30_encoding.md R76, R73). -/
def decodeOp (op : Nat) (a : BitVec 9) (d : BitVec 32) : Except Illegal Instr :=
  match op with
  | 0 => decodeN .nop a d
  | 1 => decodeN .clear a d
  | 2 => decodePush a d
  | 3 => decodeN .build a d
  | 4 => decodeEnc a d
  | 5 => decodeWbits a d
  | 6 => decodeN .wfin a d
  | 7 => decodeDec a d
  | _ => .error .reservedOpcode

/-- `Decode(w)` of 30_encoding.md R76. -/
def decode (w : Word48) : Except Illegal Instr :=
  if zField w = 0 then decodeOp (opField w).toNat (aField w) (dField w) else .error .zNotZero

/-- The word `{op, z, a, d}` with `z = 0` (30_encoding.md R70; `{,}` is concatenation, 00_scope.md R8). -/
def packWord (op : BitVec 4) (a : BitVec 9) (d : BitVec 32) : Word48 := (op ++ (0#3 ++ (a ++ d)) : BitVec (4 + (3 + (9 + 32))))

/-- The opcode of a command (30_encoding.md R73). -/
def opcodeOf : Instr → BitVec 4
  | .nop => 0
  | .clear => 1
  | .push _ _ => 2
  | .build => 3
  | .enc _ => 4
  | .wbits _ _ => 5
  | .wfin => 6
  | .dec _ => 7

/-- Field `a` of a command (30_encoding.md R71). -/
def aOperand : Instr → BitVec 9
  | .nop => 0
  | .clear => 0
  | .push sym _ => sym
  | .build => 0
  | .enc sym => sym
  | .wbits len _ => len
  | .wfin => 0
  | .dec _ => 0

/-- Field `d` of a command (30_encoding.md R71). -/
def dOperand : Instr → BitVec 32
  | .nop => 0
  | .clear => 0
  | .push _ count => count
  | .build => 0
  | .enc _ => 0
  | .wbits _ bits => bits
  | .wfin => 0
  | .dec byte => byte.setWidth 32

/-- The word of a command (30_encoding.md R71, R73, R77). A command term holds every bit of its word, the ignored bits of WBITS
among them, so this is "the word as presented". -/
def encode (i : Instr) : Word48 := packWord (opcodeOf i) (aOperand i) (dOperand i)

/-- The word the block is presented with: `nbits` bits of `w` as opcode_table.json numbers them, the bits above zero. A command
is one whole word, so there is no byte order (20_memory.md R53, R54). -/
def tableWord (nbits w : Nat) : Word48 := BitVec.ofNat 48 (w % 2 ^ nbits)

/-- The command the decoder reads from the word whose bits opcode_table.json numbers as `w`. -/
def decodeTableWord (nbits w : Nat) : Option Instr :=
  match decode (tableWord nbits w) with
  | .ok i => some i
  | .error _ => none

/-- A row of the opcode map (30_encoding.md R73): the word and mask of its fixed bits and the largest legal value of field `a`
("further condition"; 511 where there is none). -/
structure OpcodeRow where
  matchBits : Word48
  maskBits : Word48
  aMax : Nat
deriving DecidableEq, Repr

/-- The row of a command in the opcode map (30_encoding.md R73). -/
def opcodeRow : Instr → OpcodeRow
  | .nop => ⟨0x000000000000#48, 0xFFFFFFFFFFFF#48, 511⟩
  | .clear => ⟨0x100000000000#48, 0xFFFFFFFFFFFF#48, 511⟩
  | .push _ _ => ⟨0x200000000000#48, 0xFE0000000000#48, 256⟩
  | .build => ⟨0x300000000000#48, 0xFFFFFFFFFFFF#48, 511⟩
  | .enc _ => ⟨0x400000000000#48, 0xFE00FFFFFFFF#48, 256⟩
  | .wbits _ _ => ⟨0x500000000000#48, 0xFE0000000000#48, 32⟩
  | .wfin => ⟨0x600000000000#48, 0xFFFFFFFFFFFF#48, 511⟩
  | .dec _ => ⟨0x700000000000#48, 0xFFFFFFFFFF00#48, 511⟩

/-- The eight rows of the opcode map, in its order (30_encoding.md R73). -/
def opcodeMap : List OpcodeRow :=
  [opcodeRow .nop, opcodeRow .clear, opcodeRow (.push 0 0), opcodeRow .build, opcodeRow (.enc 0), opcodeRow (.wbits 0 0),
    opcodeRow .wfin, opcodeRow (.dec 0)]

/-- `w` spells the command of row `r`: `(w AND mask) = match` and the further condition holds (30_encoding.md R73). -/
def rowSpells (r : OpcodeRow) (w : Word48) : Bool :=
  decide (w &&& r.maskBits = r.matchBits) && decide ((aField w).toNat ≤ r.aMax)

end Sys2Proof
end

