-- ==== Sys2Proof/Machine/State.lean ====
section
/-! DEFINITION. The state of the block (10_state.md R20 to R31), the model's two kinds of stop, and the state after reset
(10_state.md R39, 70_reset_and_hazards.md R200). State is plain data. -/

namespace Sys2Proof.Machine

/-- `PHASE` (10_state.md R21): LOAD (0) or BUILT (1). -/
inductive Phase where
  | load
  | built
deriving DecidableEq, Repr

/-- `FAULT` as the enumeration of the values it can hold (10_state.md R22, 60_exceptions.md R171,
93_implementation_defined.md U21); its 4-bit code is `faultBits`. -/
inductive FaultCode where
  /-- 0: no fault recorded. -/
  | none
  /-- 1: BUILD on an empty table. -/
  | invalidInput
  /-- 2: a word that spells no command. -/
  | illegalCommand
  /-- 3: a command in the wrong phase. -/
  | badPhase
  /-- 4: PUSH of a symbol already pushed. -/
  | duplicateSymbol
  /-- 5: ENC of a symbol without a code. -/
  | symbolNotCoded
  /-- 6: a writer command after finalisation. -/
  | writeAfterFinal
  /-- 7: a payload bit that matches no code. -/
  | noMatch
deriving DecidableEq, Repr

/-- An entry of `NM` (10_state.md R25) as the sum type of 93_implementation_defined.md U20: the fields R25 writes as 0 and never
reads (`sym` of an internal node, the children of a leaf) are left out. -/
inductive Node where
  /-- `leaf = 1`: a symbol and its count. -/
  | leaf (sym : Symbol) (cnt : Count)
  /-- `leaf = 0`: the sum of the children's counts, the child for bit 0 and the child for bit 1. -/
  | inner (cnt : Count) (left right : NodeIdx)
deriving DecidableEq, Repr

/-- The fields `len` and `bits` of a valid entry of `CT` (10_state.md R28): `bits[i]` is step `i` of the path, step 0 first. An
entry with `valid = 0` is not listed in `State.ct`. -/
structure CodeEntry where
  len : BitVec 9
  bits : BitVec 256
deriving DecidableEq, Repr

/-- What the host does to the block next: it presents a command word (00_scope.md R5, R6) or pulses `rst_n`
(70_reset_and_hazards.md R200; 92_eei_decisions.md D1). -/
inductive HostEvent where
  | command (w : Word48)
  | resetPulse
deriving DecidableEq, Repr

/-- The state of the block, the list of 10_state.md R20, and the host's coming events. -/
structure State where
  /-- `PHASE` (R21). -/
  phase : Phase
  /-- `FAULT` (R22). -/
  fault : FaultCode
  /-- `FINFO` (R22): the command word that faulted. -/
  finfo : Word48
  /-- `NLEAF` (R23). -/
  nleaf : BitVec 9
  /-- `NNODE` (R23). -/
  nnode : BitVec 10
  /-- `SEEN` (R24): bit `s` is `SEEN[s]`. -/
  seen : BitVec 257
  /-- `NM` (R25): index and entry, indices strictly rising; an index not listed holds no value (R37). -/
  nm : List (Nat × Node)
  /-- `PQ` (R26): the `QLEN` occupied slots, head first; slots from `QLEN` on hold no value. -/
  pq : List NodeIdx
  /-- `ROOT` (R27). -/
  root : NodeIdx
  /-- `CT` (R28): symbol and entry, symbols strictly rising; a symbol is listed exactly when `valid = 1`. -/
  ct : List (Nat × CodeEntry)
  /-- `WACC` (R29). -/
  wacc : BitVec 8
  /-- `WNB` (R29). -/
  wnb : BitVec 3
  /-- `WFIN` (R29). -/
  wfin : Bool
  /-- `RCUR` (R30). -/
  rcur : NodeIdx
  /-- `RDONE` (R30). -/
  rdone : Bool
  /-- `WOUT` (R31), oldest byte first. -/
  wout : List Byte
  /-- `ROUT` (R31), oldest byte first. -/
  rout : List Byte
  /-- DESIGN CHOICE (log entry 1): the host's coming events, oldest first; "the next command is the next word the host
  presents" (R34). -/
  port : List HostEvent
deriving DecidableEq, Repr

/-- Why the MODEL stops. The block's own faults (60_exceptions.md R171) are recorded in `State.fault` and are next states, not
these. Each of these is raised only where a rule would use an index, value or bit that the spec says does not exist or that
nothing wrote (10_state.md R37, 20_memory.md R50, 40_control.md R93, R96); the spec derives that no reachable state comes to one
(10_state.md R38). All are SAFE: the model stops, it invents no value (log entry 4). -/
inductive Fault where
  /-- A read of an entry of `NM` that nothing wrote (10_state.md R37). Raised by `readNode` for PUSH, BUILD, DEC. Safe. -/
  | nodeUnwritten (i : NodeIdx)
  /-- A read or write of `NM[513]` to `NM[1023]`, which do not exist (20_memory.md R50). Raised by `readNode`, `allocNode`. Safe. -/
  | noSuchNode (i : NodeIdx)
  /-- A use of `SEEN[257]` to `SEEN[511]` or `CT[257]` to `CT[511]`, which do not exist (20_memory.md R50). Raised by `readSeen`,
  `lookupCode`, `writeCode` for PUSH, ENC, BUILD. Safe. -/
  | noSuchSymbol (sym : Symbol)
  /-- A read of `PQ[0]` or `PQ[1]` from a queue that is too short (10_state.md R37). Raised by `mergeStep`, `queueHead` for BUILD. Safe. -/
  | queueEmpty
  /-- An insertion into a queue of 257 nodes: `PQ[257]` does not exist (20_memory.md R50). Raised by `priorityInsert`. Safe. -/
  | queueFull
  /-- `NLEAF + 1` beyond 257 (10_state.md R20, 40_control.md R93). Raised by `countLeaf` for PUSH. Safe. -/
  | leafCountFull
  /-- A sum of counts that is not below 2^41 (41_tree_builder.md R103, 40_control.md R93). Raised by `addCounts` for BUILD. Safe. -/
  | countOverflow
  /-- A path of more than 256 steps (42_code_table.md R125): `bits[256]` does not exist. Raised by `assign`, `codePath`. Safe. -/
  | pathTooLong
  /-- A bit of a WBITS path above `bits[31]` (40_control.md R93). Raised by `wbitsPath` on a term no word decodes to. Safe. -/
  | noSuchBit
deriving DecidableEq, Repr

/-- Why the model has no meaning for an instruction. -/
inductive Refusal where
  /-- An instruction not modelled yet, raised by `exec`'s arm. Every command is modelled, so nothing raises it. Safe. -/
  | notModelled (mnemonic : String)
deriving DecidableEq, Repr

/-- The reset state (10_state.md R39, column "after hardware reset"; 70_reset_and_hazards.md R200). The contents of `NM`, of
the slots of `PQ` and of `CT[s].len`, `CT[s].bits` hold no value (R37). No host event is pending (log entry 1). -/
def State.reset : State where
  phase := .load
  fault := .none
  finfo := 0
  nleaf := 0
  nnode := 0
  seen := 0
  nm := []
  pq := []
  root := 0
  ct := []
  wacc := 0
  wnb := 0
  wfin := false
  rcur := 0
  rdone := false
  wout := []
  rout := []
  port := []

end Sys2Proof.Machine
end

