-- ==== Sys2Proof/Machine/Ops.lean ====
section
/-! DEFINITION. The named operations over the block's stores, registers and streams (00_scope.md R9): reading and writing
entries, allocating a node, emitting a byte, raising a fault and the two exits from the faulted state. -/

namespace Sys2Proof.Machine

/-- The outcome of a command whose checks have passed. -/
def outcomeOf (r : Except Fault State) : Host.Outcome State Fault Refusal :=
  match r with
  | .ok s => .next s
  | .error f => .fault f

/-! ## Stores: lists of index and entry, indices strictly rising, an unlisted index holding no value (10_state.md R37) -/

/-- The entry at index `i`, if one was written. -/
def storeGet {α : Type} (l : List (Nat × α)) (i : Nat) : Option α :=
  match l with
  | [] => none
  | (j, v) :: t => if i = j then some v else storeGet t i

/-- Write the whole entry at index `i` (20_memory.md R55), keeping the indices strictly rising. -/
def storePut {α : Type} (l : List (Nat × α)) (i : Nat) (v : α) : List (Nat × α) :=
  match l with
  | [] => [(i, v)]
  | (j, u) :: t =>
    if i < j then (i, v) :: (j, u) :: t
    else if i = j then (i, v) :: t
    else (j, u) :: storePut t i v

/-- The canonical form of a store with `bound` entries: indices strictly rising and below `bound`. -/
abbrev StoreWf {α : Type} (bound : Nat) (l : List (Nat × α)) : Prop :=
  (l.map Prod.fst).Pairwise (· < ·) ∧ ∀ i ∈ l.map Prod.fst, i < bound

/-- Both stores of a state are in canonical form: `NM` has 513 entries, `CT` 257 (20_memory.md R50). -/
abbrev StoresWf (s : State) : Prop := StoreWf Config.maxNode s.nm ∧ StoreWf Config.nsym s.ct

/-! ## Faults: entry (60_exceptions.md R174) and the two exits (R177) -/

/-- `raise Fault(code)` in the step for command word `w` (60_exceptions.md R174): `FAULT <- code`, `FINFO <- w`, nothing else. -/
def raiseFault (code : FaultCode) (w : Word48) (s : State) : State := { s with fault := code, finfo := w }

/-- What CLEAR does (40_control.md R92, 70_reset_and_hazards.md R201): the reset state, the two streams kept. The host's coming
events are not the block's. -/
def clearRun (s : State) : State := { State.reset with wout := s.wout, rout := s.rout, port := s.port }

/-- Hardware reset, `rst_n` low and released (70_reset_and_hazards.md R200): the reset state, the streams empty. -/
def hardwareReset (s : State) : State := { State.reset with port := s.port }

/-- `FAULT` as its 4-bit code (60_exceptions.md R171). -/
def faultBits : FaultCode → BitVec 4
  | .none => 0
  | .invalidInput => 1
  | .illegalCommand => 2
  | .badPhase => 3
  | .duplicateSymbol => 4
  | .symbolNotCoded => 5
  | .writeAfterFinal => 6
  | .noMatch => 7

/-- `PHASE` as its bit (10_state.md R21). -/
def phaseBit : Phase → BitVec 1
  | .load => 0
  | .built => 1

/-! ## The node memory (10_state.md R25, 20_memory.md R51) -/

/-- Field `cnt` of a node. -/
def nodeCnt : Node → Count
  | .leaf _ c => c
  | .inner c _ _ => c

/-- Field `sym` of a node, written as 0 in an internal node (10_state.md R25). -/
def nodeSym : Node → Symbol
  | .leaf s _ => s
  | .inner _ _ _ => 0

/-- Field `left` of a node, written as 0 in a leaf (10_state.md R25). -/
def nodeLeft : Node → NodeIdx
  | .leaf _ _ => 0
  | .inner _ l _ => l

/-- Field `right` of a node, written as 0 in a leaf (10_state.md R25). -/
def nodeRight : Node → NodeIdx
  | .leaf _ _ => 0
  | .inner _ _ r => r

/-- Read `NM[i]` (00_scope.md R9): it must exist (20_memory.md R50) and hold a value (10_state.md R37). -/
def readNode (nm : List (Nat × Node)) (i : NodeIdx) : Except Fault Node :=
  if i.toNat < Config.maxNode then
    match storeGet nm i.toNat with
    | some n => .ok n
    | none => .error (.nodeUnwritten i)
  else .error (.noSuchNode i)

/-- Write node `NNODE` and increment `NNODE`. -/
def putNode (n : Node) (s : State) : State := { s with nm := storePut s.nm s.nnode.toNat n, nnode := s.nnode + 1 }

/-- A new node takes index `NNODE`, which is then incremented (20_memory.md R51). -/
def allocNode (n : Node) (s : State) : Except Fault State :=
  if s.nnode.toNat < Config.maxNode then .ok (putNode n s) else .error (.noSuchNode s.nnode)

/-- Increment `NLEAF`. -/
def bumpLeaves (s : State) : State := { s with nleaf := s.nleaf + 1 }

/-- `NLEAF <- NLEAF + 1`, exact (40_control.md R93). -/
def countLeaf (s : State) : Except Fault State :=
  if s.nleaf.toNat < Config.maxLeaf then .ok (bumpLeaves s) else .error .leafCountFull

/-- The exact sum of two counts in 41 bits (41_tree_builder.md R103, 40_control.md R93). -/
def addCounts (a b : Count) : Except Fault Count :=
  if a.toNat + b.toNat < 2 ^ 41 then .ok (a + b) else .error .countOverflow

/-! ## The queue (10_state.md R26) -/

/-- `QLEN` (10_state.md R23): the number of node indices queued. -/
def State.qlen (s : State) : BitVec 9 := BitVec.ofNat 9 s.pq.length

/-- Write the occupied slots of `PQ`, and `QLEN` with them. -/
def setQueue (q : List NodeIdx) (s : State) : State := { s with pq := q }

/-- Read `PQ[0]`. -/
def queueHead (s : State) : Except Fault NodeIdx :=
  match s.pq with
  | [] => .error .queueEmpty
  | k :: _ => .ok k

/-! ## Registers and streams -/

/-- `ROOT <- k` (41_tree_builder.md R104). -/
def setRoot (k : NodeIdx) (s : State) : State := { s with root := k }

/-- `RCUR <- ROOT; PHASE <- 1`, the end of BUILD (41_tree_builder.md R104). -/
def enterBuilt (s : State) : State := { s with rcur := s.root, phase := .built }

/-- `RCUR <- k` (44_bit_reader.md R150). -/
def setRcur (k : NodeIdx) (s : State) : State := { s with rcur := k }

/-- `RDONE <- 1` (44_bit_reader.md R152). -/
def setRdone (s : State) : State := { s with rdone := true }

/-- Write `WACC` and `WNB` (43_bit_writer.md R130). -/
def setAccumulator (acc : BitVec 8) (nb : BitVec 3) (s : State) : State := { s with wacc := acc, wnb := nb }

/-- `WFIN <- 1` (43_bit_writer.md R133). -/
def setWfin (s : State) : State := { s with wfin := true }

/-- `emitW(b)`: append a byte to `WOUT` (10_state.md R31). -/
def emitW (b : Byte) (s : State) : State := { s with wout := s.wout ++ [b] }

/-- `emitR(b)`: append a byte to `ROUT` (10_state.md R31). -/
def emitR (b : Byte) (s : State) : State := { s with rout := s.rout ++ [b] }

/-- The block takes the host's next event; `rest` are the events after it. -/
def setPort (rest : List HostEvent) (s : State) : State := { s with port := rest }

end Sys2Proof.Machine
end

