-- ==== Sys2Proof/Machine/Flags.lean ====
section
/-! DEFINITION. The one-bit state of the block (10_state.md R35): there are no condition codes. -/

namespace Sys2Proof.Machine

/-- `FAULT != 0`: the faulted state, and the output `fault_o` (60_exceptions.md R170, R178). -/
def faulted (s : State) : Bool := decide (s.fault ≠ .none)

/-- Read `SEEN[sym]` (10_state.md R24); `SEEN[257]` to `SEEN[511]` do not exist (20_memory.md R50). -/
def readSeen (sym : Symbol) (s : State) : Except Fault Bool :=
  if sym.toNat < Config.nsym then .ok (s.seen.getLsbD sym.toNat) else .error (.noSuchSymbol sym)

/-- `SEEN[sym] <- 1` (10_state.md R24). -/
def setSeen (sym : Symbol) (s : State) : State := { s with seen := s.seen ||| (1#257 <<< sym.toNat) }

/-- `CT[sym].valid` (10_state.md R28). -/
def codeValid (sym : Symbol) (s : State) : Bool := (storeGet s.ct sym.toNat).isSome

/-- `NM[i].leaf` (10_state.md R25). -/
def nodeIsLeaf : Node → Bool
  | .leaf _ _ => true
  | .inner _ _ _ => false

end Sys2Proof.Machine
end

