-- ==== Sys2Proof/Machine/CodeTable.lean ====
section
/-! DEFINITION. The code table: generation, lookup, and the trie (42_code_table.md). -/

namespace Sys2Proof.Machine

/-- The entry that holds path `p` (42_code_table.md R120): `len = len(p)`, `bits[i] = p[i]` below `len(p)`, 0 from there on. -/
def codeEntryOf (p : Path) : CodeEntry where
  len := BitVec.ofNat 9 p.length
  bits := (BitVec.ofBoolListLE p).setWidth 256

/-- Write the entry of `sym` in `CT`. -/
def putCode (sym : Symbol) (p : Path) (s : State) : State := { s with ct := storePut s.ct sym.toNat (codeEntryOf p) }

/-- `CT[sym] <- {valid = 1, len = len(p), bits = p}` (42_code_table.md R120). -/
def writeCode (sym : Symbol) (p : Path) (s : State) : Except Fault State :=
  if sym.toNat < Config.nsym then .ok (putCode sym p s) else .error (.noSuchSymbol sym)

/-- `Assign(k, p)` (42_code_table.md R120), `p` the path from `ROOT` to `k`. The first argument bounds the recursion: a path has
at most 256 steps, so at most 257 nodes lie on it (R125). -/
def assign : Nat → NodeIdx → Path → State → Except Fault State
  | 0, _, _, _ => .error .pathTooLong
  | fuel + 1, k, p, s => do
    match ← readNode s.nm k with
    | .leaf sym _ => writeCode sym p s
    | .inner _ l r =>
      let s' ← assign fuel l (p ++ [false]) s
      assign fuel r (p ++ [true]) s'

/-- `GenCodes()` (42_code_table.md R120); the code of a leaf root is "0" (R121). -/
def genCodes (s : State) : Except Fault State := do
  match ← readNode s.nm s.root with
  | .leaf sym _ => writeCode sym [false] s
  | .inner _ _ _ => assign (Config.maxLen + 1) s.root [] s

/-- The bit-path of an entry: `bits[0], ..., bits[len - 1]` (42_code_table.md R122). -/
def codePath (e : CodeEntry) : Path := (List.range e.len.toNat).map fun i => e.bits.getLsbD i

/-- `Lookup(sym)` (42_code_table.md R122): the path, or none when `CT[sym].valid = 0`. -/
def lookupCode (sym : Symbol) (s : State) : Except Fault (Option Path) :=
  if sym.toNat < Config.nsym then
    match storeGet s.ct sym.toNat with
    | none => .ok none
    | some e => if e.len.toNat ≤ Config.maxLen then .ok (some (codePath e)) else .error .pathTooLong
  else .error (.noSuchSymbol sym)

/-- The node that path `p` leads to from node `k`, 0 to `left` and 1 to `right`; none when a step leaves a leaf
(42_code_table.md R123). -/
def walkFrom (nm : List (Nat × Node)) (k : NodeIdx) (p : Path) : Option NodeIdx :=
  match p with
  | [] => some k
  | b :: t =>
    match readNode nm k with
    | .ok (.inner _ l r) => walkFrom nm (if b then r else l) t
    | _ => none

/-- The trie, the decode direction of the code table (42_code_table.md R123): the symbol path `p` maps to, if any. Only internal
nodes are passed before the last step, since a leaf has no children; for a leaf root only "0" maps. -/
def trieSymbol (nm : List (Nat × Node)) (root : NodeIdx) (p : Path) : Option Symbol :=
  match readNode nm root with
  | .ok (.leaf sym _) => if p = [false] then some sym else none
  | .ok (.inner _ _ _) =>
    match walkFrom nm root p with
    | some k =>
      match readNode nm k with
      | .ok (.leaf sym _) => some sym
      | _ => none
    | none => none
  | .error _ => none

end Sys2Proof.Machine
end

