-- ==== Sys2Proof/Machine/Operands.lean ====
section
/-! DEFINITION. The operand forms of 30_encoding.md R72 as the rules use them: a count, the bit-path of WBITS, the bits of a
payload byte, the byte of a symbol. -/

namespace Sys2Proof.Machine

/-- `zext_41(count)` (30_encoding.md R72, 41_tree_builder.md R102). -/
def leafCount (count : Count32) : Count := count.setWidth 41

/-- The bit-path WBITS spells: step `i` is `bits[len - 1 - i]`, `i` from 0 to `len - 1` (30_encoding.md R72, 43_bit_writer.md R132). -/
def wbitsPath (len : BitVec 9) (bits : BitVec 32) : Except Fault Path :=
  if len.toNat ≤ Config.wbitsMax then
    .ok ((List.range len.toNat).map fun i => bits.getLsbD (len.toNat - 1 - i))
  else .error .noSuchBit

/-- The bits of a payload byte, from bit 7 down to bit 0 (44_bit_reader.md R151, 20_memory.md R52). -/
def byteBits (byte : Byte) : List Bool :=
  [byte.getLsbD 7, byte.getLsbD 6, byte.getLsbD 5, byte.getLsbD 4, byte.getLsbD 3, byte.getLsbD 2, byte.getLsbD 1,
    byte.getLsbD 0]

/-- `sym[7:0]`, the byte a symbol leaves as (44_bit_reader.md R150). -/
def symByte (sym : Symbol) : Byte := sym.extractLsb' 0 8

end Sys2Proof.Machine
end

