-- ==== Sys2Proof/Machine/BitReader.lean ====
section
/-! DEFINITION. The bit reader: DEC (44_bit_reader.md). -/

namespace Sys2Proof.Machine

/-- What one bit does to the candidate path at the node `n` the reader stands at (44_bit_reader.md R150). -/
inductive BitMatch where
  /-- The bit matches no code: the leaf root and a 1 bit (R154). -/
  | noCode
  /-- The path is a proper beginning of some codes: the reader moves to this node. -/
  | goOn (nxt : NodeIdx)
  /-- The path matches the code of this symbol. -/
  | hit (sym : Symbol)
deriving DecidableEq, Repr

/-- The match test of `DecBit(b)` (44_bit_reader.md R150). -/
def matchBit (nm : List (Nat × Node)) (rcur : NodeIdx) (b : Bool) : Except Fault BitMatch := do
  match ← readNode nm rcur with
  | .leaf sym _ => .ok (if b then .noCode else .hit sym)
  | .inner _ l r =>
    let nxt := if b then r else l
    match ← readNode nm nxt with
    | .inner _ _ _ => .ok (.goOn nxt)
    | .leaf sym _ => .ok (.hit sym)

/-- A match (44_bit_reader.md R150, R152): EOD sets `RDONE` and is not emitted, any other symbol is emitted as its byte; the
candidate path is reset to empty. -/
def takeSymbol (sym : Symbol) (s : State) : State :=
  setRcur s.root (if sym = Config.eodSym then setRdone s else emitR (symByte sym) s)

/-- The bits of one DEC in order, `w` its command word (44_bit_reader.md R151): once `RDONE = 1` the rest is discarded; NoMatch
(R154) ends the step with the earlier bits' effects standing. -/
def readBits (w : Word48) : List Bool → State → Except Fault State
  | [], s => .ok s
  | b :: bs, s =>
    if s.rdone then .ok s
    else do
      match ← matchBit s.nm s.rcur b with
      | .noCode => .ok (raiseFault .noMatch w s)
      | .goOn nxt => readBits w bs (setRcur nxt s)
      | .hit sym => readBits w bs (takeSymbol sym s)

/-- DEC `byte` (44_bit_reader.md R151). Check: BadPhase; then, per bit, NoMatch. -/
def execDec (byte : Byte) (s : State) : Host.Outcome State Fault Refusal :=
  if s.phase = .built then outcomeOf (readBits (encode (.dec byte)) (byteBits byte) s)
  else .next (raiseFault .badPhase (encode (.dec byte)) s)

end Sys2Proof.Machine
end

