-- ==== Sys2Proof/Machine/BitWriter.lean ====
section
/-! DEFINITION. The bit writer: ENC, WBITS, WFIN (43_bit_writer.md). -/

namespace Sys2Proof.Machine

/-- `WACC OR (zext_8(b) << (7 - WNB))` (43_bit_writer.md R130). -/
def placeBit (acc : BitVec 8) (nb : BitVec 3) (b : Bool) : BitVec 8 :=
  acc ||| ((BitVec.ofBool b).setWidth 8 <<< (7 - nb.toNat))

/-- `AppendBit(b)` (43_bit_writer.md R130). -/
def appendBit (b : Bool) (s : State) : State :=
  if s.wnb = 7 then setAccumulator 0 0 (emitW (placeBit s.wacc s.wnb b) s)
  else setAccumulator (placeBit s.wacc s.wnb b) (s.wnb + 1) s

/-- Append the bits of a path, step 0 first (43_bit_writer.md R131, R132). -/
def appendPath (p : Path) (s : State) : State := p.foldl (fun t b => appendBit b t) s

/-- ENC `sym` (43_bit_writer.md R131). Checks: BadPhase, WriteAfterFinal, SymbolNotCoded. -/
def execEnc (sym : Symbol) (s : State) : Host.Outcome State Fault Refusal :=
  if s.phase = .built then
    if s.wfin then .next (raiseFault .writeAfterFinal (encode (.enc sym)) s)
    else
      match lookupCode sym s with
      | .error f => .fault f
      | .ok none => .next (raiseFault .symbolNotCoded (encode (.enc sym)) s)
      | .ok (some p) => .next (appendPath p s)
  else .next (raiseFault .badPhase (encode (.enc sym)) s)

/-- WBITS `len, bits` (43_bit_writer.md R132). Check: WriteAfterFinal, also when `len = 0`. -/
def execWbits (len : BitVec 9) (bits : BitVec 32) (s : State) : Host.Outcome State Fault Refusal :=
  if s.wfin then .next (raiseFault .writeAfterFinal (encode (.wbits len bits)) s)
  else
    match wbitsPath len bits with
    | .error f => .fault f
    | .ok p => .next (appendPath p s)

/-- The flush of the partial byte, if there is one (43_bit_writer.md R133): its low bits are already 0. -/
def flushPartial (s : State) : State := if s.wnb = 0 then s else setAccumulator 0 0 (emitW s.wacc s)

/-- WFIN (43_bit_writer.md R133). Check: WriteAfterFinal. -/
def execWfin (s : State) : Host.Outcome State Fault Refusal :=
  if s.wfin then .next (raiseFault .writeAfterFinal (encode .wfin) s) else .next (setWfin (flushPartial s))

end Sys2Proof.Machine
end

