-- ==== Sys2Proof/Machine/Control.lean ====
section
/-! DEFINITION. NOP and CLEAR (40_control.md R91, R92). -/

namespace Sys2Proof.Machine

/-- NOP (40_control.md R91): no state written. -/
def execNop (s : State) : Host.Outcome State Fault Refusal := .next s

/-- CLEAR (40_control.md R92): never raises a fault. -/
def execClear (s : State) : Host.Outcome State Fault Refusal := .next (clearRun s)

end Sys2Proof.Machine
end

