-- ==== Sys2Proof/Machine/TreeBuilder.lean ====
section
/-! DEFINITION. The tree builder: priority-insert and merge; PUSH and BUILD (41_tree_builder.md). -/

namespace Sys2Proof.Machine

/-- The queue after the scan and shift of `PriorityInsert(k)` with `c = NM[k].cnt` (41_tree_builder.md R101): `k` goes after every
node whose count is `<= c` from the head, before the first whose count is greater. -/
def insertByCount (nm : List (Nat × Node)) (c : Count) (k : NodeIdx) : List NodeIdx → Except Fault (List NodeIdx)
  | [] => .ok [k]
  | j :: q => do
    let n ← readNode nm j
    if nodeCnt n ≤ c then
      let q' ← insertByCount nm c k q
      .ok (j :: q')
    else .ok (k :: j :: q)

/-- `PriorityInsert(k)` (41_tree_builder.md R101). -/
def priorityInsert (k : NodeIdx) (s : State) : Except Fault State := do
  let n ← readNode s.nm k
  if s.pq.length < Config.maxLeaf then
    let q ← insertByCount s.nm (nodeCnt n) k s.pq
    .ok (setQueue q s)
  else .error .queueFull

/-- The effect of PUSH (41_tree_builder.md R102): the leaf takes index `NNODE`. -/
def pushLeaf (sym : Symbol) (count : Count32) (s : State) : Except Fault State := do
  let s1 ← allocNode (.leaf sym (leafCount count)) s
  let s2 ← countLeaf (setSeen sym s1)
  priorityInsert s.nnode s2

/-- PUSH `sym, count` (41_tree_builder.md R102). Checks: BadPhase, DuplicateSymbol. -/
def execPush (sym : Symbol) (count : Count32) (s : State) : Host.Outcome State Fault Refusal :=
  if s.phase = .load then
    match readSeen sym s with
    | .error f => .fault f
    | .ok true => .next (raiseFault .duplicateSymbol (encode (.push sym count)) s)
    | .ok false => outcomeOf (pushLeaf sym count s)
  else .next (raiseFault .badPhase (encode (.push sym count)) s)

/-- `MergeStep()` (41_tree_builder.md R103): the first node removed becomes the left child, the second the right. -/
def mergeStep (s : State) : Except Fault State :=
  match s.pq with
  | a :: b :: q => do
    let na ← readNode s.nm a
    let nb ← readNode s.nm b
    let c ← addCounts (nodeCnt na) (nodeCnt nb)
    let s' ← allocNode (.inner c a b) (setQueue q s)
    priorityInsert s.nnode s'
  | _ => .error .queueEmpty

/-- `n` merges. -/
def mergeLoop : Nat → State → Except Fault State
  | 0, s => .ok s
  | n + 1, s => do
    let s' ← mergeStep s
    mergeLoop n s'

/-- The effect of BUILD (41_tree_builder.md R104). `while QLEN >= 2: MergeStep()` runs `QLEN - 1` times, since each merge lowers
`QLEN` by one (R103). -/
def buildTree (s : State) : Except Fault State := do
  let s1 ← mergeLoop (s.pq.length - 1) s
  let k ← queueHead s1
  let s2 ← genCodes (setRoot k s1)
  .ok (enterBuilt s2)

/-- BUILD (41_tree_builder.md R104 to R106). Checks: BadPhase, InvalidInput. -/
def execBuild (s : State) : Host.Outcome State Fault Refusal :=
  if s.phase = .load then
    if s.nleaf = 0 then .next (raiseFault .invalidInput (encode .build) s) else outcomeOf (buildTree s)
  else .next (raiseFault .badPhase (encode .build) s)

end Sys2Proof.Machine
end

