-- ==== Sys2Proof/Machine/Dispatch.lean ====
section
/-! DEFINITION. The dispatch of 40_control.md R90 line 3: one arm per command. -/

namespace Sys2Proof.Machine

def exec (i : Instr) (s : State) : Host.Outcome State Fault Refusal :=
  match i with
  | .nop => Sys2Proof.Machine.execNop s
  | .clear => Sys2Proof.Machine.execClear s
  | .push sym count => Sys2Proof.Machine.execPush sym count s
  | .build => Sys2Proof.Machine.execBuild s
  | .enc sym => Sys2Proof.Machine.execEnc sym s
  | .wbits len bits => Sys2Proof.Machine.execWbits len bits s
  | .wfin => Sys2Proof.Machine.execWfin s
  | .dec byte => Sys2Proof.Machine.execDec byte s

end Sys2Proof.Machine
end

