-- ==== Sys2Proof/Machine/Accept.lean ====
section
/-! DEFINITION. The step of 40_control.md R90 for one accepted command word, and what the host's events do. -/

namespace Sys2Proof.Machine

/-- `Step(S, w)` (40_control.md R90): while faulted every word but exactly CLEAR is discarded (60_exceptions.md R176); an illegal
word raises IllegalCommand; a command executes. -/
def accept (w : Word48) (s : State) : Host.Outcome State Fault Refusal :=
  if faulted s then
    if w = 0x100000000000#48 then exec .clear s else .next s
  else
    match decode w with
    | .error _ => .next (raiseFault .illegalCommand w s)
    | .ok i => exec i s

/-- One event of the host: a command word is accepted, or `rst_n` is pulsed (70_reset_and_hazards.md R200). -/
def hostEvent (e : HostEvent) (s : State) : Host.Outcome State Fault Refusal :=
  match e with
  | .command w => accept w s
  | .resetPulse => .next (hardwareReset s)

/-- The block takes the oldest event of `port`; with none it is idle with its state held (60_exceptions.md R184). -/
def serveHost (s : State) : Host.Outcome State Fault Refusal :=
  match s.port with
  | [] => .next s
  | e :: rest => hostEvent e (setPort rest s)

/-- `s` with the word the table numbers as `w` (`nbits` bits) presented next on the command port. -/
def presentWord (s : State) (nbits w : Nat) : State := setPort (.command (tableWord nbits w) :: s.port) s

end Sys2Proof.Machine
end

