-- ==== Sys2Proof/Machine/Step.lean ====
section
/-! DEFINITION. One step of the machine, and the host's way to present a word of the opcode table. -/

namespace Sys2Proof.Machine

/-- One step: the block serves the host's next event (00_scope.md R6, 10_state.md R34). -/
def step (s : State) : Host.Outcome State Fault Refusal := serveHost s

/-- `s` with the word `w` (`nbits` bits, numbered as opcode_table.json numbers them) presented as the next command. -/
def State.withFetchWord (s : State) (nbits w : Nat) : State := presentWord s nbits w

end Sys2Proof.Machine
end

