-- ==== Sys2Proof/Machine/Assembler.lean ====
section
/-! DEFINITION. The assembler syntax (30_encoding.md R77) and the pseudo-commands (R78), from the characters of a line to command
words. The block never sees this text; it is how the spec writes programs down. -/

namespace Sys2Proof.Machine

/-- A token of a line. -/
inductive AsmToken where
  /-- A run of characters that is no quote, comma or blank: a mnemonic, a number or the name `EOD`. -/
  | word (cs : List Char)
  /-- A character in single quotes. -/
  | quoted (c : Char)
  /-- A text in double quotes. -/
  | text (cs : List Char)
  | comma
deriving DecidableEq, Repr

/-- What the reader of a line is in the middle of. -/
inductive AsmLexing where
  | between
  | inWord (cs : List Char)
  | inText (cs : List Char)
  | quoteOpen
  | quoteChar (c : Char)
deriving DecidableEq, Repr

/-- A blank between tokens. -/
def asmBlank (c : Char) : Bool := c == ' ' || c == '\t'

/-- The tokens of a line; a `;` outside quotes starts a comment (30_encoding.md R77). -/
def asmLex : AsmLexing → List Char → Option (List AsmToken)
  | .between, [] => some []
  | .inWord cs, [] => some [.word cs]
  | .inText _, [] => none
  | .quoteOpen, [] => none
  | .quoteChar _, [] => none
  | .between, c :: rest =>
    if asmBlank c then asmLex .between rest
    else if c == ';' then some []
    else if c == ',' then (asmLex .between rest).map (AsmToken.comma :: ·)
    else if c == '"' then asmLex (.inText []) rest
    else if c == '\'' then asmLex .quoteOpen rest
    else asmLex (.inWord [c]) rest
  | .inWord cs, c :: rest =>
    if asmBlank c then (asmLex .between rest).map (AsmToken.word cs :: ·)
    else if c == ';' then some [.word cs]
    else if c == ',' then (asmLex .between rest).map fun ts => AsmToken.word cs :: AsmToken.comma :: ts
    else if c == '"' || c == '\'' then none
    else asmLex (.inWord (cs ++ [c])) rest
  | .inText cs, c :: rest =>
    if c == '"' then (asmLex .between rest).map (AsmToken.text cs :: ·) else asmLex (.inText (cs ++ [c])) rest
  | .quoteOpen, c :: rest => asmLex (.quoteChar c) rest
  | .quoteChar c, d :: rest => if d == '\'' then (asmLex .between rest).map (AsmToken.quoted c :: ·) else none

/-- The value of a digit character, 0 to 15. -/
def asmDigit (c : Char) : Option Nat :=
  if '0' ≤ c ∧ c ≤ '9' then some (c.toNat - 48)
  else if 'A' ≤ c ∧ c ≤ 'F' then some (c.toNat - 55)
  else if 'a' ≤ c ∧ c ≤ 'f' then some (c.toNat - 87)
  else none

/-- The number a non-empty run of digits writes in base `b`. -/
def asmDigits (b : Nat) : List Char → Option Nat
  | [] => none
  | cs =>
    cs.foldl
      (fun acc c =>
        match acc, asmDigit c with
        | some n, some d => if d < b then some (n * b + d) else none
        | _, _ => none)
      (some 0)

/-- A number: decimal, hexadecimal with `0x`, binary with `0b` (30_encoding.md R77). -/
def asmNumber : List Char → Option Nat
  | '0' :: 'x' :: cs => asmDigits 16 cs
  | '0' :: 'b' :: cs => asmDigits 2 cs
  | cs => asmDigits 10 cs

/-- A number below `2 ^ n`, as a field of `n` bits. -/
def asmField (n : Nat) (cs : List Char) : Option (BitVec n) :=
  match asmNumber cs with
  | some v => if v < 2 ^ n then some (BitVec.ofNat n v) else none
  | none => none

/-- The byte value of a character: its ASCII code (30_encoding.md R77, 93_implementation_defined.md G1). -/
def asmCharByte (c : Char) : Option Nat := if c.toNat < 128 then some c.toNat else none

/-- A `sym` operand: a number 0 to 256, a character in single quotes, or the name `EOD` (30_encoding.md R77). -/
def asmSym : AsmToken → Option Symbol
  | .word ['E', 'O', 'D'] => some Config.eodSym
  | .word cs =>
    match asmNumber cs with
    | some v => if v ≤ 256 then some (BitVec.ofNat 9 v) else none
    | none => none
  | .quoted c => (asmCharByte c).map (BitVec.ofNat 9)
  | .text _ => none
  | .comma => none

/-- A length operand of WBITS, 0 to 32 (30_encoding.md R72). -/
def asmLen (cs : List Char) : Option (BitVec 9) :=
  match asmNumber cs with
  | some v => if v ≤ 32 then some (BitVec.ofNat 9 v) else none
  | none => none

/-- `PUSHEOD count` expands to `PUSH 256, count` (30_encoding.md R78). -/
def pushEod (count : Count32) : List Instr := [.push Config.eodSym count]

/-- `ENCEOD` expands to `ENC 256` (30_encoding.md R78). -/
def encEod : List Instr := [.enc Config.eodSym]

/-- `ENCSTR` expands to one `ENC` per byte, in order (30_encoding.md R78). -/
def encStr (bytes : List Byte) : List Instr := bytes.map fun b => .enc (b.setWidth 9)

/-- `DECSTR` expands to one `DEC` per byte, in order (30_encoding.md R78). -/
def decStr (bytes : List Byte) : List Instr := bytes.map .dec

/-- The bytes of a text (30_encoding.md R77, R78). -/
def asmTextBytes : List Char → Option (List Byte)
  | [] => some []
  | c :: cs =>
    match asmCharByte c, asmTextBytes cs with
    | some v, some bs => some (BitVec.ofNat 8 v :: bs)
    | _, _ => none

/-- A byte operand of DECSTR: hexadecimal, the `0x` optional (DESIGN CHOICE, log entry 6: 92_eei_decisions.md D27 "`DECSTR
hex...`" and 95_test_vectors.md P1 "`DECSTR E2`"). -/
def asmHexByte (cs : List Char) : Option Byte :=
  match cs with
  | '0' :: 'x' :: ds => (asmDigits 16 ds).bind fun v => if v < 256 then some (BitVec.ofNat 8 v) else none
  | ds => (asmDigits 16 ds).bind fun v => if v < 256 then some (BitVec.ofNat 8 v) else none

/-- The byte operands of DECSTR; there may be none (DESIGN CHOICE, log entry 6). -/
def asmHexBytes : List AsmToken → Option (List Byte)
  | [] => some []
  | .word cs :: ts =>
    match asmHexByte cs, asmHexBytes ts with
    | some b, some bs => some (b :: bs)
    | _, _ => none
  | _ :: _ => none

/-- The commands a line's tokens spell (30_encoding.md R77, R78); an empty line spells none, and DECSTR with no byte operand spells
none (DESIGN CHOICE, log entry 6: R78 writes `DECSTR b0 b1 ... bk`). -/
def asmStatement : List AsmToken → Option (List Instr)
  | [] => some []
  | [.word ['N', 'O', 'P']] => some [.nop]
  | [.word ['C', 'L', 'E', 'A', 'R']] => some [.clear]
  | [.word ['P', 'U', 'S', 'H'], sym, .comma, .word count] =>
    match asmSym sym, asmField 32 count with
    | some s, some n => some [.push s n]
    | _, _ => none
  | [.word ['B', 'U', 'I', 'L', 'D']] => some [.build]
  | [.word ['E', 'N', 'C'], sym] => (asmSym sym).map fun s => [.enc s]
  | [.word ['W', 'B', 'I', 'T', 'S'], .word len, .comma, .word value] =>
    match asmLen len, asmField 32 value with
    | some l, some v => some [.wbits l v]
    | _, _ => none
  | [.word ['W', 'F', 'I', 'N']] => some [.wfin]
  | [.word ['D', 'E', 'C'], .word byte] => (asmField 8 byte).map fun b => [.dec b]
  | [.word ['P', 'U', 'S', 'H', 'E', 'O', 'D'], .word count] => (asmField 32 count).map pushEod
  | [.word ['E', 'N', 'C', 'E', 'O', 'D']] => some encEod
  | [.word ['E', 'N', 'C', 'S', 'T', 'R'], .text cs] => (asmTextBytes cs).map encStr
  | .word ['D', 'E', 'C', 'S', 'T', 'R'] :: bytes => (asmHexBytes bytes).map decStr
  | _ => none

/-- The command words of one line (30_encoding.md R77, R78), or none where the line is not of the syntax. -/
def assembleLine (line : List Char) : Option (List Word48) :=
  ((asmLex .between line).bind asmStatement).map (·.map encode)

end Sys2Proof.Machine
end

