-- ==== Sys2Proof/Machine/Status.lean ====
section
/-! DEFINITION. The status registers, all read-only outputs (10_state.md R32); reading one has no side effect (20_memory.md R56). -/

namespace Sys2Proof.Machine

/-- The outputs of 10_state.md R32, in its order. -/
structure Status where
  stPhase : BitVec 1
  stFault : BitVec 4
  stFinfo : Word48
  faultO : Bool
  stNleaf : BitVec 9
  stNnode : BitVec 10
  stRoot : BitVec 10
  stWnb : BitVec 3
  stWfin : Bool
  stRdone : Bool
deriving DecidableEq, Repr

/-- What each output is (10_state.md R32). -/
def State.status (s : State) : Status where
  stPhase := phaseBit s.phase
  stFault := faultBits s.fault
  stFinfo := s.finfo
  faultO := faulted s
  stNleaf := s.nleaf
  stNnode := s.nnode
  stRoot := s.root
  stWnb := s.wnb
  stWfin := s.wfin
  stRdone := s.rdone

end Sys2Proof.Machine
end

