-- ==== Sys2Proof/Safety.lean ====
section
/-! DEFINITION. What a claim about the block can speak of: good and complete runs (60_exceptions.md R181), the invariants of
10_state.md R38, one merge of BUILD, and the reference notions of the laws R135, R155 and R157. -/

namespace Sys2Proof.Safety

open Sys2Proof.Machine

/-! ## Runs (60_exceptions.md R181) -/

/-- The state is good: `FAULT = 0`. -/
def Good (s : State) : Prop := s.fault = .none

/-- An encode run is complete: it is good, `PHASE = BUILT` and `WFIN = 1`. -/
def EncodeRunComplete (s : State) : Prop := Good s ∧ s.phase = .built ∧ s.wfin = true

/-- A decode run is complete: it is good and `RDONE = 1`. -/
def DecodeRunComplete (s : State) : Prop := Good s ∧ s.rdone = true

/-- The block accepts the words of a list in order (10_state.md R34), each by `Step` (40_control.md R90). -/
def runWords : List Word48 → State → Host.Outcome State Fault Refusal
  | [], s => .next s
  | w :: ws, s =>
    match accept w s with
    | .next t => runWords ws t
    | .fault f => .fault f
    | .refused r => .refused r

/-- The block accepts the words of a list of commands in order. -/
def runCommands (is : List Instr) (s : State) : Host.Outcome State Fault Refusal := runWords (is.map encode) s

/-- The commands of a run's start: CLEAR, the table of `(sym, count)` pairs in order, BUILD (70_reset_and_hazards.md R203, R204). -/
def tableCommands (pairs : List (Symbol × Count32)) : List Instr := .clear :: pairs.map (fun e => .push e.1 e.2) ++ [.build]

/-- The commands that encode `B`: ENC of each byte, ENC EOD, WFIN (70_reset_and_hazards.md R203). -/
def encodeCommands (B : List Byte) : List Instr := B.map (fun b => .enc (b.setWidth 9)) ++ [.enc Config.eodSym, .wfin]

/-! ## The pieces of the invariant (10_state.md R38) -/

/-- `NM[i].cnt`, 0 where nothing is written. -/
def cntAt (nm : List (Nat × Node)) (i : Nat) : Nat :=
  match storeGet nm i with
  | some n => (nodeCnt n).toNat
  | none => 0

/-- The symbol of the leaf `NM[i]`, none where `NM[i]` is no leaf. -/
def leafSymAt (nm : List (Nat × Node)) (i : Nat) : Option Symbol :=
  match storeGet nm i with
  | some (.leaf sym _) => some sym
  | _ => none

/-- The children of `NM[i]`: two for an internal node, none for a leaf. -/
def childrenAt (nm : List (Nat × Node)) (i : Nat) : List Nat :=
  match storeGet nm i with
  | some (.inner _ l r) => [l.toNat, r.toNat]
  | _ => []

/-- The children of the nodes `0 .. n - 1`, in order. -/
def childList (nm : List (Nat × Node)) (n : Nat) : List Nat := (List.range n).flatMap (childrenAt nm)

/-- The number of symbols `s` with `SEEN[s] = 1`. -/
def seenCount (seen : BitVec 257) : Nat := (List.range Config.nsym).countP fun i => seen.getLsbD i

/-- The sum of the counts of the leaves `0 .. n - 1`. -/
def leafTotal (nm : List (Nat × Node)) (n : Nat) : Nat := ((List.range n).map (cntAt nm)).sum

/-- R38 item 1. -/
def Bounds (s : State) : Prop := s.nleaf.toNat ≤ 257 ∧ s.nnode.toNat ≤ 513 ∧ s.pq.length ≤ 257

/-- R38 item 2. -/
def SeenCounted (s : State) : Prop := s.nleaf.toNat = seenCount s.seen

/-- R38 item 3, with the width of a leaf's count (10_state.md R25: zero-extended from 32 bits). -/
def LeavesOk (s : State) : Prop :=
  (∀ i < s.nleaf.toNat, ∃ sym c, storeGet s.nm i = some (.leaf sym c) ∧ sym.toNat < 257 ∧ c.toNat < 2 ^ 32 ∧
    s.seen.getLsbD sym.toNat = true) ∧
  ∀ i < s.nleaf.toNat, ∀ j < s.nleaf.toNat, leafSymAt s.nm i = leafSymAt s.nm j → i = j

/-- Exactly the nodes `0 .. NNODE - 1` are written (10_state.md R23); from `NLEAF` on they are internal, with smaller children
and the sum of their counts (10_state.md R25). -/
def NodesOk (s : State) : Prop :=
  (∀ i, (storeGet s.nm i).isSome = true ↔ i < s.nnode.toNat) ∧ s.nleaf.toNat ≤ s.nnode.toNat ∧
  ∀ i, s.nleaf.toNat ≤ i → i < s.nnode.toNat → ∃ c l r, storeGet s.nm i = some (.inner c l r) ∧ l.toNat < i ∧ r.toNat < i ∧
    c.toNat = cntAt s.nm l.toNat + cntAt s.nm r.toNat

/-- The order of the queue: by count, then by index, which among equal counts is first in, first out (41_tree_builder.md R100). -/
def Before (nm : List (Nat × Node)) (i j : NodeIdx) : Prop :=
  cntAt nm i.toNat < cntAt nm j.toNat ∨ (cntAt nm i.toNat = cntAt nm j.toNat ∧ i.toNat < j.toNat)

/-- R38 item 4: sorted by the pair (count, index) (41_tree_builder.md R100), hence distinct, and below `NNODE`. -/
def QueueOk (s : State) : Prop := (∀ k ∈ s.pq, k.toNat < s.nnode.toNat) ∧ s.pq.Pairwise (Before s.nm)

/-- Every node is queued or the child of exactly one internal node, once (R38 item 6; 41_tree_builder.md R107 item 2). -/
def ForestOk (s : State) : Prop :=
  (s.pq.map (·.toNat) ++ childList s.nm s.nnode.toNat).Perm (List.range s.nnode.toNat)

/-- The queued nodes' counts add up to all counts pushed (R38 item 9). -/
def CountsOk (s : State) : Prop := (s.pq.map fun k => cntAt s.nm k.toNat).sum = leafTotal s.nm s.nleaf.toNat

/-- R38 item 5. -/
def LoadOk (s : State) : Prop :=
  s.phase = .load → s.nnode.toNat = s.nleaf.toNat ∧ s.pq.length = s.nleaf.toNat ∧ s.ct = [] ∧ s.rcur = 0 ∧ s.rdone = false ∧
    s.root = 0

/-- R38 item 6, the counters. -/
def BuiltOk (s : State) : Prop :=
  s.phase = .built → 1 ≤ s.nleaf.toNat ∧ s.nnode.toNat + 1 = 2 * s.nleaf.toNat ∧ s.pq = [s.root]

/-- R38 item 7 and the shape of an entry (10_state.md R28, 42_code_table.md R125): an entry is valid exactly for the symbols
pushed, and its path leads from `ROOT` to the leaf of its symbol (42_code_table.md R123). -/
def CodesOk (s : State) : Prop :=
  s.phase = .built → (∀ i < 257, (storeGet s.ct i).isSome = s.seen.getLsbD i) ∧
    ∀ sym : Symbol, ∀ e, storeGet s.ct sym.toNat = some e → 1 ≤ e.len.toNat ∧ e.len.toNat ≤ 256 ∧
      (∀ i, e.len.toNat ≤ i → e.bits.getLsbD i = false) ∧ trieSymbol s.nm s.root (codePath e) = some sym

/-- R38 item 8: the positions of `WACC` not yet written are 0; a finalised writer holds no bit (10_state.md R29). -/
def WriterOk (s : State) : Prop :=
  (∀ i, i + s.wnb.toNat < 8 → s.wacc.getLsbD i = false) ∧ (s.wfin = true → s.wnb = 0)

/-- 10_state.md R30: the reader stands at an internal node, or at the leaf root; after EOD it stands at the root
(44_bit_reader.md R153). -/
def ReaderOk (s : State) : Prop :=
  s.phase = .built → ((∃ c l r, storeGet s.nm s.rcur.toNat = some (.inner c l r)) ∨ (s.nleaf = 1 ∧ s.rcur = s.root)) ∧
    (s.rdone = true → s.rcur = s.root)

/-- R38 item 10. -/
def FaultOk (s : State) : Prop := s.fault = .none ↔ s.finfo = 0

/-- The part of the invariant about the tree in the making: it holds before, between and after the merges of BUILD. -/
structure TreeOk (s : State) : Prop where
  bounds : Bounds s
  seenCounted : SeenCounted s
  leaves : LeavesOk s
  nodes : NodesOk s
  queue : QueueOk s
  forest : ForestOk s
  counts : CountsOk s
  nmWf : StoreWf Config.maxNode s.nm

/-- The invariants of 10_state.md R38 (item 11 is the type `FaultCode`), with the canonical form of the stores. -/
structure Inv (s : State) : Prop where
  tree : TreeOk s
  loadPhase : LoadOk s
  builtPhase : BuiltOk s
  codes : CodesOk s
  writer : WriterOk s
  reader : ReaderOk s
  faultInfo : FaultOk s
  ctWf : StoreWf Config.nsym s.ct

/-! ## The merge (41_tree_builder.md R103) -/

/-- `t` is `s` after one `MergeStep()`: the two head nodes `a` and `b`, which come before every other queued node (R100), are
removed; node `NNODE` is internal with left child `a`, right child `b` and the exact sum of their counts; it is queued after every
node left of equal or smaller count and before the first of greater count (R101); nothing else changes. -/
def MergeOf (s t : State) : Prop :=
  ∃ (a b : NodeIdx) (q l1 l2 : List NodeIdx) (c : Count),
    s.pq = a :: b :: q ∧ Before s.nm a b ∧ (∀ j ∈ q, Before s.nm b j) ∧
    c.toNat = cntAt s.nm a.toNat + cntAt s.nm b.toNat ∧ storeGet t.nm s.nnode.toNat = some (.inner c a b) ∧
    (∀ i, i ≠ s.nnode.toNat → storeGet t.nm i = storeGet s.nm i) ∧
    q = l1 ++ l2 ∧ (∀ j ∈ l1, cntAt s.nm j.toNat ≤ c.toNat) ∧ (∀ j r, l2 = j :: r → c.toNat < cntAt s.nm j.toNat) ∧
    t.nnode.toNat = s.nnode.toNat + 1 ∧ t = { s with nm := t.nm, nnode := t.nnode, pq := l1 ++ s.nnode :: l2 }

/-! ## The packing law (43_bit_writer.md R135) -/

/-- The byte `{l[0], ..., l[7]}` with `l[0]` in bit 7, 0 where `l` has ended. -/
def byteOf (l : List Bool) : Byte :=
  BitVec.ofBoolListLE [l.getD 7 false, l.getD 6 false, l.getD 5 false, l.getD 4 false, l.getD 3 false, l.getD 2 false,
    l.getD 1 false, l.getD 0 false]

/-- The whole bytes of a bit sequence: byte `j` is `{l[8j], ..., l[8j + 7]}`. -/
def wholeBytes (l : List Bool) : List Byte := (List.range (l.length / 8)).map fun j => byteOf (l.drop (8 * j))

/-- The bits after the last whole byte. -/
def restBits (l : List Bool) : List Bool := l.drop (8 * (l.length / 8))

/-- The bytes of a bit sequence after finalisation: the last one padded with zeros (43_bit_writer.md R133, R135). -/
def paddedBytes (l : List Bool) : List Byte :=
  if l.length % 8 = 0 then wholeBytes l else wholeBytes l ++ [byteOf (restBits l)]

/-- The writer of `s` holds the bits `c` appended since the last byte was emitted (10_state.md R29). -/
def Holds (c : List Bool) (s : State) : Prop := c.length < 8 ∧ s.wnb = BitVec.ofNat 3 c.length ∧ s.wacc = byteOf c

/-- The bit-path a command appends in state `s` when it raises no fault (43_bit_writer.md R131, R132, R135). -/
def pathOfCommand (i : Instr) (s : State) : Path :=
  match i with
  | .enc sym =>
    match lookupCode sym s with
    | .ok (some p) => p
    | _ => []
  | .wbits len bits =>
    match wbitsPath len bits with
    | .ok p => p
    | .error _ => []
  | _ => []

/-- The concatenation, in command order, of the bit-paths a list of commands appends from state `s` (43_bit_writer.md R135). -/
def appendedPath : List Instr → State → Path
  | [], _ => []
  | i :: is, s =>
    match accept (encode i) s with
    | .next t => pathOfCommand i s ++ appendedPath is t
    | _ => []

/-! ## The candidate-path decoder (44_bit_reader.md R155) -/

/-- The reference decoder's state: the candidate path, the symbols emitted as bytes, and whether EOD has been matched. -/
structure RefDecoder where
  cand : Path
  out : List Byte
  done : Bool
deriving DecidableEq, Repr

/-- The symbol `s` with `Lookup(s) = p`, if any. -/
def tableSymbol (ct : List (Nat × CodeEntry)) (p : Path) : Option Nat := (ct.find? fun e => codePath e.2 == p).map Prod.fst

/-- One bit of the reference decoder: extend the candidate path, then look for a symbol whose code it is. -/
def refBit (ct : List (Nat × CodeEntry)) (r : RefDecoder) (b : Bool) : RefDecoder :=
  if r.done then r
  else
    match tableSymbol ct (r.cand ++ [b]) with
    | none => ⟨r.cand ++ [b], r.out, false⟩
    | some sym => if sym = 256 then ⟨[], r.out, true⟩ else ⟨[], r.out ++ [BitVec.ofNat 8 sym], false⟩

/-- The reference decoder over a bit sequence. -/
def refBits (ct : List (Nat × CodeEntry)) (bs : List Bool) (r : RefDecoder) : RefDecoder := bs.foldl (refBit ct) r

/-! ## Faults (60_exceptions.md R172) -/

/-- The faults a command can raise once it is known which command it is (60_exceptions.md R172). -/
def faultsOf : Instr → List FaultCode
  | .nop => []
  | .clear => []
  | .push _ _ => [.badPhase, .duplicateSymbol]
  | .build => [.badPhase, .invalidInput]
  | .enc _ => [.badPhase, .writeAfterFinal, .symbolNotCoded]
  | .wbits _ _ => [.writeAfterFinal]
  | .wfin => [.writeAfterFinal]
  | .dec _ => [.badPhase, .noMatch]

end Sys2Proof.Safety
end

