-- ==== Sys2Proof/Certificates/Slice0/Obligations.lean ====
section
/-! DEFINITION. The statements about the block, one per entry of OBLIGATIONS.json. A statement with the premise `Inv s` or
`TreeOk s` could fail only in a state that breaks an invariant of 10_state.md R38; that every step keeps `Inv` is
`EveryStepKeepsTheInvariant`. -/

open Sys2Proof
open Sys2Proof.Machine
open Sys2Proof.Safety

/-! ## Encoding -/

/-- 30_encoding.md R76: "Encoding is the inverse on legal commands". -/
def Obligations.DecodeEncodeRoundTrip : Prop := ∀ i : Instr, WellFormed i → decode (encode i) = .ok i

/-- 30_encoding.md R76, R71: which words decode to which command, field by field, and that the word of what a word decodes to is
the word. -/
def Obligations.DecodeReadsEachField : Prop :=
  ∀ w : Word48,
    (decode w = .ok .nop ↔ zField w = 0 ∧ opField w = 0 ∧ aField w = 0 ∧ dField w = 0) ∧
    (decode w = .ok .clear ↔ zField w = 0 ∧ opField w = 1 ∧ aField w = 0 ∧ dField w = 0) ∧
    (∀ sym count, decode w = .ok (.push sym count) ↔
      zField w = 0 ∧ opField w = 2 ∧ aField w = sym ∧ sym.toNat ≤ 256 ∧ dField w = count) ∧
    (decode w = .ok .build ↔ zField w = 0 ∧ opField w = 3 ∧ aField w = 0 ∧ dField w = 0) ∧
    (∀ sym, decode w = .ok (.enc sym) ↔ zField w = 0 ∧ opField w = 4 ∧ aField w = sym ∧ sym.toNat ≤ 256 ∧ dField w = 0) ∧
    (∀ len bits, decode w = .ok (.wbits len bits) ↔
      zField w = 0 ∧ opField w = 5 ∧ aField w = len ∧ len.toNat ≤ 32 ∧ dField w = bits) ∧
    (decode w = .ok .wfin ↔ zField w = 0 ∧ opField w = 6 ∧ aField w = 0 ∧ dField w = 0) ∧
    (∀ byte, decode w = .ok (.dec byte) ↔
      zField w = 0 ∧ opField w = 7 ∧ aField w = 0 ∧ (dField w).extractLsb' 8 24 = 0 ∧ (dField w).extractLsb' 0 8 = byte) ∧
    ∀ i, decode w = .ok i → encode i = w

/-- 30_encoding.md R73: a word spells the command of a row exactly when `(w AND mask) = match` and the further condition holds;
the rows are disjoint; a word of no row is illegal. -/
def Obligations.OpcodeMapDecidesTheCommand : Prop :=
  opcodeMap =
    [⟨0x000000000000#48, 0xFFFFFFFFFFFF#48, 511⟩, ⟨0x100000000000#48, 0xFFFFFFFFFFFF#48, 511⟩,
      ⟨0x200000000000#48, 0xFE0000000000#48, 256⟩, ⟨0x300000000000#48, 0xFFFFFFFFFFFF#48, 511⟩,
      ⟨0x400000000000#48, 0xFE00FFFFFFFF#48, 256⟩, ⟨0x500000000000#48, 0xFE0000000000#48, 32⟩,
      ⟨0x600000000000#48, 0xFFFFFFFFFFFF#48, 511⟩, ⟨0x700000000000#48, 0xFFFFFFFFFF00#48, 511⟩] ∧
  ∀ w : Word48,
    (∀ r ∈ opcodeMap, rowSpells r w = true ↔ ∃ i, decode w = .ok i ∧ opcodeRow i = r) ∧
    (∀ r ∈ opcodeMap, ∀ r' ∈ opcodeMap, rowSpells r w = true → rowSpells r' w = true → r = r') ∧
    ((∀ r ∈ opcodeMap, rowSpells r w = false) ↔ ∃ e, decode w = .error e)

/-- 30_encoding.md R74: the illegal words are exactly the seven classes; executing one records IllegalCommand and changes nothing
else. -/
def Obligations.IllegalWordsAreTheSevenClasses : Prop :=
  ∀ w : Word48,
    ((∃ e, decode w = .error e) ↔
      8 ≤ (opField w).toNat ∨
      zField w ≠ 0 ∨
      ((opField w = 0 ∨ opField w = 1 ∨ opField w = 3 ∨ opField w = 6) ∧ (aField w ≠ 0 ∨ dField w ≠ 0)) ∨
      ((opField w = 2 ∨ opField w = 4) ∧ 257 ≤ (aField w).toNat) ∨
      (opField w = 4 ∧ dField w ≠ 0) ∨
      (opField w = 5 ∧ 33 ≤ (aField w).toNat) ∨
      (opField w = 7 ∧ (aField w ≠ 0 ∨ (dField w).extractLsb' 8 24 ≠ 0))) ∧
    ∀ e s, decode w = .error e → s.fault = .none → accept w s = .next { s with fault := .illegalCommand, finfo := w }

/-- 30_encoding.md R77: the words of the syntax table, as numbers. -/
def Obligations.WordsAreTheSumsOfTheSyntaxTable : Prop :=
  (encode .nop).toNat = 0x000000000000 ∧ (encode .clear).toNat = 0x100000000000 ∧
    (∀ sym count, (encode (.push sym count)).toNat = 0x200000000000 + sym.toNat * 2 ^ 32 + count.toNat) ∧
    (encode .build).toNat = 0x300000000000 ∧
    (∀ sym, (encode (.enc sym)).toNat = 0x400000000000 + sym.toNat * 2 ^ 32) ∧
    (∀ len bits, (encode (.wbits len bits)).toNat = 0x500000000000 + len.toNat * 2 ^ 32 + bits.toNat) ∧
    (encode .wfin).toNat = 0x600000000000 ∧ ∀ byte, (encode (.dec byte)).toNat = 0x700000000000 + byte.toNat

/-- 95_test_vectors.md V-E-3, V-E-4, V-E-9, V-E-10, V-E-15: words written out digit by digit. -/
def Obligations.DecodeOfWrittenWords : Prop :=
  decode 0x000000000000#48 = .ok .nop ∧ decode 0x100000000000#48 = .ok .clear ∧
    decode 0x206100000003#48 = .ok (.push 97 3) ∧ decode 0x210000000001#48 = .ok (.push 256 1) ∧
    decode 0x300000000000#48 = .ok .build ∧ decode 0x410000000000#48 = .ok (.enc 256) ∧
    decode 0x500300000005#48 = .ok (.wbits 3 5) ∧ decode 0x600000000000#48 = .ok .wfin ∧
    decode 0x7000000000E2#48 = .ok (.dec 0xE2)

/-- 30_encoding.md R72, R76; 43_bit_writer.md R132 corner case b: `d[31:len]` has no effect on what WBITS appends. -/
def Obligations.WbitsIgnoresBitsAboveItsLength : Prop :=
  ∀ (len : BitVec 9) (bits bits' : BitVec 32) (s : State), len.toNat ≤ 32 →
    (∀ i < len.toNat, bits.getLsbD i = bits'.getLsbD i) → s.wfin = false →
    exec (.wbits len bits) s = exec (.wbits len bits') s

/-- 30_encoding.md R77, R78: the examples of the assembler syntax and the expansions of the pseudo-commands. -/
def Obligations.AssemblerExamples : Prop :=
  assembleLine ['P', 'U', 'S', 'H', ' ', '\'', 'a', '\'', ',', ' ', '3'] = some [0x206100000003#48] ∧
    assembleLine ['P', 'U', 'S', 'H', 'E', 'O', 'D', ' ', '1'] = some [0x210000000001#48] ∧
    assembleLine ['E', 'N', 'C', 'E', 'O', 'D'] = some [0x410000000000#48] ∧
    assembleLine ['W', 'B', 'I', 'T', 'S', ' ', '3', ',', ' ', '0', 'b', '1', '0', '1'] = some [0x500300000005#48] ∧
    assembleLine ['D', 'E', 'C', ' ', '0', 'x', 'E', '2'] = some [0x7000000000E2#48]

/-! ## The step -/

/-- 40_control.md R90: the one outcome of every word in every state: while faulted CLEAR executes and every other word is
discarded; else an illegal word raises IllegalCommand and a command executes. -/
def Obligations.AcceptedWordHasOneOutcome : Prop :=
  ∀ (w : Word48) (s : State),
    (s.fault ≠ .none → w = 0x100000000000#48 → accept w s = exec .clear s) ∧
    (s.fault ≠ .none → w ≠ 0x100000000000#48 → accept w s = .next s) ∧
    (∀ e, s.fault = .none → decode w = .error e → accept w s = .next { s with fault := .illegalCommand, finfo := w }) ∧
    ∀ i, s.fault = .none → decode w = .ok i → accept w s = exec i s

/-- 10_state.md R34, 40_control.md R90: the step accepts the next word the host presents; decoded to a command, it is executed.
Around `exec` the step only takes the word off the host's list. (That the coming words are a field of the state is the model's
choice, log entry 1.) -/
def Obligations.StepRunsTheDecodedCommand : Prop :=
  ∀ (s : State) (w : Word48) (rest : List HostEvent), s.port = .command w :: rest →
    step s = accept w { s with port := rest } ∧
    ∀ i, s.fault = .none → decode w = .ok i → step s = exec i { s with port := rest }

/-- 60_exceptions.md R176: while faulted every accepted word but exactly CLEAR is discarded, illegal ones among them; CLEAR
acts. -/
def Obligations.FaultedBlockDiscardsAllButClear : Prop :=
  ∀ (s : State) (w : Word48), s.fault ≠ .none →
    accept w s = if w = 0x100000000000#48 then .next { State.reset with wout := s.wout, rout := s.rout, port := s.port }
      else .next s

/-- 10_state.md R22, 60_exceptions.md R176, R177: the first fault stays until CLEAR or hardware reset. (The host's events are
the model's field, log entry 1.) -/
def Obligations.FirstFaultIsKept : Prop :=
  ∀ s t : State, s.fault ≠ .none → step s = .next t →
    (t.fault = s.fault ∧ t.finfo = s.finfo) ∨
    ∃ rest, (s.port = .command 0x100000000000#48 :: rest ∨ s.port = .resetPulse :: rest) ∧ t.fault = .none ∧ t.finfo = 0

/-- 60_exceptions.md R184: between commands the block is idle with its state held. (That an empty `port` is "between commands" is
the model's choice, log entry 1.) -/
def Obligations.IdleBlockHoldsItsState : Prop := ∀ s : State, s.port = [] → step s = .next s

/-- 70_reset_and_hazards.md R200, 60_exceptions.md R177: a pulse of `rst_n` gives the reset state. (That the host's later events
stay pending is the model's choice, log entry 1.) -/
def Obligations.HardwareResetGivesTheResetState : Prop :=
  ∀ (s : State) (rest : List HostEvent), s.port = .resetPulse :: rest → step s = .next { State.reset with port := rest }

/-- 10_state.md R39: the value of every piece of state after hardware reset, and after CLEAR. An entry of `NM`, `PQ` or `CT` that
is "unspecified, not read" is one that holds no value (R37). -/
def Obligations.ResetAndClearValues : Prop :=
  (State.reset.phase = .load ∧ State.reset.fault = .none ∧ State.reset.finfo = 0 ∧ State.reset.nleaf = 0 ∧
    State.reset.nnode = 0 ∧ State.reset.qlen = 0 ∧ (∀ i < 257, State.reset.seen.getLsbD i = false) ∧
    (∀ i, storeGet State.reset.nm i = none) ∧ State.reset.pq = [] ∧ State.reset.root = 0 ∧
    (∀ i, storeGet State.reset.ct i = none) ∧ State.reset.wacc = 0 ∧ State.reset.wnb = 0 ∧ State.reset.wfin = false ∧
    State.reset.rcur = 0 ∧ State.reset.rdone = false ∧ State.reset.wout = [] ∧ State.reset.rout = []) ∧
  ∀ s : State, ∃ t, exec .clear s = .next t ∧ t.phase = .load ∧ t.fault = .none ∧ t.finfo = 0 ∧ t.nleaf = 0 ∧ t.nnode = 0 ∧
    t.qlen = 0 ∧ (∀ i < 257, t.seen.getLsbD i = false) ∧ (∀ i, storeGet t.nm i = none) ∧ t.pq = [] ∧ t.root = 0 ∧
    (∀ i, storeGet t.ct i = none) ∧ t.wacc = 0 ∧ t.wnb = 0 ∧ t.wfin = false ∧ t.rcur = 0 ∧ t.rdone = false ∧
    t.wout = s.wout ∧ t.rout = s.rout

/-- 70_reset_and_hazards.md R201: CLEAR gives the reset values but for the two streams, in every state, faulted or not; nothing
else changes (the host's pending events are not the block's). -/
def Obligations.ClearIsResetButForTheStreams : Prop :=
  ∀ s : State, exec .clear s = .next { State.reset with wout := s.wout, rout := s.rout, port := s.port }

/-- 40_control.md R91: NOP writes nothing and raises no fault, in both phases; while faulted it is discarded, with the same
result. -/
def Obligations.NopChangesNothing : Prop := ∀ s : State, exec .nop s = .next s ∧ accept 0x000000000000#48 s = .next s

/-- 10_state.md R32: what each status output is and its reset value; 60_exceptions.md R171: the fault's code. -/
def Obligations.StatusOutputs : Prop :=
  (∀ s : State, s.status.stPhase = (if s.phase = .built then 1 else 0) ∧
    s.status.stFault = (match s.fault with
      | .none => 0 | .invalidInput => 1 | .illegalCommand => 2 | .badPhase => 3 | .duplicateSymbol => 4 | .symbolNotCoded => 5
      | .writeAfterFinal => 6 | .noMatch => 7) ∧
    s.status.stFinfo = s.finfo ∧ (s.status.faultO = true ↔ s.status.stFault ≠ 0) ∧ s.status.stNleaf = s.nleaf ∧
    s.status.stNnode = s.nnode ∧ s.status.stRoot = s.root ∧ s.status.stWnb = s.wnb ∧ s.status.stWfin = s.wfin ∧
    s.status.stRdone = s.rdone) ∧
  State.reset.status = ⟨0, 0, 0, false, 0, 0, 0, 0, false, false⟩

/-! ## PUSH and BUILD -/

/-- 41_tree_builder.md R102, R101: PUSH of an unseen symbol in LOAD writes its leaf at index `NNODE`, marks the symbol, counts the
leaf and the node, and puts the leaf after every queued node of count `<=` its own and before the first of greater count. -/
def Obligations.PushInsertsItsLeaf : Prop :=
  ∀ (s : State) (sym : Symbol) (count : Count32), Inv s → s.phase = .load → sym.toNat ≤ 256 →
    s.seen.getLsbD sym.toNat = false →
    ∃ t l1 l2, exec (.push sym count) s = .next t ∧ s.pq = l1 ++ l2 ∧ t.pq = l1 ++ s.nnode :: l2 ∧
      (∀ j ∈ l1, cntAt s.nm j.toNat ≤ count.toNat) ∧ (∀ j q, l2 = j :: q → count.toNat < cntAt s.nm j.toNat) ∧
      storeGet t.nm s.nnode.toNat = some (.leaf sym (count.setWidth 41)) ∧
      (∀ i, i ≠ s.nnode.toNat → storeGet t.nm i = storeGet s.nm i) ∧
      (∀ i < 257, t.seen.getLsbD i = (s.seen.getLsbD i || decide (i = sym.toNat))) ∧
      t.nleaf.toNat = s.nleaf.toNat + 1 ∧ t.nnode.toNat = s.nnode.toNat + 1 ∧
      t = { s with nm := t.nm, seen := t.seen, nleaf := t.nleaf, nnode := t.nnode, pq := t.pq }

/-- 41_tree_builder.md R102: the checks of PUSH, BadPhase before DuplicateSymbol; a faulting PUSH changes nothing else. -/
def Obligations.PushChecksPhaseThenDuplicate : Prop :=
  ∀ (s : State) (sym : Symbol) (count : Count32), sym.toNat ≤ 256 →
    (s.phase = .built → exec (.push sym count) s = .next { s with fault := .badPhase, finfo := encode (.push sym count) }) ∧
    (s.phase = .load → s.seen.getLsbD sym.toNat = true →
      exec (.push sym count) s = .next { s with fault := .duplicateSymbol, finfo := encode (.push sym count) })

/-- What PUSH leaves unchanged, in every state (41_tree_builder.md R102 "State written"). -/
def Obligations.PushFrame : Prop :=
  ∀ (s t : State) (sym : Symbol) (count : Count32), exec (.push sym count) s = .next t →
    t.phase = s.phase ∧ t.root = s.root ∧ t.ct = s.ct ∧ t.wacc = s.wacc ∧ t.wnb = s.wnb ∧ t.wfin = s.wfin ∧ t.rcur = s.rcur ∧
      t.rdone = s.rdone ∧ t.wout = s.wout ∧ t.rout = s.rout ∧ t.port = s.port ∧
      (∀ i, i ≠ s.nnode.toNat → storeGet t.nm i = storeGet s.nm i) ∧
      (∀ i < 257, i ≠ sym.toNat → t.seen.getLsbD i = s.seen.getLsbD i)

/-- 41_tree_builder.md R104, R107 items 1 to 3 (the spec's own inference, "[derived: from rule R102, rule R103, rule R104]"): BUILD of a table of one leaf or more completes with the tree: the root is the last
node queued, there are `2 NLEAF - 1` nodes, the leaves stay where PUSH put them, every internal node has two children of smaller
index and the sum of their counts, and the root's count is the sum of all counts pushed. -/
def Obligations.BuildMakesTheTree : Prop :=
  ∀ s : State, Inv s → s.phase = .load → s.nleaf ≠ 0 →
    ∃ t, exec .build s = .next t ∧ t.phase = .built ∧ t.pq = [t.root] ∧ t.rcur = t.root ∧
      t.root.toNat + 2 = 2 * s.nleaf.toNat ∧ t.nnode.toNat + 1 = 2 * s.nleaf.toNat ∧
      (∀ i < s.nleaf.toNat, storeGet t.nm i = storeGet s.nm i) ∧
      (∀ i, s.nleaf.toNat ≤ i → i < t.nnode.toNat → ∃ c l r, storeGet t.nm i = some (.inner c l r) ∧ l.toNat < i ∧ r.toNat < i ∧
        c.toNat = cntAt t.nm l.toNat + cntAt t.nm r.toNat) ∧
      cntAt t.nm t.root.toNat = leafTotal s.nm s.nleaf.toNat ∧
      (∀ sym : Symbol, sym.toNat ≤ 256 → (codeValid sym t = s.seen.getLsbD sym.toNat)) ∧
      t = { s with phase := .built, nm := t.nm, nnode := t.nnode, pq := t.pq, root := t.root, ct := t.ct, rcur := t.rcur }

/-- 41_tree_builder.md R104, R103, R100, R101, D6, D7: BUILD runs `NLEAF - 1` merges, `st n` being the state before merge `n`; each
takes the two nodes first in the queue's order, the first as the left child, the second as the right, and puts its node back
behind its equals, leaves or internal nodes; the tree is what the last merge leaves, its root the one node still queued. -/
def Obligations.EveryMergeTakesTheTwoLowest : Prop :=
  ∀ s : State, Inv s → s.phase = .load → s.nleaf ≠ 0 →
    ∃ (st : Nat → State) (t : State), exec .build s = .next t ∧ st 0 = s ∧
      (∀ n, n + 1 < s.nleaf.toNat → MergeOf (st n) (st (n + 1))) ∧
      (st (s.nleaf.toNat - 1)).pq = [t.root] ∧ t.nm = (st (s.nleaf.toNat - 1)).nm ∧
      t.nnode = (st (s.nleaf.toNat - 1)).nnode

/-- 41_tree_builder.md R107 item 4, which the spec takes from general knowledge and says follows from R103: BUILD creates the
internal nodes in non-decreasing order of count. -/
def Obligations.InternalNodesInOrderOfCount : Prop :=
  ∀ s : State, Inv s → s.phase = .load → s.nleaf ≠ 0 →
    ∃ t, exec .build s = .next t ∧ ∀ i, s.nleaf.toNat ≤ i → i + 1 < t.nnode.toNat → cntAt t.nm i ≤ cntAt t.nm (i + 1)

/-- 41_tree_builder.md R104, R106: the checks of BUILD, BadPhase before InvalidInput; a faulting BUILD changes nothing else. -/
def Obligations.BuildChecksPhaseThenEmptyTable : Prop :=
  ∀ s : State,
    (s.phase = .built → exec .build s = .next { s with fault := .badPhase, finfo := 0x300000000000#48 }) ∧
    (s.phase = .load → s.nleaf = 0 → exec .build s = .next { s with fault := .invalidInput, finfo := 0x300000000000#48 })

/-- What BUILD leaves unchanged, in every state (41_tree_builder.md R104 "State written"): no node already allocated is written,
nothing is emitted. -/
def Obligations.BuildFrame : Prop :=
  ∀ s t : State, exec .build s = .next t →
    t.nleaf = s.nleaf ∧ t.seen = s.seen ∧ t.wacc = s.wacc ∧ t.wnb = s.wnb ∧ t.wfin = s.wfin ∧ t.rdone = s.rdone ∧
      t.wout = s.wout ∧ t.rout = s.rout ∧ t.port = s.port ∧
      (∀ i < s.nnode.toNat, storeGet t.nm i = storeGet s.nm i)

/-- 41_tree_builder.md R105, 42_code_table.md R121: a table of one entry builds the tree that is its leaf, and the leaf's symbol
gets the one-bit code "0". -/
def Obligations.SingleEntryGetsTheCodeZero : Prop :=
  ∀ s : State, Inv s → s.phase = .load → s.nleaf = 1 →
    ∃ t sym c, exec .build s = .next t ∧ t.root = 0 ∧ t.nnode = 1 ∧ t.pq = [0] ∧ storeGet t.nm 0 = some (.leaf sym c) ∧
      lookupCode sym t = .ok (some [false])

/-! ## The code table -/

/-- 42_code_table.md R126, an inference the spec marks as its own ("[derived: from rule R120 and rule R123]"): the code table and
the trie are inverse in a built state, and no accepted word but CLEAR changes either. -/
def Obligations.TableAndTrieAreInverse : Prop :=
  ∀ s : State, Inv s → s.phase = .built →
    (∀ (sym : Symbol) (p : Path), lookupCode sym s = .ok (some p) ↔ sym.toNat ≤ 256 ∧ trieSymbol s.nm s.root p = some sym) ∧
    ∀ (w : Word48) (t : State), accept w s = .next t → w ≠ 0x100000000000#48 → t.ct = s.ct ∧ t.nm = s.nm ∧ t.root = s.root

/-- 42_code_table.md R124, an inference the spec marks as its own ("[derived: from rule R120 and 10_state.md rule R25]"): no code
is a beginning of another. -/
def Obligations.NoCodeBeginsAnother : Prop :=
  ∀ (s : State) (sym sym' : Symbol) (p p' : Path), Inv s → s.phase = .built → sym ≠ sym' →
    lookupCode sym s = .ok (some p) → lookupCode sym' s = .ok (some p') → ¬ p <+: p'

/-- 42_code_table.md R125, in its parts the spec's own inference ("[derived: a binary tree ...]"): the length of a code, and completeness: with two leaves or more every bit sequence of `NLEAF - 1` bits
or more begins with exactly one code. -/
def Obligations.CodeLengthsAndCompleteness : Prop :=
  ∀ s : State, Inv s → s.phase = .built →
    (∀ (sym : Symbol) (p : Path), lookupCode sym s = .ok (some p) →
      1 ≤ p.length ∧ p.length ≤ 256 ∧ (s.nleaf = 1 → p.length = 1) ∧ (s.nleaf ≠ 1 → p.length ≤ s.nleaf.toNat - 1)) ∧
    (s.nleaf ≠ 1 → ∀ bs : List Bool, s.nleaf.toNat - 1 ≤ bs.length → ∃ sym p, lookupCode sym s = .ok (some p) ∧ p <+: bs ∧
      ∀ sym' p', lookupCode sym' s = .ok (some p') → p' <+: bs → sym' = sym)

/-- 10_state.md R38 item 6, 41_tree_builder.md R107 item 2, both marked "[derived: ...]" by the spec: in a built state the nodes reached from the root are exactly the
allocated ones, each by exactly one path. -/
def Obligations.EveryNodeIsReachedByOnePath : Prop :=
  ∀ s : State, Inv s → s.phase = .built →
    ∀ k : NodeIdx, (k.toNat < s.nnode.toNat → ∃ p, walkFrom s.nm s.root p = some k ∧ ∀ q, walkFrom s.nm s.root q = some k → q = p) ∧
      (s.nnode.toNat ≤ k.toNat → ∀ p, walkFrom s.nm s.root p ≠ some k)

/-! ## The writer -/

/-- 43_bit_writer.md R131, R130: ENC of a coded symbol appends its code, step 0 first, after the bits held. -/
def Obligations.EncAppendsTheCode : Prop :=
  ∀ (s : State) (sym : Symbol) (p : Path) (c : List Bool), s.phase = .built → s.wfin = false →
    lookupCode sym s = .ok (some p) → Holds c s →
    ∃ t, exec (.enc sym) s = .next t ∧ t.wout = s.wout ++ wholeBytes (c ++ p) ∧ Holds (restBits (c ++ p)) t ∧
      t = { s with wacc := t.wacc, wnb := t.wnb, wout := t.wout }

/-- 43_bit_writer.md R131: the checks of ENC in order; a faulting ENC appends nothing and changes nothing else. -/
def Obligations.EncChecksInOrder : Prop :=
  ∀ (s : State) (sym : Symbol), sym.toNat ≤ 256 →
    (s.phase = .load → exec (.enc sym) s = .next { s with fault := .badPhase, finfo := encode (.enc sym) }) ∧
    (s.phase = .built → s.wfin = true →
      exec (.enc sym) s = .next { s with fault := .writeAfterFinal, finfo := encode (.enc sym) }) ∧
    (s.phase = .built → s.wfin = false → codeValid sym s = false →
      exec (.enc sym) s = .next { s with fault := .symbolNotCoded, finfo := encode (.enc sym) })

/-- 43_bit_writer.md R132, R130: WBITS appends `bits[len-1]` down to `bits[0]` after the bits held, in both phases. -/
def Obligations.WbitsAppendsItsPath : Prop :=
  ∀ (s : State) (len : BitVec 9) (bits : BitVec 32) (c p : List Bool), s.wfin = false → len.toNat ≤ 32 → Holds c s →
    p.length = len.toNat → (∀ i < len.toNat, p.getD i false = bits.getLsbD (len.toNat - 1 - i)) →
    ∃ t, exec (.wbits len bits) s = .next t ∧ t.wout = s.wout ++ wholeBytes (c ++ p) ∧ Holds (restBits (c ++ p)) t ∧
      t = { s with wacc := t.wacc, wnb := t.wnb, wout := t.wout }

/-- 43_bit_writer.md R133: WFIN emits the held bits padded with zeros, if there are any, and sets the flag; with `WFIN = 1` it
raises WriteAfterFinal. -/
def Obligations.WfinFlushesThePartialByte : Prop :=
  ∀ (s : State) (c : List Bool), Holds c s →
    (s.wfin = false → exec .wfin s = .next { s with
      wout := s.wout ++ (if c = [] then [] else [byteOf c]), wacc := 0, wnb := 0, wfin := true }) ∧
    (s.wfin = true → exec .wfin s = .next { s with fault := .writeAfterFinal, finfo := 0x600000000000#48 })

/-- 43_bit_writer.md R134: after finalisation every writer command raises WriteAfterFinal and appends nothing; only CLEAR (or
reset) clears the flag; PUSH, BUILD and DEC do not depend on it. -/
def Obligations.NoWriteAfterFinalisation : Prop :=
  ∀ s : State, s.wfin = true →
    (∀ len bits, exec (.wbits len bits) s = .next { s with fault := .writeAfterFinal, finfo := encode (.wbits len bits) }) ∧
    exec .wfin s = .next { s with fault := .writeAfterFinal, finfo := encode .wfin } ∧
    (s.phase = .built → ∀ sym, exec (.enc sym) s = .next { s with fault := .writeAfterFinal, finfo := encode (.enc sym) }) ∧
    (∀ e rest t, s.port = e :: rest → step s = .next t →
      t.wfin = true ∨ e = .command 0x100000000000#48 ∨ e = .resetPulse) ∧
    ∀ i t, (∃ sym count, i = .push sym count) ∨ i = .build ∨ (∃ byte, i = .dec byte) → exec i s = .next t →
      exec i { s with wfin := false } = .next { t with wfin := false }

/-- What ENC, WBITS and WFIN leave unchanged, in every state (43_bit_writer.md R131 to R133 "State written"): the tree, the table,
the queue, the reader, all of `NM` and `CT`. -/
def Obligations.WriterFrame : Prop :=
  ∀ (s t : State) (i : Instr), (∃ sym, i = .enc sym) ∨ (∃ len bits, i = .wbits len bits) ∨ i = .wfin → exec i s = .next t →
    t.phase = s.phase ∧ t.nleaf = s.nleaf ∧ t.nnode = s.nnode ∧ t.seen = s.seen ∧ t.nm = s.nm ∧ t.pq = s.pq ∧ t.root = s.root ∧
      t.ct = s.ct ∧ t.rcur = s.rcur ∧ t.rdone = s.rdone ∧ t.rout = s.rout ∧ t.port = s.port ∧
      (i ≠ .wfin → t.wfin = s.wfin)

/-- 43_bit_writer.md R135, an inference the spec marks as its own ("[derived: from rule R130, rule R131, rule R132, rule R133, by
induction on `L`]"): the packing law, from any state of a run in which the writer holds the bits `c` (none after a reset or
CLEAR): before WFIN, and after it, whatever commands `js` follow it. -/
def Obligations.PackingLaw : Prop :=
  ∀ (is js : List Instr) (s t : State) (c : List Bool), Holds c s → s.wfin = false → s.fault = .none →
    (∀ i ∈ is ++ js, WellFormed i ∧ i ≠ .clear) → .wfin ∉ is →
    (runCommands is s = .next t → t.fault = .none →
      t.wout = s.wout ++ wholeBytes (c ++ appendedPath is s) ∧ Holds (restBits (c ++ appendedPath is s)) t) ∧
    (runCommands (is ++ .wfin :: js) s = .next t → t.fault = .none →
      t.wout = s.wout ++ paddedBytes (c ++ appendedPath is s) ∧ t.wacc = 0 ∧ t.wnb = 0 ∧ t.wfin = true)

/-- 43_bit_writer.md R136, an inference the spec marks as its own ("[derived: from rule R135]"): how a bit sequence is cut into commands leaves no trace in the writer. -/
def Obligations.WriterKeepsNoRecordOfCuts : Prop :=
  ∀ (is js : List Instr) (s t u : State), WriterOk s → s.wfin = false → s.fault = .none →
    (∀ i ∈ is ++ js, WellFormed i ∧ i ≠ .clear ∧ i ≠ .wfin) →
    runCommands is s = .next t → runCommands js s = .next u → t.fault = .none → u.fault = .none →
    appendedPath is s = appendedPath js s → t.wacc = u.wacc ∧ t.wnb = u.wnb ∧ t.wout = u.wout

/-! ## The reader -/

/-- 44_bit_reader.md R151, R150, R155: DEC in BUILT completes and decodes the byte's bits, most significant first, as the
candidate-path decoder does. The fourth premise leaves out just the bytes that come to a NoMatch, which only a tree of one leaf
can (`NoMatchIsPrecise` is about those). -/
def Obligations.DecDecodesTheByte : Prop :=
  ∀ (s : State) (byte : Byte) (cand : Path), Inv s → s.phase = .built → s.fault = .none →
    (s.nleaf ≠ 1 ∨ s.rdone = true ∨ byte = 0 ∨ (leafSymAt s.nm s.root.toNat = some 256 ∧ byte.getLsbD 7 = false)) →
    walkFrom s.nm s.root cand = some s.rcur →
    ∃ t, exec (.dec byte) s = .next t ∧
      t.rout = s.rout ++ (refBits s.ct ((List.range 8).map fun i => byte.getLsbD (7 - i)) ⟨cand, [], s.rdone⟩).out ∧
      t.rdone = (refBits s.ct ((List.range 8).map fun i => byte.getLsbD (7 - i)) ⟨cand, [], s.rdone⟩).done ∧
      walkFrom t.nm t.root (refBits s.ct ((List.range 8).map fun i => byte.getLsbD (7 - i)) ⟨cand, [], s.rdone⟩).cand = some t.rcur ∧
      t = { s with rcur := t.rcur, rdone := t.rdone, rout := t.rout }

/-- 44_bit_reader.md R155, an inference the spec marks as its own ("[derived: from rule R150, ...]"): as long as no fault is raised, the block and the reference decoder emit the same symbols and stop at the
same bit, after any number of bits, and `RCUR` is the node the candidate path leads to. -/
def Obligations.CandidatePathEquivalence : Prop :=
  ∀ (s t : State) (w : Word48) (bs : List Bool) (cand : Path), Inv s → s.phase = .built → s.fault = .none →
    walkFrom s.nm s.root cand = some s.rcur → readBits w bs s = .ok t → t.fault = .none →
    t.rout = s.rout ++ (refBits s.ct bs ⟨cand, [], s.rdone⟩).out ∧ t.rdone = (refBits s.ct bs ⟨cand, [], s.rdone⟩).done ∧
      walkFrom s.nm s.root (refBits s.ct bs ⟨cand, [], s.rdone⟩).cand = some t.rcur

/-- 44_bit_reader.md R151: DEC in LOAD raises BadPhase and changes nothing else. -/
def Obligations.DecChecksThePhase : Prop :=
  ∀ (s : State) (byte : Byte), s.phase = .load →
    exec (.dec byte) s = .next { s with fault := .badPhase, finfo := encode (.dec byte) }

/-- 44_bit_reader.md R153: after the end a DEC changes nothing, whatever the byte. -/
def Obligations.DecAfterTheEndDoesNothing : Prop :=
  ∀ (s : State) (byte : Byte), s.phase = .built → s.rdone = true → exec (.dec byte) s = .next s

/-- 44_bit_reader.md R152: when the code of EOD is read the rest of the byte is discarded and nothing is emitted for it. -/
def Obligations.EodTerminatesDecoding : Prop :=
  ∀ (s : State) (byte : Byte) (p rest : List Bool), Inv s → s.phase = .built → s.rdone = false → s.rcur = s.root →
    lookupCode 256 s = .ok (some p) → byteBits byte = p ++ rest → exec (.dec byte) s = .next { s with rdone := true }

/-- 44_bit_reader.md R154: NoMatch at the first 1 bit in a tree of one leaf; the bits above it stand, the others have no effect;
with two leaves or more DEC raises no fault. -/
def Obligations.NoMatchIsPrecise : Prop :=
  ∀ (s : State) (byte : Byte), Inv s → s.phase = .built →
    (∀ (sym : Symbol) (c : Count) (k : Nat) (rest : List Bool), s.nleaf = 1 → s.rdone = false →
      storeGet s.nm s.root.toNat = some (.leaf sym c) → byteBits byte = List.replicate k false ++ true :: rest →
      (sym ≠ 256 ∨ k = 0) →
      exec (.dec byte) s = .next { s with
        rout := s.rout ++ List.replicate k (sym.setWidth 8), rcur := s.root, rdone := false, fault := .noMatch,
        finfo := encode (.dec byte) }) ∧
    (s.nleaf ≠ 1 → ∀ t, exec (.dec byte) s = .next t → t.fault = s.fault ∧ t.finfo = s.finfo)

/-- What DEC leaves unchanged, in every state (44_bit_reader.md R151 "State written"): the writer, the tree, all of `NM` and
`CT`. -/
def Obligations.DecFrame : Prop :=
  ∀ (s t : State) (byte : Byte), exec (.dec byte) s = .next t →
    t.phase = s.phase ∧ t.nleaf = s.nleaf ∧ t.nnode = s.nnode ∧ t.seen = s.seen ∧ t.nm = s.nm ∧ t.pq = s.pq ∧ t.root = s.root ∧
      t.ct = s.ct ∧ t.wacc = s.wacc ∧ t.wnb = s.wnb ∧ t.wfin = s.wfin ∧ t.wout = s.wout ∧ t.port = s.port

/-- 44_bit_reader.md R157 (the spec's own inference) for one built state: with nothing held by the writer, the commands ENC of every byte of `B`, ENC EOD,
WFIN raise no fault and append bytes `W`; in any built state `v` with the same tree whose reader stands at the root before its
end, DEC of every byte of `W` raises no fault, appends exactly `B` and ends with `RDONE = 1`, and DEC of all of `W` but its last
byte does not. -/
def Obligations.RoundTripFromABuiltState : Prop :=
  ∀ (s : State) (B : List Byte), Inv s → s.phase = .built → s.fault = .none → s.wfin = false → s.wnb = 0 →
    s.seen.getLsbD 256 = true → (∀ b ∈ B, s.seen.getLsbD b.toNat = true) →
    ∃ W, runCommands (encodeCommands B) s = .next { s with wacc := 0, wnb := 0, wfin := true, wout := s.wout ++ W } ∧
      ∀ v : State, Inv v → v.phase = .built → v.fault = .none → v.nm = s.nm → v.root = s.root → v.rdone = false →
        v.rcur = v.root →
        runCommands (W.map .dec) v = .next { v with rdone := true, rout := v.rout ++ B } ∧
        ∃ u, runCommands (W.dropLast.map .dec) v = .next u ∧ u.rdone = false

/-- 44_bit_reader.md R157, an inference the spec marks as its own ("[derived: from rule R155 of this file, ...]"): the round-trip
law, in any two states: a run that pushes a table with EOD and every byte value of `B`,
builds and encodes `B`, EOD and finalises completes; decoding the bytes it appends, in that run or in another with the same
table, completes and appends exactly `B`, EOD being matched inside the last byte. -/
def Obligations.RoundTripLaw : Prop :=
  ∀ (pairs : List (Symbol × Count32)) (B : List Byte) (s s' : State), (∀ e ∈ pairs, e.1.toNat ≤ 256) →
    (pairs.map Prod.fst).Nodup → 256 ∈ pairs.map Prod.fst → (∀ b ∈ B, b.setWidth 9 ∈ pairs.map Prod.fst) →
    ∃ t W, runCommands (tableCommands pairs ++ encodeCommands B) s = .next t ∧ EncodeRunComplete t ∧ t.wout = s.wout ++ W ∧
      (∃ u, runCommands (W.map .dec) t = .next u ∧ DecodeRunComplete u ∧ u.rout = t.rout ++ B) ∧
      (∃ u, runCommands (tableCommands pairs ++ W.map .dec) s' = .next u ∧ DecodeRunComplete u ∧ u.rout = s'.rout ++ B) ∧
      ∃ u, runCommands (tableCommands pairs ++ W.dropLast.map .dec) s' = .next u ∧ u.rdone = false

/-! ## Faults and whole-machine rules -/

/-- 60_exceptions.md R172, an inference the spec marks as its own ("[derived: from the command rules in files 40 to 44]"): no command raises a fault that is not in its row. -/
def Obligations.FaultsOfEachCommand : Prop :=
  ∀ (i : Instr) (s t : State), exec i s = .next t → s.fault = .none → t.fault = .none ∨ t.fault ∈ faultsOf i

/-- 60_exceptions.md R171, 44_bit_reader.md R152, R154: the condition of each fault, and the information recorded. NoMatch comes
from the first 1 bit of a DEC byte on a tree of one leaf; where the leaf is EOD, a 0 in bit 7 ends decoding before it. -/
def Obligations.FaultConditions : Prop :=
  ∀ (i : Instr) (s t : State), Inv s → WellFormed i → exec i s = .next t → s.fault = .none →
    (t.fault = .invalidInput ↔ i = .build ∧ s.phase = .load ∧ s.nleaf = 0) ∧
    (t.fault = .badPhase ↔ s.phase = .built ∧ ((∃ sym count, i = .push sym count) ∨ i = .build) ∨
      s.phase = .load ∧ ((∃ sym, i = .enc sym) ∨ ∃ byte, i = .dec byte)) ∧
    (t.fault = .duplicateSymbol ↔ ∃ sym count, i = .push sym count ∧ s.phase = .load ∧ s.seen.getLsbD sym.toNat = true) ∧
    (t.fault = .symbolNotCoded ↔ ∃ sym, i = .enc sym ∧ s.phase = .built ∧ s.wfin = false ∧ codeValid sym s = false) ∧
    (t.fault = .writeAfterFinal ↔ s.wfin = true ∧
      ((∃ sym, i = .enc sym ∧ s.phase = .built) ∨ (∃ len bits, i = .wbits len bits) ∨ i = .wfin)) ∧
    (t.fault = .noMatch ↔ ∃ byte sym, i = .dec byte ∧ s.phase = .built ∧ s.nleaf = 1 ∧ s.rdone = false ∧
      leafSymAt s.nm s.root.toNat = some sym ∧ (if sym = 256 then byte.getLsbD 7 = true else byte ≠ 0)) ∧
    t.fault ≠ .illegalCommand ∧ (t.fault ≠ .none → t.finfo = encode i)

/-- 60_exceptions.md R175: every fault but NoMatch is raised before any effect; after NoMatch the tree, the table and the writer
are as before. -/
def Obligations.FaultsArePrecise : Prop :=
  ∀ (i : Instr) (s t : State), exec i s = .next t → s.fault = .none → t.fault ≠ .none →
    (t.fault ≠ .noMatch → t = { s with fault := t.fault, finfo := encode i }) ∧
    (t.fault = .noMatch → t = { s with fault := .noMatch, finfo := encode i, rcur := t.rcur, rdone := t.rdone, rout := t.rout } ∧
      t.rdone = false)

/-- 10_state.md R21: the legal phases of the commands, and the only writes of `PHASE`. -/
def Obligations.PhaseRules : Prop :=
  ∀ (i : Instr) (s t : State), exec i s = .next t → s.fault = .none →
    (t.fault = .badPhase ↔ s.phase = .built ∧ ((∃ sym count, i = .push sym count) ∨ i = .build) ∨
      s.phase = .load ∧ ((∃ sym, i = .enc sym) ∨ ∃ byte, i = .dec byte)) ∧
    (s.phase = .load → t.phase = .built → i = .build) ∧ (s.phase = .built → t.phase = .load → i = .clear)

/-- 10_state.md R31: nothing removes or changes an element of a stream but hardware reset. -/
def Obligations.StreamsOnlyGrow : Prop :=
  ∀ s t : State, step s = .next t → (∀ rest, s.port ≠ .resetPulse :: rest) → s.wout <+: t.wout ∧ s.rout <+: t.rout

/-- 70_reset_and_hazards.md R207, an inference the spec marks as its own ("[derived: from the command rules and 10_state.md rule
R38]"): the most bytes a command emits. -/
def Obligations.EmittedBytesAreBounded : Prop :=
  ∀ (i : Instr) (s t : State), Inv s → WellFormed i → exec i s = .next t →
    t.wout.length ≤ s.wout.length + (match i with | .enc _ => 32 | .wbits _ _ => 4 | .wfin => 1 | _ => 0) ∧
    t.rout.length ≤ s.rout.length + (match i with | .dec _ => 8 | _ => 0)

/-- 00_scope.md R10, 41_tree_builder.md R108, 70_reset_and_hazards.md R201: what a run does is a function of its words alone: from
any two states, CLEAR and the same words leave the same state and append the same bytes to the streams. -/
def Obligations.RunDependsOnItsWordsOnly : Prop :=
  ∀ (ws : List Word48) (s s' t : State), runWords (0x100000000000#48 :: ws) s = .next t →
    ∃ t', runWords (0x100000000000#48 :: ws) s' = .next t' ∧
      t' = { t with wout := t'.wout, rout := t'.rout, port := t'.port } ∧
      ∃ x y, t.wout = s.wout ++ x ∧ t'.wout = s'.wout ++ x ∧ t.rout = s.rout ++ y ∧ t'.rout = s'.rout ++ y

/-! ## Invariants -/

/-- 10_state.md R38 (items the spec marks "[derived: from the command rules named with each]"), R39: the invariant holds in the
reset state. -/
def Obligations.InvariantHoldsAtReset : Prop := Inv State.reset

/-- 10_state.md R38 ("a model should prove them as preserved by every step"; the items are marked "[derived: ...]"): every step
keeps the invariant. -/
def Obligations.EveryStepKeepsTheInvariant : Prop := ∀ s t : State, Inv s → step s = .next t → Inv t

/-- 00_scope.md R6, 40_control.md R90: the step is total: from a state that meets the invariant, whatever the host does next, the
model reaches a next state and none of its own stops. -/
def Obligations.EveryStepAnswersANextState : Prop := ∀ s : State, Inv s → ∃ t, step s = .next t

/-- The canonical form of the two stores is kept by every step, in every state (the model's own invariant, log entry 2). -/
def Obligations.StoresStayCanonical : Prop := ∀ s t : State, StoresWf s → step s = .next t → StoresWf t
end

