-- ==== Sys2Proof/Laws/State.lean ====
section
/-! SUPPORT. What each update of the state does to each field, so that no proof unfolds a record update. -/

namespace Sys2Proof.Machine

/-! `raiseFault` -/

@[simp] theorem raiseFault_phase (code : FaultCode) (w : Word48) (s : State) : (raiseFault code w s).phase = s.phase := rfl
@[simp] theorem raiseFault_fault (code : FaultCode) (w : Word48) (s : State) : (raiseFault code w s).fault = code := rfl
@[simp] theorem raiseFault_finfo (code : FaultCode) (w : Word48) (s : State) : (raiseFault code w s).finfo = w := rfl
@[simp] theorem raiseFault_nleaf (code : FaultCode) (w : Word48) (s : State) : (raiseFault code w s).nleaf = s.nleaf := rfl
@[simp] theorem raiseFault_nnode (code : FaultCode) (w : Word48) (s : State) : (raiseFault code w s).nnode = s.nnode := rfl
@[simp] theorem raiseFault_seen (code : FaultCode) (w : Word48) (s : State) : (raiseFault code w s).seen = s.seen := rfl
@[simp] theorem raiseFault_nm (code : FaultCode) (w : Word48) (s : State) : (raiseFault code w s).nm = s.nm := rfl
@[simp] theorem raiseFault_pq (code : FaultCode) (w : Word48) (s : State) : (raiseFault code w s).pq = s.pq := rfl
@[simp] theorem raiseFault_root (code : FaultCode) (w : Word48) (s : State) : (raiseFault code w s).root = s.root := rfl
@[simp] theorem raiseFault_ct (code : FaultCode) (w : Word48) (s : State) : (raiseFault code w s).ct = s.ct := rfl
@[simp] theorem raiseFault_wacc (code : FaultCode) (w : Word48) (s : State) : (raiseFault code w s).wacc = s.wacc := rfl
@[simp] theorem raiseFault_wnb (code : FaultCode) (w : Word48) (s : State) : (raiseFault code w s).wnb = s.wnb := rfl
@[simp] theorem raiseFault_wfin (code : FaultCode) (w : Word48) (s : State) : (raiseFault code w s).wfin = s.wfin := rfl
@[simp] theorem raiseFault_rcur (code : FaultCode) (w : Word48) (s : State) : (raiseFault code w s).rcur = s.rcur := rfl
@[simp] theorem raiseFault_rdone (code : FaultCode) (w : Word48) (s : State) : (raiseFault code w s).rdone = s.rdone := rfl
@[simp] theorem raiseFault_wout (code : FaultCode) (w : Word48) (s : State) : (raiseFault code w s).wout = s.wout := rfl
@[simp] theorem raiseFault_rout (code : FaultCode) (w : Word48) (s : State) : (raiseFault code w s).rout = s.rout := rfl
@[simp] theorem raiseFault_port (code : FaultCode) (w : Word48) (s : State) : (raiseFault code w s).port = s.port := rfl

/-! `setPort` -/

@[simp] theorem setPort_phase (rest : List HostEvent) (s : State) : (setPort rest s).phase = s.phase := rfl
@[simp] theorem setPort_fault (rest : List HostEvent) (s : State) : (setPort rest s).fault = s.fault := rfl
@[simp] theorem setPort_finfo (rest : List HostEvent) (s : State) : (setPort rest s).finfo = s.finfo := rfl
@[simp] theorem setPort_nleaf (rest : List HostEvent) (s : State) : (setPort rest s).nleaf = s.nleaf := rfl
@[simp] theorem setPort_nnode (rest : List HostEvent) (s : State) : (setPort rest s).nnode = s.nnode := rfl
@[simp] theorem setPort_seen (rest : List HostEvent) (s : State) : (setPort rest s).seen = s.seen := rfl
@[simp] theorem setPort_nm (rest : List HostEvent) (s : State) : (setPort rest s).nm = s.nm := rfl
@[simp] theorem setPort_pq (rest : List HostEvent) (s : State) : (setPort rest s).pq = s.pq := rfl
@[simp] theorem setPort_root (rest : List HostEvent) (s : State) : (setPort rest s).root = s.root := rfl
@[simp] theorem setPort_ct (rest : List HostEvent) (s : State) : (setPort rest s).ct = s.ct := rfl
@[simp] theorem setPort_wacc (rest : List HostEvent) (s : State) : (setPort rest s).wacc = s.wacc := rfl
@[simp] theorem setPort_wnb (rest : List HostEvent) (s : State) : (setPort rest s).wnb = s.wnb := rfl
@[simp] theorem setPort_wfin (rest : List HostEvent) (s : State) : (setPort rest s).wfin = s.wfin := rfl
@[simp] theorem setPort_rcur (rest : List HostEvent) (s : State) : (setPort rest s).rcur = s.rcur := rfl
@[simp] theorem setPort_rdone (rest : List HostEvent) (s : State) : (setPort rest s).rdone = s.rdone := rfl
@[simp] theorem setPort_wout (rest : List HostEvent) (s : State) : (setPort rest s).wout = s.wout := rfl
@[simp] theorem setPort_rout (rest : List HostEvent) (s : State) : (setPort rest s).rout = s.rout := rfl
@[simp] theorem setPort_port (rest : List HostEvent) (s : State) : (setPort rest s).port = rest := rfl

/-! `putNode` -/

@[simp] theorem putNode_phase (n : Node) (s : State) : (putNode n s).phase = s.phase := rfl
@[simp] theorem putNode_fault (n : Node) (s : State) : (putNode n s).fault = s.fault := rfl
@[simp] theorem putNode_finfo (n : Node) (s : State) : (putNode n s).finfo = s.finfo := rfl
@[simp] theorem putNode_nleaf (n : Node) (s : State) : (putNode n s).nleaf = s.nleaf := rfl
@[simp] theorem putNode_nnode (n : Node) (s : State) : (putNode n s).nnode = s.nnode + 1 := rfl
@[simp] theorem putNode_seen (n : Node) (s : State) : (putNode n s).seen = s.seen := rfl
@[simp] theorem putNode_nm (n : Node) (s : State) : (putNode n s).nm = storePut s.nm s.nnode.toNat n := rfl
@[simp] theorem putNode_pq (n : Node) (s : State) : (putNode n s).pq = s.pq := rfl
@[simp] theorem putNode_root (n : Node) (s : State) : (putNode n s).root = s.root := rfl
@[simp] theorem putNode_ct (n : Node) (s : State) : (putNode n s).ct = s.ct := rfl
@[simp] theorem putNode_wacc (n : Node) (s : State) : (putNode n s).wacc = s.wacc := rfl
@[simp] theorem putNode_wnb (n : Node) (s : State) : (putNode n s).wnb = s.wnb := rfl
@[simp] theorem putNode_wfin (n : Node) (s : State) : (putNode n s).wfin = s.wfin := rfl
@[simp] theorem putNode_rcur (n : Node) (s : State) : (putNode n s).rcur = s.rcur := rfl
@[simp] theorem putNode_rdone (n : Node) (s : State) : (putNode n s).rdone = s.rdone := rfl
@[simp] theorem putNode_wout (n : Node) (s : State) : (putNode n s).wout = s.wout := rfl
@[simp] theorem putNode_rout (n : Node) (s : State) : (putNode n s).rout = s.rout := rfl
@[simp] theorem putNode_port (n : Node) (s : State) : (putNode n s).port = s.port := rfl

/-! `bumpLeaves` -/

@[simp] theorem bumpLeaves_phase (s : State) : (bumpLeaves s).phase = s.phase := rfl
@[simp] theorem bumpLeaves_fault (s : State) : (bumpLeaves s).fault = s.fault := rfl
@[simp] theorem bumpLeaves_finfo (s : State) : (bumpLeaves s).finfo = s.finfo := rfl
@[simp] theorem bumpLeaves_nleaf (s : State) : (bumpLeaves s).nleaf = s.nleaf + 1 := rfl
@[simp] theorem bumpLeaves_nnode (s : State) : (bumpLeaves s).nnode = s.nnode := rfl
@[simp] theorem bumpLeaves_seen (s : State) : (bumpLeaves s).seen = s.seen := rfl
@[simp] theorem bumpLeaves_nm (s : State) : (bumpLeaves s).nm = s.nm := rfl
@[simp] theorem bumpLeaves_pq (s : State) : (bumpLeaves s).pq = s.pq := rfl
@[simp] theorem bumpLeaves_root (s : State) : (bumpLeaves s).root = s.root := rfl
@[simp] theorem bumpLeaves_ct (s : State) : (bumpLeaves s).ct = s.ct := rfl
@[simp] theorem bumpLeaves_wacc (s : State) : (bumpLeaves s).wacc = s.wacc := rfl
@[simp] theorem bumpLeaves_wnb (s : State) : (bumpLeaves s).wnb = s.wnb := rfl
@[simp] theorem bumpLeaves_wfin (s : State) : (bumpLeaves s).wfin = s.wfin := rfl
@[simp] theorem bumpLeaves_rcur (s : State) : (bumpLeaves s).rcur = s.rcur := rfl
@[simp] theorem bumpLeaves_rdone (s : State) : (bumpLeaves s).rdone = s.rdone := rfl
@[simp] theorem bumpLeaves_wout (s : State) : (bumpLeaves s).wout = s.wout := rfl
@[simp] theorem bumpLeaves_rout (s : State) : (bumpLeaves s).rout = s.rout := rfl
@[simp] theorem bumpLeaves_port (s : State) : (bumpLeaves s).port = s.port := rfl

/-! `setSeen` -/

@[simp] theorem setSeen_phase (sym : Symbol) (s : State) : (setSeen sym s).phase = s.phase := rfl
@[simp] theorem setSeen_fault (sym : Symbol) (s : State) : (setSeen sym s).fault = s.fault := rfl
@[simp] theorem setSeen_finfo (sym : Symbol) (s : State) : (setSeen sym s).finfo = s.finfo := rfl
@[simp] theorem setSeen_nleaf (sym : Symbol) (s : State) : (setSeen sym s).nleaf = s.nleaf := rfl
@[simp] theorem setSeen_nnode (sym : Symbol) (s : State) : (setSeen sym s).nnode = s.nnode := rfl
@[simp] theorem setSeen_seen (sym : Symbol) (s : State) : (setSeen sym s).seen = s.seen ||| (1#257 <<< sym.toNat) := rfl
@[simp] theorem setSeen_nm (sym : Symbol) (s : State) : (setSeen sym s).nm = s.nm := rfl
@[simp] theorem setSeen_pq (sym : Symbol) (s : State) : (setSeen sym s).pq = s.pq := rfl
@[simp] theorem setSeen_root (sym : Symbol) (s : State) : (setSeen sym s).root = s.root := rfl
@[simp] theorem setSeen_ct (sym : Symbol) (s : State) : (setSeen sym s).ct = s.ct := rfl
@[simp] theorem setSeen_wacc (sym : Symbol) (s : State) : (setSeen sym s).wacc = s.wacc := rfl
@[simp] theorem setSeen_wnb (sym : Symbol) (s : State) : (setSeen sym s).wnb = s.wnb := rfl
@[simp] theorem setSeen_wfin (sym : Symbol) (s : State) : (setSeen sym s).wfin = s.wfin := rfl
@[simp] theorem setSeen_rcur (sym : Symbol) (s : State) : (setSeen sym s).rcur = s.rcur := rfl
@[simp] theorem setSeen_rdone (sym : Symbol) (s : State) : (setSeen sym s).rdone = s.rdone := rfl
@[simp] theorem setSeen_wout (sym : Symbol) (s : State) : (setSeen sym s).wout = s.wout := rfl
@[simp] theorem setSeen_rout (sym : Symbol) (s : State) : (setSeen sym s).rout = s.rout := rfl
@[simp] theorem setSeen_port (sym : Symbol) (s : State) : (setSeen sym s).port = s.port := rfl

/-! `setQueue` -/

@[simp] theorem setQueue_phase (q : List NodeIdx) (s : State) : (setQueue q s).phase = s.phase := rfl
@[simp] theorem setQueue_fault (q : List NodeIdx) (s : State) : (setQueue q s).fault = s.fault := rfl
@[simp] theorem setQueue_finfo (q : List NodeIdx) (s : State) : (setQueue q s).finfo = s.finfo := rfl
@[simp] theorem setQueue_nleaf (q : List NodeIdx) (s : State) : (setQueue q s).nleaf = s.nleaf := rfl
@[simp] theorem setQueue_nnode (q : List NodeIdx) (s : State) : (setQueue q s).nnode = s.nnode := rfl
@[simp] theorem setQueue_seen (q : List NodeIdx) (s : State) : (setQueue q s).seen = s.seen := rfl
@[simp] theorem setQueue_nm (q : List NodeIdx) (s : State) : (setQueue q s).nm = s.nm := rfl
@[simp] theorem setQueue_pq (q : List NodeIdx) (s : State) : (setQueue q s).pq = q := rfl
@[simp] theorem setQueue_root (q : List NodeIdx) (s : State) : (setQueue q s).root = s.root := rfl
@[simp] theorem setQueue_ct (q : List NodeIdx) (s : State) : (setQueue q s).ct = s.ct := rfl
@[simp] theorem setQueue_wacc (q : List NodeIdx) (s : State) : (setQueue q s).wacc = s.wacc := rfl
@[simp] theorem setQueue_wnb (q : List NodeIdx) (s : State) : (setQueue q s).wnb = s.wnb := rfl
@[simp] theorem setQueue_wfin (q : List NodeIdx) (s : State) : (setQueue q s).wfin = s.wfin := rfl
@[simp] theorem setQueue_rcur (q : List NodeIdx) (s : State) : (setQueue q s).rcur = s.rcur := rfl
@[simp] theorem setQueue_rdone (q : List NodeIdx) (s : State) : (setQueue q s).rdone = s.rdone := rfl
@[simp] theorem setQueue_wout (q : List NodeIdx) (s : State) : (setQueue q s).wout = s.wout := rfl
@[simp] theorem setQueue_rout (q : List NodeIdx) (s : State) : (setQueue q s).rout = s.rout := rfl
@[simp] theorem setQueue_port (q : List NodeIdx) (s : State) : (setQueue q s).port = s.port := rfl

/-! `setRoot` -/

@[simp] theorem setRoot_phase (k : NodeIdx) (s : State) : (setRoot k s).phase = s.phase := rfl
@[simp] theorem setRoot_fault (k : NodeIdx) (s : State) : (setRoot k s).fault = s.fault := rfl
@[simp] theorem setRoot_finfo (k : NodeIdx) (s : State) : (setRoot k s).finfo = s.finfo := rfl
@[simp] theorem setRoot_nleaf (k : NodeIdx) (s : State) : (setRoot k s).nleaf = s.nleaf := rfl
@[simp] theorem setRoot_nnode (k : NodeIdx) (s : State) : (setRoot k s).nnode = s.nnode := rfl
@[simp] theorem setRoot_seen (k : NodeIdx) (s : State) : (setRoot k s).seen = s.seen := rfl
@[simp] theorem setRoot_nm (k : NodeIdx) (s : State) : (setRoot k s).nm = s.nm := rfl
@[simp] theorem setRoot_pq (k : NodeIdx) (s : State) : (setRoot k s).pq = s.pq := rfl
@[simp] theorem setRoot_root (k : NodeIdx) (s : State) : (setRoot k s).root = k := rfl
@[simp] theorem setRoot_ct (k : NodeIdx) (s : State) : (setRoot k s).ct = s.ct := rfl
@[simp] theorem setRoot_wacc (k : NodeIdx) (s : State) : (setRoot k s).wacc = s.wacc := rfl
@[simp] theorem setRoot_wnb (k : NodeIdx) (s : State) : (setRoot k s).wnb = s.wnb := rfl
@[simp] theorem setRoot_wfin (k : NodeIdx) (s : State) : (setRoot k s).wfin = s.wfin := rfl
@[simp] theorem setRoot_rcur (k : NodeIdx) (s : State) : (setRoot k s).rcur = s.rcur := rfl
@[simp] theorem setRoot_rdone (k : NodeIdx) (s : State) : (setRoot k s).rdone = s.rdone := rfl
@[simp] theorem setRoot_wout (k : NodeIdx) (s : State) : (setRoot k s).wout = s.wout := rfl
@[simp] theorem setRoot_rout (k : NodeIdx) (s : State) : (setRoot k s).rout = s.rout := rfl
@[simp] theorem setRoot_port (k : NodeIdx) (s : State) : (setRoot k s).port = s.port := rfl

/-! `putCode` -/

@[simp] theorem putCode_phase (sym : Symbol) (p : Path) (s : State) : (putCode sym p s).phase = s.phase := rfl
@[simp] theorem putCode_fault (sym : Symbol) (p : Path) (s : State) : (putCode sym p s).fault = s.fault := rfl
@[simp] theorem putCode_finfo (sym : Symbol) (p : Path) (s : State) : (putCode sym p s).finfo = s.finfo := rfl
@[simp] theorem putCode_nleaf (sym : Symbol) (p : Path) (s : State) : (putCode sym p s).nleaf = s.nleaf := rfl
@[simp] theorem putCode_nnode (sym : Symbol) (p : Path) (s : State) : (putCode sym p s).nnode = s.nnode := rfl
@[simp] theorem putCode_seen (sym : Symbol) (p : Path) (s : State) : (putCode sym p s).seen = s.seen := rfl
@[simp] theorem putCode_nm (sym : Symbol) (p : Path) (s : State) : (putCode sym p s).nm = s.nm := rfl
@[simp] theorem putCode_pq (sym : Symbol) (p : Path) (s : State) : (putCode sym p s).pq = s.pq := rfl
@[simp] theorem putCode_root (sym : Symbol) (p : Path) (s : State) : (putCode sym p s).root = s.root := rfl
@[simp] theorem putCode_ct (sym : Symbol) (p : Path) (s : State) : (putCode sym p s).ct = storePut s.ct sym.toNat (codeEntryOf p) := rfl
@[simp] theorem putCode_wacc (sym : Symbol) (p : Path) (s : State) : (putCode sym p s).wacc = s.wacc := rfl
@[simp] theorem putCode_wnb (sym : Symbol) (p : Path) (s : State) : (putCode sym p s).wnb = s.wnb := rfl
@[simp] theorem putCode_wfin (sym : Symbol) (p : Path) (s : State) : (putCode sym p s).wfin = s.wfin := rfl
@[simp] theorem putCode_rcur (sym : Symbol) (p : Path) (s : State) : (putCode sym p s).rcur = s.rcur := rfl
@[simp] theorem putCode_rdone (sym : Symbol) (p : Path) (s : State) : (putCode sym p s).rdone = s.rdone := rfl
@[simp] theorem putCode_wout (sym : Symbol) (p : Path) (s : State) : (putCode sym p s).wout = s.wout := rfl
@[simp] theorem putCode_rout (sym : Symbol) (p : Path) (s : State) : (putCode sym p s).rout = s.rout := rfl
@[simp] theorem putCode_port (sym : Symbol) (p : Path) (s : State) : (putCode sym p s).port = s.port := rfl

/-! `enterBuilt` -/

@[simp] theorem enterBuilt_phase (s : State) : (enterBuilt s).phase = .built := rfl
@[simp] theorem enterBuilt_fault (s : State) : (enterBuilt s).fault = s.fault := rfl
@[simp] theorem enterBuilt_finfo (s : State) : (enterBuilt s).finfo = s.finfo := rfl
@[simp] theorem enterBuilt_nleaf (s : State) : (enterBuilt s).nleaf = s.nleaf := rfl
@[simp] theorem enterBuilt_nnode (s : State) : (enterBuilt s).nnode = s.nnode := rfl
@[simp] theorem enterBuilt_seen (s : State) : (enterBuilt s).seen = s.seen := rfl
@[simp] theorem enterBuilt_nm (s : State) : (enterBuilt s).nm = s.nm := rfl
@[simp] theorem enterBuilt_pq (s : State) : (enterBuilt s).pq = s.pq := rfl
@[simp] theorem enterBuilt_root (s : State) : (enterBuilt s).root = s.root := rfl
@[simp] theorem enterBuilt_ct (s : State) : (enterBuilt s).ct = s.ct := rfl
@[simp] theorem enterBuilt_wacc (s : State) : (enterBuilt s).wacc = s.wacc := rfl
@[simp] theorem enterBuilt_wnb (s : State) : (enterBuilt s).wnb = s.wnb := rfl
@[simp] theorem enterBuilt_wfin (s : State) : (enterBuilt s).wfin = s.wfin := rfl
@[simp] theorem enterBuilt_rcur (s : State) : (enterBuilt s).rcur = s.root := rfl
@[simp] theorem enterBuilt_rdone (s : State) : (enterBuilt s).rdone = s.rdone := rfl
@[simp] theorem enterBuilt_wout (s : State) : (enterBuilt s).wout = s.wout := rfl
@[simp] theorem enterBuilt_rout (s : State) : (enterBuilt s).rout = s.rout := rfl
@[simp] theorem enterBuilt_port (s : State) : (enterBuilt s).port = s.port := rfl

/-! `setAccumulator` -/

@[simp] theorem setAccumulator_phase (acc : BitVec 8) (nb : BitVec 3) (s : State) : (setAccumulator acc nb s).phase = s.phase := rfl
@[simp] theorem setAccumulator_fault (acc : BitVec 8) (nb : BitVec 3) (s : State) : (setAccumulator acc nb s).fault = s.fault := rfl
@[simp] theorem setAccumulator_finfo (acc : BitVec 8) (nb : BitVec 3) (s : State) : (setAccumulator acc nb s).finfo = s.finfo := rfl
@[simp] theorem setAccumulator_nleaf (acc : BitVec 8) (nb : BitVec 3) (s : State) : (setAccumulator acc nb s).nleaf = s.nleaf := rfl
@[simp] theorem setAccumulator_nnode (acc : BitVec 8) (nb : BitVec 3) (s : State) : (setAccumulator acc nb s).nnode = s.nnode := rfl
@[simp] theorem setAccumulator_seen (acc : BitVec 8) (nb : BitVec 3) (s : State) : (setAccumulator acc nb s).seen = s.seen := rfl
@[simp] theorem setAccumulator_nm (acc : BitVec 8) (nb : BitVec 3) (s : State) : (setAccumulator acc nb s).nm = s.nm := rfl
@[simp] theorem setAccumulator_pq (acc : BitVec 8) (nb : BitVec 3) (s : State) : (setAccumulator acc nb s).pq = s.pq := rfl
@[simp] theorem setAccumulator_root (acc : BitVec 8) (nb : BitVec 3) (s : State) : (setAccumulator acc nb s).root = s.root := rfl
@[simp] theorem setAccumulator_ct (acc : BitVec 8) (nb : BitVec 3) (s : State) : (setAccumulator acc nb s).ct = s.ct := rfl
@[simp] theorem setAccumulator_wacc (acc : BitVec 8) (nb : BitVec 3) (s : State) : (setAccumulator acc nb s).wacc = acc := rfl
@[simp] theorem setAccumulator_wnb (acc : BitVec 8) (nb : BitVec 3) (s : State) : (setAccumulator acc nb s).wnb = nb := rfl
@[simp] theorem setAccumulator_wfin (acc : BitVec 8) (nb : BitVec 3) (s : State) : (setAccumulator acc nb s).wfin = s.wfin := rfl
@[simp] theorem setAccumulator_rcur (acc : BitVec 8) (nb : BitVec 3) (s : State) : (setAccumulator acc nb s).rcur = s.rcur := rfl
@[simp] theorem setAccumulator_rdone (acc : BitVec 8) (nb : BitVec 3) (s : State) : (setAccumulator acc nb s).rdone = s.rdone := rfl
@[simp] theorem setAccumulator_wout (acc : BitVec 8) (nb : BitVec 3) (s : State) : (setAccumulator acc nb s).wout = s.wout := rfl
@[simp] theorem setAccumulator_rout (acc : BitVec 8) (nb : BitVec 3) (s : State) : (setAccumulator acc nb s).rout = s.rout := rfl
@[simp] theorem setAccumulator_port (acc : BitVec 8) (nb : BitVec 3) (s : State) : (setAccumulator acc nb s).port = s.port := rfl

/-! `setWfin` -/

@[simp] theorem setWfin_phase (s : State) : (setWfin s).phase = s.phase := rfl
@[simp] theorem setWfin_fault (s : State) : (setWfin s).fault = s.fault := rfl
@[simp] theorem setWfin_finfo (s : State) : (setWfin s).finfo = s.finfo := rfl
@[simp] theorem setWfin_nleaf (s : State) : (setWfin s).nleaf = s.nleaf := rfl
@[simp] theorem setWfin_nnode (s : State) : (setWfin s).nnode = s.nnode := rfl
@[simp] theorem setWfin_seen (s : State) : (setWfin s).seen = s.seen := rfl
@[simp] theorem setWfin_nm (s : State) : (setWfin s).nm = s.nm := rfl
@[simp] theorem setWfin_pq (s : State) : (setWfin s).pq = s.pq := rfl
@[simp] theorem setWfin_root (s : State) : (setWfin s).root = s.root := rfl
@[simp] theorem setWfin_ct (s : State) : (setWfin s).ct = s.ct := rfl
@[simp] theorem setWfin_wacc (s : State) : (setWfin s).wacc = s.wacc := rfl
@[simp] theorem setWfin_wnb (s : State) : (setWfin s).wnb = s.wnb := rfl
@[simp] theorem setWfin_wfin (s : State) : (setWfin s).wfin = true := rfl
@[simp] theorem setWfin_rcur (s : State) : (setWfin s).rcur = s.rcur := rfl
@[simp] theorem setWfin_rdone (s : State) : (setWfin s).rdone = s.rdone := rfl
@[simp] theorem setWfin_wout (s : State) : (setWfin s).wout = s.wout := rfl
@[simp] theorem setWfin_rout (s : State) : (setWfin s).rout = s.rout := rfl
@[simp] theorem setWfin_port (s : State) : (setWfin s).port = s.port := rfl

/-! `emitW` -/

@[simp] theorem emitW_phase (b : Byte) (s : State) : (emitW b s).phase = s.phase := rfl
@[simp] theorem emitW_fault (b : Byte) (s : State) : (emitW b s).fault = s.fault := rfl
@[simp] theorem emitW_finfo (b : Byte) (s : State) : (emitW b s).finfo = s.finfo := rfl
@[simp] theorem emitW_nleaf (b : Byte) (s : State) : (emitW b s).nleaf = s.nleaf := rfl
@[simp] theorem emitW_nnode (b : Byte) (s : State) : (emitW b s).nnode = s.nnode := rfl
@[simp] theorem emitW_seen (b : Byte) (s : State) : (emitW b s).seen = s.seen := rfl
@[simp] theorem emitW_nm (b : Byte) (s : State) : (emitW b s).nm = s.nm := rfl
@[simp] theorem emitW_pq (b : Byte) (s : State) : (emitW b s).pq = s.pq := rfl
@[simp] theorem emitW_root (b : Byte) (s : State) : (emitW b s).root = s.root := rfl
@[simp] theorem emitW_ct (b : Byte) (s : State) : (emitW b s).ct = s.ct := rfl
@[simp] theorem emitW_wacc (b : Byte) (s : State) : (emitW b s).wacc = s.wacc := rfl
@[simp] theorem emitW_wnb (b : Byte) (s : State) : (emitW b s).wnb = s.wnb := rfl
@[simp] theorem emitW_wfin (b : Byte) (s : State) : (emitW b s).wfin = s.wfin := rfl
@[simp] theorem emitW_rcur (b : Byte) (s : State) : (emitW b s).rcur = s.rcur := rfl
@[simp] theorem emitW_rdone (b : Byte) (s : State) : (emitW b s).rdone = s.rdone := rfl
@[simp] theorem emitW_wout (b : Byte) (s : State) : (emitW b s).wout = s.wout ++ [b] := rfl
@[simp] theorem emitW_rout (b : Byte) (s : State) : (emitW b s).rout = s.rout := rfl
@[simp] theorem emitW_port (b : Byte) (s : State) : (emitW b s).port = s.port := rfl

/-! `emitR` -/

@[simp] theorem emitR_phase (b : Byte) (s : State) : (emitR b s).phase = s.phase := rfl
@[simp] theorem emitR_fault (b : Byte) (s : State) : (emitR b s).fault = s.fault := rfl
@[simp] theorem emitR_finfo (b : Byte) (s : State) : (emitR b s).finfo = s.finfo := rfl
@[simp] theorem emitR_nleaf (b : Byte) (s : State) : (emitR b s).nleaf = s.nleaf := rfl
@[simp] theorem emitR_nnode (b : Byte) (s : State) : (emitR b s).nnode = s.nnode := rfl
@[simp] theorem emitR_seen (b : Byte) (s : State) : (emitR b s).seen = s.seen := rfl
@[simp] theorem emitR_nm (b : Byte) (s : State) : (emitR b s).nm = s.nm := rfl
@[simp] theorem emitR_pq (b : Byte) (s : State) : (emitR b s).pq = s.pq := rfl
@[simp] theorem emitR_root (b : Byte) (s : State) : (emitR b s).root = s.root := rfl
@[simp] theorem emitR_ct (b : Byte) (s : State) : (emitR b s).ct = s.ct := rfl
@[simp] theorem emitR_wacc (b : Byte) (s : State) : (emitR b s).wacc = s.wacc := rfl
@[simp] theorem emitR_wnb (b : Byte) (s : State) : (emitR b s).wnb = s.wnb := rfl
@[simp] theorem emitR_wfin (b : Byte) (s : State) : (emitR b s).wfin = s.wfin := rfl
@[simp] theorem emitR_rcur (b : Byte) (s : State) : (emitR b s).rcur = s.rcur := rfl
@[simp] theorem emitR_rdone (b : Byte) (s : State) : (emitR b s).rdone = s.rdone := rfl
@[simp] theorem emitR_wout (b : Byte) (s : State) : (emitR b s).wout = s.wout := rfl
@[simp] theorem emitR_rout (b : Byte) (s : State) : (emitR b s).rout = s.rout ++ [b] := rfl
@[simp] theorem emitR_port (b : Byte) (s : State) : (emitR b s).port = s.port := rfl

/-! `setRcur` -/

@[simp] theorem setRcur_phase (k : NodeIdx) (s : State) : (setRcur k s).phase = s.phase := rfl
@[simp] theorem setRcur_fault (k : NodeIdx) (s : State) : (setRcur k s).fault = s.fault := rfl
@[simp] theorem setRcur_finfo (k : NodeIdx) (s : State) : (setRcur k s).finfo = s.finfo := rfl
@[simp] theorem setRcur_nleaf (k : NodeIdx) (s : State) : (setRcur k s).nleaf = s.nleaf := rfl
@[simp] theorem setRcur_nnode (k : NodeIdx) (s : State) : (setRcur k s).nnode = s.nnode := rfl
@[simp] theorem setRcur_seen (k : NodeIdx) (s : State) : (setRcur k s).seen = s.seen := rfl
@[simp] theorem setRcur_nm (k : NodeIdx) (s : State) : (setRcur k s).nm = s.nm := rfl
@[simp] theorem setRcur_pq (k : NodeIdx) (s : State) : (setRcur k s).pq = s.pq := rfl
@[simp] theorem setRcur_root (k : NodeIdx) (s : State) : (setRcur k s).root = s.root := rfl
@[simp] theorem setRcur_ct (k : NodeIdx) (s : State) : (setRcur k s).ct = s.ct := rfl
@[simp] theorem setRcur_wacc (k : NodeIdx) (s : State) : (setRcur k s).wacc = s.wacc := rfl
@[simp] theorem setRcur_wnb (k : NodeIdx) (s : State) : (setRcur k s).wnb = s.wnb := rfl
@[simp] theorem setRcur_wfin (k : NodeIdx) (s : State) : (setRcur k s).wfin = s.wfin := rfl
@[simp] theorem setRcur_rcur (k : NodeIdx) (s : State) : (setRcur k s).rcur = k := rfl
@[simp] theorem setRcur_rdone (k : NodeIdx) (s : State) : (setRcur k s).rdone = s.rdone := rfl
@[simp] theorem setRcur_wout (k : NodeIdx) (s : State) : (setRcur k s).wout = s.wout := rfl
@[simp] theorem setRcur_rout (k : NodeIdx) (s : State) : (setRcur k s).rout = s.rout := rfl
@[simp] theorem setRcur_port (k : NodeIdx) (s : State) : (setRcur k s).port = s.port := rfl

/-! `setRdone` -/

@[simp] theorem setRdone_phase (s : State) : (setRdone s).phase = s.phase := rfl
@[simp] theorem setRdone_fault (s : State) : (setRdone s).fault = s.fault := rfl
@[simp] theorem setRdone_finfo (s : State) : (setRdone s).finfo = s.finfo := rfl
@[simp] theorem setRdone_nleaf (s : State) : (setRdone s).nleaf = s.nleaf := rfl
@[simp] theorem setRdone_nnode (s : State) : (setRdone s).nnode = s.nnode := rfl
@[simp] theorem setRdone_seen (s : State) : (setRdone s).seen = s.seen := rfl
@[simp] theorem setRdone_nm (s : State) : (setRdone s).nm = s.nm := rfl
@[simp] theorem setRdone_pq (s : State) : (setRdone s).pq = s.pq := rfl
@[simp] theorem setRdone_root (s : State) : (setRdone s).root = s.root := rfl
@[simp] theorem setRdone_ct (s : State) : (setRdone s).ct = s.ct := rfl
@[simp] theorem setRdone_wacc (s : State) : (setRdone s).wacc = s.wacc := rfl
@[simp] theorem setRdone_wnb (s : State) : (setRdone s).wnb = s.wnb := rfl
@[simp] theorem setRdone_wfin (s : State) : (setRdone s).wfin = s.wfin := rfl
@[simp] theorem setRdone_rcur (s : State) : (setRdone s).rcur = s.rcur := rfl
@[simp] theorem setRdone_rdone (s : State) : (setRdone s).rdone = true := rfl
@[simp] theorem setRdone_wout (s : State) : (setRdone s).wout = s.wout := rfl
@[simp] theorem setRdone_rout (s : State) : (setRdone s).rout = s.rout := rfl
@[simp] theorem setRdone_port (s : State) : (setRdone s).port = s.port := rfl

/-! `clearRun` -/

@[simp] theorem clearRun_phase (s : State) : (clearRun s).phase = State.reset.phase := rfl
@[simp] theorem clearRun_fault (s : State) : (clearRun s).fault = State.reset.fault := rfl
@[simp] theorem clearRun_finfo (s : State) : (clearRun s).finfo = State.reset.finfo := rfl
@[simp] theorem clearRun_nleaf (s : State) : (clearRun s).nleaf = State.reset.nleaf := rfl
@[simp] theorem clearRun_nnode (s : State) : (clearRun s).nnode = State.reset.nnode := rfl
@[simp] theorem clearRun_seen (s : State) : (clearRun s).seen = State.reset.seen := rfl
@[simp] theorem clearRun_nm (s : State) : (clearRun s).nm = State.reset.nm := rfl
@[simp] theorem clearRun_pq (s : State) : (clearRun s).pq = State.reset.pq := rfl
@[simp] theorem clearRun_root (s : State) : (clearRun s).root = State.reset.root := rfl
@[simp] theorem clearRun_ct (s : State) : (clearRun s).ct = State.reset.ct := rfl
@[simp] theorem clearRun_wacc (s : State) : (clearRun s).wacc = State.reset.wacc := rfl
@[simp] theorem clearRun_wnb (s : State) : (clearRun s).wnb = State.reset.wnb := rfl
@[simp] theorem clearRun_wfin (s : State) : (clearRun s).wfin = State.reset.wfin := rfl
@[simp] theorem clearRun_rcur (s : State) : (clearRun s).rcur = State.reset.rcur := rfl
@[simp] theorem clearRun_rdone (s : State) : (clearRun s).rdone = State.reset.rdone := rfl
@[simp] theorem clearRun_wout (s : State) : (clearRun s).wout = s.wout := rfl
@[simp] theorem clearRun_rout (s : State) : (clearRun s).rout = s.rout := rfl
@[simp] theorem clearRun_port (s : State) : (clearRun s).port = s.port := rfl

/-! `hardwareReset` -/

@[simp] theorem hardwareReset_phase (s : State) : (hardwareReset s).phase = State.reset.phase := rfl
@[simp] theorem hardwareReset_fault (s : State) : (hardwareReset s).fault = State.reset.fault := rfl
@[simp] theorem hardwareReset_finfo (s : State) : (hardwareReset s).finfo = State.reset.finfo := rfl
@[simp] theorem hardwareReset_nleaf (s : State) : (hardwareReset s).nleaf = State.reset.nleaf := rfl
@[simp] theorem hardwareReset_nnode (s : State) : (hardwareReset s).nnode = State.reset.nnode := rfl
@[simp] theorem hardwareReset_seen (s : State) : (hardwareReset s).seen = State.reset.seen := rfl
@[simp] theorem hardwareReset_nm (s : State) : (hardwareReset s).nm = State.reset.nm := rfl
@[simp] theorem hardwareReset_pq (s : State) : (hardwareReset s).pq = State.reset.pq := rfl
@[simp] theorem hardwareReset_root (s : State) : (hardwareReset s).root = State.reset.root := rfl
@[simp] theorem hardwareReset_ct (s : State) : (hardwareReset s).ct = State.reset.ct := rfl
@[simp] theorem hardwareReset_wacc (s : State) : (hardwareReset s).wacc = State.reset.wacc := rfl
@[simp] theorem hardwareReset_wnb (s : State) : (hardwareReset s).wnb = State.reset.wnb := rfl
@[simp] theorem hardwareReset_wfin (s : State) : (hardwareReset s).wfin = State.reset.wfin := rfl
@[simp] theorem hardwareReset_rcur (s : State) : (hardwareReset s).rcur = State.reset.rcur := rfl
@[simp] theorem hardwareReset_rdone (s : State) : (hardwareReset s).rdone = State.reset.rdone := rfl
@[simp] theorem hardwareReset_wout (s : State) : (hardwareReset s).wout = State.reset.wout := rfl
@[simp] theorem hardwareReset_rout (s : State) : (hardwareReset s).rout = State.reset.rout := rfl
@[simp] theorem hardwareReset_port (s : State) : (hardwareReset s).port = s.port := rfl

/-! `State.reset` -/

@[simp] theorem State.reset_phase : State.reset.phase = .load := rfl
@[simp] theorem State.reset_fault : State.reset.fault = .none := rfl
@[simp] theorem State.reset_finfo : State.reset.finfo = 0 := rfl
@[simp] theorem State.reset_nleaf : State.reset.nleaf = 0 := rfl
@[simp] theorem State.reset_nnode : State.reset.nnode = 0 := rfl
@[simp] theorem State.reset_seen : State.reset.seen = 0 := rfl
@[simp] theorem State.reset_nm : State.reset.nm = [] := rfl
@[simp] theorem State.reset_pq : State.reset.pq = [] := rfl
@[simp] theorem State.reset_root : State.reset.root = 0 := rfl
@[simp] theorem State.reset_ct : State.reset.ct = [] := rfl
@[simp] theorem State.reset_wacc : State.reset.wacc = 0 := rfl
@[simp] theorem State.reset_wnb : State.reset.wnb = 0 := rfl
@[simp] theorem State.reset_wfin : State.reset.wfin = false := rfl
@[simp] theorem State.reset_rcur : State.reset.rcur = 0 := rfl
@[simp] theorem State.reset_rdone : State.reset.rdone = false := rfl
@[simp] theorem State.reset_wout : State.reset.wout = [] := rfl
@[simp] theorem State.reset_rout : State.reset.rout = [] := rfl
@[simp] theorem State.reset_port : State.reset.port = [] := rfl

end Sys2Proof.Machine
end

