-- ==== Sys2Proof/Laws/Store.lean ====
section
/-! SUPPORT. The laws of the stores: a read after a write, and the canonical form kept. -/

namespace Sys2Proof.Machine

variable {α : Type}

@[simp] theorem storeGet_nil (i : Nat) : storeGet ([] : List (Nat × α)) i = none := rfl

theorem storeGet_put_same (l : List (Nat × α)) (i : Nat) (v : α) : storeGet (storePut l i v) i = some v := by
  induction l with
  | nil => simp [storePut, storeGet]
  | cons p t ih =>
    obtain ⟨j, u⟩ := p
    by_cases h1 : i < j
    · simp [storePut, h1, storeGet]
    · by_cases h2 : i = j <;> simp [storePut, h1, h2, storeGet, ih]

theorem storeGet_put_other (l : List (Nat × α)) {i k : Nat} (v : α) (h : k ≠ i) :
    storeGet (storePut l i v) k = storeGet l k := by
  induction l with
  | nil => simp [storePut, storeGet, h]
  | cons p t ih =>
    obtain ⟨j, u⟩ := p
    by_cases h1 : i < j
    · simp [storePut, h1, storeGet, h]
    · by_cases h2 : i = j
      · subst h2; simp [storePut, storeGet, h]
      · simp [storePut, h1, h2, storeGet, ih]

/-- A read after a write: the value written there, every other index as before. -/
theorem storeGet_put (l : List (Nat × α)) (i k : Nat) (v : α) :
    storeGet (storePut l i v) k = if k = i then some v else storeGet l k := by
  by_cases h : k = i
  · subst h; simp [storeGet_put_same]
  · simp [h, storeGet_put_other]

theorem mem_keys_storePut (l : List (Nat × α)) (i : Nat) (v : α) (k : Nat) :
    k ∈ (storePut l i v).map Prod.fst ↔ k = i ∨ k ∈ l.map Prod.fst := by
  induction l with
  | nil => simp [storePut]
  | cons p t ih =>
    obtain ⟨j, u⟩ := p
    by_cases h1 : i < j
    · simp [storePut, h1]
    · by_cases h2 : i = j
      · subst h2; simp [storePut]
      · simp only [storePut, h1, h2, if_false, List.map_cons, List.mem_cons, ih]
        tauto

/-- A write below the bound keeps the canonical form. -/
theorem storePut_wf {bound : Nat} {l : List (Nat × α)} {i : Nat} (v : α) (hl : StoreWf bound l) (hi : i < bound) :
    StoreWf bound (storePut l i v) := by
  refine ⟨?_, fun k hk => ?_⟩
  · obtain ⟨hs, -⟩ := hl
    induction l with
    | nil => simp [storePut]
    | cons p t ih =>
      obtain ⟨j, u⟩ := p
      rw [List.map_cons, List.pairwise_cons] at hs
      by_cases h1 : i < j
      · simp only [storePut, h1, if_true, List.map_cons, List.pairwise_cons]
        refine ⟨?_, hs⟩
        intro k hk
        rcases List.mem_cons.1 hk with rfl | hk
        · exact h1
        · exact lt_trans h1 (hs.1 k hk)
      · by_cases h2 : i = j
        · subst h2; simpa [storePut] using hs
        · simp only [storePut, h1, h2, if_false, List.map_cons, List.pairwise_cons]
          refine ⟨fun k hk => ?_, ih hs.2⟩
          rcases (mem_keys_storePut t i v k).1 hk with rfl | hk
          · omega
          · exact hs.1 k hk
  · rcases (mem_keys_storePut l i v k).1 hk with rfl | hk
    · exact hi
    · exact hl.2 k hk

theorem storeGet_none_of_not_mem {l : List (Nat × α)} {i : Nat} (h : i ∉ l.map Prod.fst) : storeGet l i = none := by
  induction l with
  | nil => rfl
  | cons p t ih =>
    obtain ⟨j, u⟩ := p
    simp only [List.map_cons, List.mem_cons, not_or] at h
    simp [storeGet, h.1, ih h.2]

theorem mem_of_storeGet {l : List (Nat × α)} {i : Nat} {v : α} (h : storeGet l i = some v) : (i, v) ∈ l := by
  induction l with
  | nil => simp at h
  | cons p t ih =>
    obtain ⟨j, u⟩ := p
    by_cases hij : i = j
    · subst hij; simp [storeGet] at h; simp [h]
    · simp [storeGet, hij] at h; exact List.mem_cons_of_mem _ (ih h)

/-- In canonical form an entry is listed exactly when reading its index gives it. -/
theorem mem_iff_storeGet {bound : Nat} {l : List (Nat × α)} (hl : StoreWf bound l) (i : Nat) (v : α) :
    (i, v) ∈ l ↔ storeGet l i = some v := by
  refine ⟨fun h => ?_, mem_of_storeGet⟩
  obtain ⟨hs, -⟩ := hl
  induction l with
  | nil => simp at h
  | cons p t ih =>
    obtain ⟨j, u⟩ := p
    rw [List.map_cons, List.pairwise_cons] at hs
    rcases List.mem_cons.1 h with heq | hmem
    · cases heq; simp [storeGet]
    · have hlt := hs.1 i (List.mem_map_of_mem (f := Prod.fst) hmem)
      have hne : i ≠ j := by omega
      simp [storeGet, hne, ih hmem hs.2]

theorem storeGet_lt {bound : Nat} {l : List (Nat × α)} (hl : StoreWf bound l) {i : Nat} {v : α}
    (h : storeGet l i = some v) : i < bound :=
  hl.2 i (List.mem_map_of_mem (f := Prod.fst) (mem_of_storeGet h))

theorem storeWf_nil (bound : Nat) : StoreWf bound ([] : List (Nat × α)) := ⟨List.Pairwise.nil, fun _ h => by cases h⟩

/-! ## The named operations on the stores -/

/-- Everything `readNode` can answer. -/
theorem readNode_ok_iff {nm : List (Nat × Node)} {i : NodeIdx} {n : Node} :
    readNode nm i = .ok n ↔ i.toNat < 513 ∧ storeGet nm i.toNat = some n := by
  unfold readNode
  by_cases h : i.toNat < 513
  · cases hg : storeGet nm i.toNat <;> simp [h]
  · simp [h]

/-- Everything `allocNode` can answer. -/
theorem allocNode_ok_iff {n : Node} {s t : State} : allocNode n s = .ok t ↔ s.nnode.toNat < 513 ∧ t = putNode n s := by
  unfold allocNode
  by_cases h : s.nnode.toNat < 513 <;> simp [h, eq_comm]

/-- Everything `countLeaf` can answer. -/
theorem countLeaf_ok_iff {s t : State} : countLeaf s = .ok t ↔ s.nleaf.toNat < 257 ∧ t = bumpLeaves s := by
  unfold countLeaf
  by_cases h : s.nleaf.toNat < 257 <;> simp [h, eq_comm]

/-- Everything `addCounts` can answer. -/
theorem addCounts_ok_iff {a b c : Count} :
    addCounts a b = .ok c ↔ a.toNat + b.toNat < 2 ^ 41 ∧ c = a + b := by
  unfold addCounts
  split <;> rename_i h <;> simp only [Except.ok.injEq, h, true_and, false_and, reduceCtorEq]
  exact eq_comm

/-- The sum is exact where `addCounts` answers it. -/
theorem addCounts_exact {a b c : Count} (h : addCounts a b = .ok c) : c.toNat = a.toNat + b.toNat := by
  obtain ⟨hlt, rfl⟩ := addCounts_ok_iff.1 h
  rw [BitVec.toNat_add, Nat.mod_eq_of_lt hlt]

/-- Everything `outcomeOf` can answer. -/
theorem outcomeOf_next_iff {r : Except Fault State} {t : State} : outcomeOf r = .next t ↔ r = .ok t := by
  cases r <;> simp [outcomeOf]

@[simp] theorem outcomeOf_ok (s : State) : outcomeOf (.ok s) = .next s := rfl

@[simp] theorem outcomeOf_error (f : Fault) : outcomeOf (.error f) = .fault f := rfl

end Sys2Proof.Machine
end

