-- ==== Sys2Proof/Laws/Queue.lean ====
section
/-! SUPPORT. Priority-insert (41_tree_builder.md R100, R101) and the node counts it reads. -/

namespace Sys2Proof.Machine

open Sys2Proof.Safety

/-! ## Reading nodes -/

theorem cntAt_of_get {nm : List (Nat × Node)} {i : Nat} {n : Node} (h : storeGet nm i = some n) :
    cntAt nm i = (nodeCnt n).toNat := by
  simp [cntAt, h]

theorem cntAt_put_other (nm : List (Nat × Node)) {i k : Nat} (n : Node) (h : i ≠ k) :
    cntAt (storePut nm k n) i = cntAt nm i := by
  simp [cntAt, storeGet_put_other nm n h]

theorem cntAt_put_same (nm : List (Nat × Node)) (k : Nat) (n : Node) :
    cntAt (storePut nm k n) k = (nodeCnt n).toNat := by
  simp [cntAt, storeGet_put_same]

/-- A node below `NNODE <= 513` that is written can be read. -/
theorem readNode_of_get {nm : List (Nat × Node)} {i : NodeIdx} {n : Node} (hi : i.toNat < 513)
    (h : storeGet nm i.toNat = some n) : readNode nm i = .ok n :=
  readNode_ok_iff.2 ⟨hi, h⟩

/-! ## The scan -/

/-- What `PriorityInsert` does to a queue whose nodes can be read: the new node goes after a first part whose counts are all
`<= c` and before a rest that is empty or starts with a count `> c` (41_tree_builder.md R101). -/
theorem insertByCount_spec (nm : List (Nat × Node)) (c : Count) (k : NodeIdx) (q : List NodeIdx)
    (h : ∀ j ∈ q, ∃ n, readNode nm j = .ok n) :
    ∃ l1 l2, q = l1 ++ l2 ∧ insertByCount nm c k q = .ok (l1 ++ k :: l2) ∧
      (∀ j ∈ l1, cntAt nm j.toNat ≤ c.toNat) ∧ ∀ j t, l2 = j :: t → c.toNat < cntAt nm j.toNat := by
  induction q with
  | nil => exact ⟨[], [], rfl, rfl, by simp, by simp⟩
  | cons j q ih =>
    obtain ⟨n, hn⟩ := h j (by simp)
    have hc : cntAt nm j.toNat = (nodeCnt n).toNat := cntAt_of_get (readNode_ok_iff.1 hn).2
    by_cases hle : nodeCnt n ≤ c
    · obtain ⟨l1, l2, hq, hi, h1, h2⟩ := ih fun i hi => h i (List.mem_cons_of_mem _ hi)
      refine ⟨j :: l1, l2, by simp [hq], ?_, ?_, h2⟩
      · simp [insertByCount, hn, hle, hi, bind, Except.bind]
      · intro i hi
        rcases List.mem_cons.1 hi with rfl | hi
        · rw [hc]; exact hle
        · exact h1 i hi
    · refine ⟨[], j :: q, rfl, ?_, by simp, ?_⟩
      · simp [insertByCount, hn, hle, bind, Except.bind]
      · rintro i t ht
        obtain ⟨rfl, -⟩ := List.cons.inj ht
        rw [hc]
        exact Nat.lt_of_not_le hle

/-- What `PriorityInsert` does when its node and the queue's nodes can be read and a slot is free. -/
theorem priorityInsert_spec {k : NodeIdx} {s : State} {n : Node} (hk : readNode s.nm k = .ok n)
    (h : ∀ j ∈ s.pq, ∃ m, readNode s.nm j = .ok m) (hl : s.pq.length < 257) :
    ∃ l1 l2, s.pq = l1 ++ l2 ∧ priorityInsert k s = .ok (setQueue (l1 ++ k :: l2) s) ∧
      (∀ j ∈ l1, cntAt s.nm j.toNat ≤ (nodeCnt n).toNat) ∧ ∀ j t, l2 = j :: t → (nodeCnt n).toNat < cntAt s.nm j.toNat := by
  obtain ⟨l1, l2, hq, hi, h1, h2⟩ := insertByCount_spec s.nm (nodeCnt n) k s.pq h
  refine ⟨l1, l2, hq, ?_, h1, h2⟩
  simp [priorityInsert, hk, hl, hi, bind, Except.bind]

/-- An insertion of a node newer than all queued keeps the queue's order (41_tree_builder.md R100). -/
theorem insert_keeps_order {nm : List (Nat × Node)} {k : NodeIdx} {l1 l2 : List NodeIdx}
    (hs : (l1 ++ l2).Pairwise (Before nm)) (hk : ∀ j ∈ l1, j.toNat < k.toNat)
    (h1 : ∀ j ∈ l1, cntAt nm j.toNat ≤ cntAt nm k.toNat) (h2 : ∀ j t, l2 = j :: t → cntAt nm k.toNat < cntAt nm j.toNat) :
    (l1 ++ k :: l2).Pairwise (Before nm) := by
  rw [List.pairwise_append] at hs ⊢
  obtain ⟨hs1, hs2, hs12⟩ := hs
  have hk2 : ∀ j ∈ l2, cntAt nm k.toNat < cntAt nm j.toNat := by
    cases l2 with
    | nil => simp
    | cons m t =>
      intro j hj
      have hm := h2 m t rfl
      rcases List.mem_cons.1 hj with rfl | hj
      · exact hm
      · rcases (List.pairwise_cons.1 hs2).1 j hj with h | h <;> omega
  refine ⟨hs1, List.pairwise_cons.2 ⟨fun j hj => Or.inl (hk2 j hj), hs2⟩, fun i hi j hj => ?_⟩
  rcases List.mem_cons.1 hj with rfl | hj
  · have hle := h1 i hi
    have hlt := hk i hi
    unfold Before
    omega
  · exact hs12 i hi j hj

/-- The queue's order depends only on the counts of the queued nodes. -/
theorem pairwise_before_congr {nm nm' : List (Nat × Node)} {q : List NodeIdx}
    (h : ∀ j ∈ q, cntAt nm' j.toNat = cntAt nm j.toNat) (hs : q.Pairwise (Before nm)) : q.Pairwise (Before nm') := by
  refine hs.imp_of_mem fun {i j} hi hj hb => ?_
  unfold Before at *
  rw [h i hi, h j hj]
  exact hb

end Sys2Proof.Machine
end

