-- ==== Sys2Proof/Laws/Tree.lean ====
section
/-! SUPPORT. PUSH and the merges keep `TreeOk` and complete (41_tree_builder.md R102, R103, R107). -/

namespace Sys2Proof.Safety

open Sys2Proof.Machine

/-! ## Lists over the node memory after a write at `NNODE` -/

theorem childrenAt_put_other (nm : List (Nat × Node)) {i k : Nat} (n : Node) (h : i ≠ k) :
    childrenAt (storePut nm k n) i = childrenAt nm i := by
  simp [childrenAt, storeGet_put_other nm n h]

theorem childList_succ (nm : List (Nat × Node)) (k : Nat) : childList nm (k + 1) = childList nm k ++ childrenAt nm k := by
  simp [childList, List.range_succ]

theorem childList_congr {nm nm' : List (Nat × Node)} {k : Nat} (h : ∀ i < k, storeGet nm' i = storeGet nm i) :
    childList nm' k = childList nm k := by
  induction k with
  | zero => rfl
  | succ k ih =>
    rw [childList_succ, childList_succ, ih fun i hi => h i (by omega)]
    simp [childrenAt, h k (by omega)]

theorem leafTotal_congr {nm nm' : List (Nat × Node)} {k : Nat} (h : ∀ i < k, cntAt nm' i = cntAt nm i) :
    leafTotal nm' k = leafTotal nm k := by
  unfold leafTotal
  congr 1
  exact List.map_congr_left fun i hi => h i (List.mem_range.1 hi)

theorem leafTotal_succ (nm : List (Nat × Node)) (k : Nat) : leafTotal nm (k + 1) = leafTotal nm k + cntAt nm k := by
  simp [leafTotal, List.range_succ]

theorem leafTotal_le {nm : List (Nat × Node)} {k : Nat} (h : ∀ i < k, cntAt nm i < 2 ^ 32) :
    leafTotal nm k ≤ k * (2 ^ 32 - 1) := by
  induction k with
  | zero => simp [leafTotal]
  | succ k ih =>
    rw [leafTotal_succ]
    have h1 := ih fun i hi => h i (by omega)
    have h2 := h k (by omega)
    rw [Nat.succ_mul]
    omega

/-! ## `SEEN` -/

theorem getLsbD_setSeen (seen : BitVec 257) (k i : Nat) (hi : i < 257) :
    (seen ||| (1#257 <<< k)).getLsbD i = (seen.getLsbD i || decide (i = k)) := by
  rw [BitVec.getLsbD_or, BitVec.getLsbD_shiftLeft]
  by_cases h : i = k
  · subst h; simp [hi]
  · rcases Nat.lt_or_ge i k with hlt | hge
    · simp [h, hlt, hi]
    · have : (1#257).getLsbD (i - k) = false := by
        rw [BitVec.getLsbD_one]; simp; omega
      simp [h, this]

theorem countP_range_insert (p : Nat → Bool) (a : Nat) (ha : p a = false) (n : Nat) :
    (List.range n).countP (fun i => p i || decide (i = a)) = (List.range n).countP p + if a < n then 1 else 0 := by
  induction n with
  | zero => simp
  | succ n ih =>
    rw [List.range_succ, List.countP_append, List.countP_append, ih]
    by_cases h : n = a
    · subst h; simp [ha]
    · by_cases hlt : a < n
      · have : a < n + 1 := by omega
        simp [h, hlt, this]; omega
      · have : ¬ a < n + 1 := by omega
        simp [h, hlt, this]

/-- Setting the bit of an unseen symbol counts one more (10_state.md R38 item 2). -/
theorem seenCount_setSeen {seen : BitVec 257} {k : Nat} (hk : k < 257) (hu : seen.getLsbD k = false) :
    seenCount (seen ||| (1#257 <<< k)) = seenCount seen + 1 := by
  unfold seenCount
  have : (List.range Config.nsym).countP (fun i => (seen ||| (1#257 <<< k)).getLsbD i) =
      (List.range Config.nsym).countP fun i => seen.getLsbD i || decide (i = k) :=
    List.countP_congr fun i hi => by rw [getLsbD_setSeen seen k i (by simpa using hi)]
  rw [this, countP_range_insert (fun i => seen.getLsbD i) k hu]
  simp [hk]

theorem seenCount_le (seen : BitVec 257) : seenCount seen ≤ 257 := by
  unfold seenCount
  exact (List.countP_le_length).trans (by simp)

/-! ## Consequences of `TreeOk` -/

theorem TreeOk.readable {s : State} (h : TreeOk s) {j : NodeIdx} (hj : j.toNat < s.nnode.toNat) :
    ∃ n, readNode s.nm j = .ok n := by
  obtain ⟨n, hn⟩ := Option.isSome_iff_exists.1 ((h.nodes.1 j.toNat).2 hj)
  exact ⟨n, readNode_of_get (by have := h.bounds.2.1; omega) hn⟩

theorem TreeOk.queue_readable {s : State} (h : TreeOk s) {j : NodeIdx} (hj : j ∈ s.pq) : ∃ n, readNode s.nm j = .ok n :=
  h.readable (h.queue.1 j hj)

theorem TreeOk.leaf_cnt_lt {s : State} (h : TreeOk s) {i : Nat} (hi : i < s.nleaf.toNat) : cntAt s.nm i < 2 ^ 32 := by
  obtain ⟨sym, c, hg, -, hc, -⟩ := h.leaves.1 i hi
  rw [cntAt_of_get hg]
  exact hc

/-- All counts pushed add up to less than `2 ^ 41` (41_tree_builder.md R103). -/
theorem TreeOk.total_lt {s : State} (h : TreeOk s) : leafTotal s.nm s.nleaf.toNat < 2 ^ 41 := by
  have h1 := leafTotal_le (nm := s.nm) (k := s.nleaf.toNat) fun i hi => h.leaf_cnt_lt hi
  have h2 : s.nleaf.toNat * (2 ^ 32 - 1) ≤ 257 * (2 ^ 32 - 1) := Nat.mul_le_mul_right _ h.bounds.1
  omega

theorem childrenAt_length_le (nm : List (Nat × Node)) (i : Nat) : (childrenAt nm i).length ≤ 2 := by
  unfold childrenAt
  split <;> simp

/-- `NLEAF` leaves and two children per internal node: the queue's length (10_state.md R38 items 5 and 6). -/
theorem TreeOk.queue_length {s : State} (h : TreeOk s) : s.pq.length + s.nnode.toNat = 2 * s.nleaf.toNat := by
  have hlen := h.forest.length_eq
  have key : ∀ k, s.nleaf.toNat ≤ k → k ≤ s.nnode.toNat → (childList s.nm k).length = 2 * (k - s.nleaf.toNat) := by
    intro k hk
    induction k, hk using Nat.le_induction with
    | base =>
      intro _
      have : ∀ m ≤ s.nleaf.toNat, childList s.nm m = [] := by
        intro m
        induction m with
        | zero => intro _; rfl
        | succ m ih =>
          intro hm
          obtain ⟨sym, c, hg, -⟩ := h.leaves.1 m (by omega)
          rw [childList_succ, ih (by omega)]
          simp [childrenAt, hg]
      rw [this _ le_rfl]; simp
    | succ k hk ih =>
      intro hk2
      obtain ⟨c, l, r, hg, -⟩ := h.nodes.2.2 k hk (by omega)
      rw [childList_succ, List.length_append, ih (by omega)]
      simp [childrenAt, hg]; omega
  have hc := key _ h.nodes.2.1 le_rfl
  simp only [List.length_append, List.length_map, List.length_range] at hlen
  have := h.nodes.2.1
  omega

/-! ## PUSH -/

/-- The leaf PUSH writes. -/
def pushedLeaf (sym : Symbol) (count : Count32) : Node := .leaf sym (leafCount count)

theorem nodeCnt_pushedLeaf (sym : Symbol) (count : Count32) : (nodeCnt (pushedLeaf sym count)).toNat = count.toNat := by
  have : count.toNat < 2 ^ 41 := by have := count.isLt; omega
  simp [pushedLeaf, nodeCnt, leafCount, BitVec.toNat_setWidth]; omega

/-- The state PUSH leaves, but for the queue. -/
def pushed (sym : Symbol) (count : Count32) (s : State) : State := bumpLeaves (setSeen sym (putNode (pushedLeaf sym count) s))

theorem isSome_put_iff {nm : List (Nat × Node)} {N : Nat} (n : Node) (h : ∀ i, (storeGet nm i).isSome = true ↔ i < N) (i : Nat) :
    (storeGet (storePut nm N n) i).isSome = true ↔ i < N + 1 := by
  rw [storeGet_put]
  split
  · simp; omega
  · rw [h i]; omega

theorem nnode_succ {x : NodeIdx} (h : x.toNat < 513) : (x + 1).toNat = x.toNat + 1 := by
  rw [BitVec.toNat_add, Nat.mod_eq_of_lt (by simp; omega)]; simp

theorem nleaf_succ {x : BitVec 9} (h : x.toNat < 257) : (x + 1).toNat = x.toNat + 1 := by
  rw [BitVec.toNat_add, Nat.mod_eq_of_lt (by simp; omega)]; simp

/-- An unseen symbol leaves room for its leaf (41_tree_builder.md R102 corner case c). -/
theorem nleaf_lt_of_unseen {s : State} (h : TreeOk s) {sym : Symbol} (hs : sym.toNat < 257)
    (hu : s.seen.getLsbD sym.toNat = false) : s.nleaf.toNat < 257 := by
  have h1 := seenCount_setSeen hs hu
  have h2 := seenCount_le (s.seen ||| (1#257 <<< sym.toNat))
  have h3 : s.nleaf.toNat = seenCount s.seen := h.seenCounted
  omega

/-- PUSH's effect, in LOAD on an unseen symbol: it completes and keeps `TreeOk` (41_tree_builder.md R101, R102). -/
theorem pushLeaf_spec {s : State} (h : TreeOk s) (hload : s.nnode.toNat = s.nleaf.toNat) {sym : Symbol} (count : Count32)
    (hs : sym.toNat < 257) (hu : s.seen.getLsbD sym.toNat = false) :
    ∃ l1 l2, s.pq = l1 ++ l2 ∧ pushLeaf sym count s = .ok (setQueue (l1 ++ s.nnode :: l2) (pushed sym count s)) ∧
      (∀ j ∈ l1, cntAt s.nm j.toNat ≤ count.toNat) ∧ (∀ j t, l2 = j :: t → count.toNat < cntAt s.nm j.toNat) ∧
      TreeOk (setQueue (l1 ++ s.nnode :: l2) (pushed sym count s)) := by
  have hnl := nleaf_lt_of_unseen h hs hu
  have hN : s.nnode.toNat < 513 := by omega
  have hlen := h.queue_length
  have hnn := nnode_succ hN
  have hll := nleaf_succ hnl
  have hcnt := nodeCnt_pushedLeaf sym count
  have hother : ∀ j ∈ s.pq, cntAt (storePut s.nm s.nnode.toNat (pushedLeaf sym count)) j.toNat = cntAt s.nm j.toNat :=
    fun j hj => cntAt_put_other _ _ (by have := h.queue.1 j hj; omega)
  have hk : readNode (pushed sym count s).nm s.nnode = .ok (pushedLeaf sym count) :=
    readNode_of_get hN (storeGet_put_same _ _ _)
  have hq : ∀ j ∈ (pushed sym count s).pq, ∃ m, readNode (pushed sym count s).nm j = .ok m := by
    intro j hj
    have hj' : j ∈ s.pq := hj
    obtain ⟨n, hn⟩ := h.queue_readable hj'
    refine ⟨n, readNode_of_get (readNode_ok_iff.1 hn).1 ?_⟩
    exact (storeGet_put_other _ _ (by have := h.queue.1 j hj'; omega)).trans (readNode_ok_iff.1 hn).2
  obtain ⟨l1, l2, hpq, hins, h1, h2⟩ := priorityInsert_spec hk hq (by
    have : (pushed sym count s).pq = s.pq := rfl
    rw [this]; omega)
  have hpq' : s.pq = l1 ++ l2 := hpq
  have h1' : ∀ j ∈ l1, cntAt s.nm j.toNat ≤ count.toNat := by
    intro j hj
    have := h1 j hj
    rw [hcnt] at this
    rwa [← hother j (by rw [hpq']; simp [hj])]
  have h2' : ∀ j t, l2 = j :: t → count.toNat < cntAt s.nm j.toNat := by
    intro j t hjt
    have := h2 j t hjt
    rw [hcnt] at this
    rwa [← hother j (by rw [hpq', hjt]; simp)]
  refine ⟨l1, l2, hpq', ?_, h1', h2', ?_⟩
  · have ha : allocNode (.leaf sym (leafCount count)) s = .ok (putNode (pushedLeaf sym count) s) :=
      allocNode_ok_iff.2 ⟨hN, rfl⟩
    have hc : countLeaf (setSeen sym (putNode (pushedLeaf sym count) s)) = .ok (pushed sym count s) :=
      countLeaf_ok_iff.2 ⟨hnl, rfl⟩
    simp only [pushLeaf, ha, bind, Except.bind, hc]
    exact hins
  · set t := setQueue (l1 ++ s.nnode :: l2) (pushed sym count s) with ht
    have tnm : t.nm = storePut s.nm s.nnode.toNat (pushedLeaf sym count) := rfl
    have tnn : t.nnode.toNat = s.nnode.toNat + 1 := hnn
    have tnl : t.nleaf.toNat = s.nleaf.toNat + 1 := hll
    have tpq : t.pq = l1 ++ s.nnode :: l2 := rfl
    have tseen : t.seen = s.seen ||| (1#257 <<< sym.toNat) := rfl
    have hold : ∀ i < s.nnode.toNat, storeGet t.nm i = storeGet s.nm i := fun i hi => by
      rw [tnm]; exact storeGet_put_other _ _ (by omega)
    have hnew : storeGet t.nm s.nnode.toNat = some (pushedLeaf sym count) := by rw [tnm]; exact storeGet_put_same _ _ _
    have hcold : ∀ i < s.nnode.toNat, cntAt t.nm i = cntAt s.nm i := fun i hi => by simp [cntAt, hold i hi]
    have hcnew : cntAt t.nm s.nnode.toNat = count.toNat := by rw [cntAt_of_get hnew, hcnt]
    have hseen : ∀ i < 257, t.seen.getLsbD i = (s.seen.getLsbD i || decide (i = sym.toNat)) := fun i hi => by
      rw [tseen]; exact getLsbD_setSeen _ _ _ hi
    refine ⟨⟨by omega, by omega, ?_⟩, ?_, ⟨?_, ?_⟩, ⟨?_, by omega, ?_⟩, ⟨?_, ?_⟩, ?_, ?_, ?_⟩
    · have : t.pq.length = s.pq.length + 1 := by rw [tpq, hpq']; simp; omega
      omega
    · show t.nleaf.toNat = seenCount t.seen
      rw [tnl, tseen, seenCount_setSeen hs hu]
      have : s.nleaf.toNat = seenCount s.seen := h.seenCounted
      omega
    · intro i hi
      by_cases hlast : i = s.nnode.toNat
      · subst hlast
        refine ⟨sym, leafCount count, hnew, hs, ?_, ?_⟩
        · have := count.isLt
          have h2 : (leafCount count).toNat = count.toNat := hcnt
          omega
        · rw [hseen _ hs]; simp
      · obtain ⟨sy, c, hg, hsy, hc, hse⟩ := h.leaves.1 i (by omega)
        refine ⟨sy, c, (hold i (by omega)).trans hg, hsy, hc, ?_⟩
        rw [hseen _ hsy, hse]; rfl
    · intro i hi j hj hij
      have hsymAt : ∀ i, i < s.nnode.toNat → leafSymAt t.nm i = leafSymAt s.nm i := fun i hi => by simp [leafSymAt, hold i hi]
      have hsymNew : leafSymAt t.nm s.nnode.toNat = some sym := by simp [leafSymAt, hnew, pushedLeaf]
      have hneq : ∀ i, i < s.nnode.toNat → leafSymAt s.nm i ≠ some sym := by
        intro i hi hc
        obtain ⟨sy, c, hg, -, -, hse⟩ := h.leaves.1 i (by omega)
        simp only [leafSymAt, hg, Option.some.injEq] at hc
        rw [hc, hu] at hse
        cases hse
      by_cases hi2 : i = s.nnode.toNat <;> by_cases hj2 : j = s.nnode.toNat
      · omega
      · rw [hi2, hsymNew, hsymAt j (by omega)] at hij
        exact absurd hij.symm (hneq j (by omega))
      · rw [hj2, hsymNew, hsymAt i (by omega)] at hij
        exact absurd hij (hneq i (by omega))
      · rw [hsymAt i (by omega), hsymAt j (by omega)] at hij
        exact h.leaves.2 i (by omega) j (by omega) hij
    · intro i; rw [tnm, tnn]; exact isSome_put_iff _ h.nodes.1 i
    · intro i hi hi2; omega
    · intro j hj
      rw [tpq] at hj
      rw [tnn]
      rcases List.mem_append.1 hj with hj | hj
      · have := h.queue.1 j (by rw [hpq']; simp [hj]); omega
      · rcases List.mem_cons.1 hj with rfl | hj
        · omega
        · have := h.queue.1 j (by rw [hpq']; simp [hj]); omega
    · have hmem : ∀ j ∈ l1 ++ l2, j.toNat < s.nnode.toNat := fun j hj => h.queue.1 j (by rw [hpq']; exact hj)
      have hs' : (l1 ++ l2).Pairwise (Before t.nm) :=
        pairwise_before_congr (fun j hj => hcold _ (hmem j hj)) (hpq' ▸ h.queue.2)
      refine insert_keeps_order hs' (fun j hj => hmem j (by simp [hj])) (fun j hj => ?_) fun j l hjl => ?_
      · rw [hcold _ (hmem j (by simp [hj])), hcnew]; exact h1' j hj
      · rw [hcold _ (hmem j (by simp [hjl])), hcnew]; exact h2' j l hjl
    · show ((t.pq.map (·.toNat)) ++ childList t.nm t.nnode.toNat).Perm (List.range t.nnode.toNat)
      rw [tnn, tpq, List.range_succ, childList_succ, childList_congr hold]
      have hch : childrenAt t.nm s.nnode.toNat = [] := by simp [childrenAt, hnew, pushedLeaf]
      rw [hch, List.append_nil, List.map_append, List.map_cons]
      have hf := h.forest
      unfold ForestOk at hf
      rw [hpq', List.map_append] at hf
      exact ((List.perm_middle.append_right _).trans (hf.cons _)).trans (List.perm_append_singleton _ _).symm
    · show (t.pq.map fun k => cntAt t.nm k.toNat).sum = leafTotal t.nm t.nleaf.toNat
      have hsum : (s.pq.map fun k => cntAt t.nm k.toNat).sum = leafTotal s.nm s.nleaf.toNat := by
        rw [← h.counts]
        congr 1
        exact List.map_congr_left fun j hj => hcold _ (h.queue.1 j hj)
      rw [tnl, leafTotal_succ, leafTotal_congr fun i hi => hcold i (by omega), ← hload, hcnew, hload, ← hsum, tpq, hpq']
      simp only [List.map_append, List.map_cons, List.sum_append, List.sum_cons, hcnew]
      omega
    · rw [tnm]; exact storePut_wf _ h.nmWf hN

/-! ## The merge -/

/-- The state a merge leaves, but for the queue: the new node over `a` and `b` and the rest `q` of the queue. -/
def merged (c : Count) (a b : NodeIdx) (q : List NodeIdx) (s : State) : State := putNode (.inner c a b) (setQueue q s)

/-- A merge of a queue of two or more: it completes and keeps `TreeOk` (41_tree_builder.md R103, R107). -/
theorem mergeStep_spec {s : State} (h : TreeOk s) {a b : NodeIdx} {q : List NodeIdx} (hpq : s.pq = a :: b :: q) :
    ∃ c l1 l2, c.toNat = cntAt s.nm a.toNat + cntAt s.nm b.toNat ∧ q = l1 ++ l2 ∧
      mergeStep s = .ok (setQueue (l1 ++ s.nnode :: l2) (merged c a b q s)) ∧
      (∀ j ∈ l1, cntAt s.nm j.toNat ≤ c.toNat) ∧ (∀ j t, l2 = j :: t → c.toNat < cntAt s.nm j.toNat) ∧
      TreeOk (setQueue (l1 ++ s.nnode :: l2) (merged c a b q s)) := by
  have hlen := h.queue_length
  have hpl : s.pq.length = q.length + 2 := by rw [hpq]; rfl
  have hnlb := h.bounds.1
  have hnlnn := h.nodes.2.1
  have hN : s.nnode.toNat < 513 := by omega
  have hnn := nnode_succ hN
  have hqa : a.toNat < s.nnode.toNat := h.queue.1 a (by rw [hpq]; simp)
  have hqb : b.toNat < s.nnode.toNat := h.queue.1 b (by rw [hpq]; simp)
  have hqq : ∀ j ∈ q, j.toNat < s.nnode.toNat := fun j hj => h.queue.1 j (by rw [hpq]; simp [hj])
  obtain ⟨na, hna⟩ := h.readable hqa
  obtain ⟨nb, hnb⟩ := h.readable hqb
  have hca := cntAt_of_get (readNode_ok_iff.1 hna).2
  have hcb := cntAt_of_get (readNode_ok_iff.1 hnb).2
  have hsum : cntAt s.nm a.toNat + (cntAt s.nm b.toNat + (q.map fun k => cntAt s.nm k.toNat).sum) =
      leafTotal s.nm s.nleaf.toNat := by
    rw [← h.counts, hpq]; simp
  have htot := h.total_lt
  have hadd : addCounts (nodeCnt na) (nodeCnt nb) = .ok (nodeCnt na + nodeCnt nb) :=
    addCounts_ok_iff.2 ⟨by omega, rfl⟩
  have hc := addCounts_exact hadd
  set c := nodeCnt na + nodeCnt nb with hcdef
  rw [← hca, ← hcb] at hc
  have hcn : (nodeCnt (.inner c a b)).toNat = c.toNat := rfl
  have hother : ∀ j : NodeIdx, j.toNat < s.nnode.toNat → cntAt (storePut s.nm s.nnode.toNat (.inner c a b)) j.toNat = cntAt s.nm j.toNat :=
    fun j hj => cntAt_put_other _ _ (by omega)
  have hk : readNode (merged c a b q s).nm s.nnode = .ok (.inner c a b) :=
    readNode_of_get hN (storeGet_put_same _ _ _)
  have hq : ∀ j ∈ (merged c a b q s).pq, ∃ m, readNode (merged c a b q s).nm j = .ok m := by
    intro j hj
    have hj' : j ∈ q := hj
    obtain ⟨n, hn⟩ := h.readable (hqq j hj')
    refine ⟨n, readNode_of_get (readNode_ok_iff.1 hn).1 ?_⟩
    exact (storeGet_put_other s.nm (k := j.toNat) (i := s.nnode.toNat) _ (by have := hqq j hj'; omega)).trans (readNode_ok_iff.1 hn).2
  obtain ⟨l1, l2, hl, hins, h1, h2⟩ := priorityInsert_spec hk hq (by
    have : (merged c a b q s).pq = q := rfl
    rw [this]; omega)
  have hl' : q = l1 ++ l2 := hl
  have h1' : ∀ j ∈ l1, cntAt s.nm j.toNat ≤ c.toNat := by
    intro j hj
    have := h1 j hj
    rwa [← hother j (hqq j (by rw [hl']; simp [hj]))]
  have h2' : ∀ j t, l2 = j :: t → c.toNat < cntAt s.nm j.toNat := by
    intro j t hjt
    have := h2 j t hjt
    rwa [← hother j (hqq j (by rw [hl', hjt]; simp))]
  refine ⟨c, l1, l2, hc, hl', ?_, h1', h2', ?_⟩
  · have ha : allocNode (.inner c a b) (setQueue q s) = .ok (merged c a b q s) := allocNode_ok_iff.2 ⟨hN, rfl⟩
    simp only [mergeStep, hpq, hna, hnb, hadd, ha, bind, Except.bind]
    exact hins
  · set t := setQueue (l1 ++ s.nnode :: l2) (merged c a b q s) with ht
    have tnm : t.nm = storePut s.nm s.nnode.toNat (.inner c a b) := rfl
    have tnn : t.nnode.toNat = s.nnode.toNat + 1 := hnn
    have tnl : t.nleaf = s.nleaf := rfl
    have tpq : t.pq = l1 ++ s.nnode :: l2 := rfl
    have tseen : t.seen = s.seen := rfl
    have hold : ∀ i < s.nnode.toNat, storeGet t.nm i = storeGet s.nm i := fun i hi => by
      rw [tnm]; exact storeGet_put_other _ _ (by omega)
    have hnew : storeGet t.nm s.nnode.toNat = some (.inner c a b) := by rw [tnm]; exact storeGet_put_same _ _ _
    have hcold : ∀ i < s.nnode.toNat, cntAt t.nm i = cntAt s.nm i := fun i hi => by simp [cntAt, hold i hi]
    have hcnew : cntAt t.nm s.nnode.toNat = c.toNat := by rw [cntAt_of_get hnew, hcn]
    have hsymAt : ∀ i, i < s.nnode.toNat → leafSymAt t.nm i = leafSymAt s.nm i := fun i hi => by simp [leafSymAt, hold i hi]
    refine ⟨⟨by rw [tnl]; exact hnlb, by omega, ?_⟩, h.seenCounted, ⟨?_, ?_⟩, ⟨?_, by rw [tnl]; omega, ?_⟩, ⟨?_, ?_⟩, ?_, ?_, ?_⟩
    · have : t.pq.length = q.length + 1 := by rw [tpq, hl']; simp; omega
      omega
    · intro i hi
      rw [tnl] at hi
      obtain ⟨sy, cc, hg, hsy, hcc, hse⟩ := h.leaves.1 i hi
      exact ⟨sy, cc, (hold i (by omega)).trans hg, hsy, hcc, hse⟩
    · intro i hi j hj hij
      rw [tnl] at hi hj
      rw [hsymAt i (by omega), hsymAt j (by omega)] at hij
      exact h.leaves.2 i hi j hj hij
    · intro i; rw [tnm, tnn]; exact isSome_put_iff _ h.nodes.1 i
    · intro i hi hi2
      rw [tnl] at hi
      by_cases hlast : i = s.nnode.toNat
      · subst hlast
        exact ⟨c, a, b, hnew, hqa, hqb, by rw [hcold _ hqa, hcold _ hqb]; exact hc⟩
      · obtain ⟨cc, l, r, hg, hlt, hrt, hcs⟩ := h.nodes.2.2 i hi (by omega)
        exact ⟨cc, l, r, (hold i (by omega)).trans hg, hlt, hrt, by rw [hcold _ (by omega), hcold _ (by omega)]; exact hcs⟩
    · intro j hj
      rw [tpq] at hj
      rw [tnn]
      rcases List.mem_append.1 hj with hj | hj
      · have := hqq j (by rw [hl']; simp [hj]); omega
      · rcases List.mem_cons.1 hj with rfl | hj
        · omega
        · have := hqq j (by rw [hl']; simp [hj]); omega
    · have hmem : ∀ j ∈ l1 ++ l2, j.toNat < s.nnode.toNat := fun j hj => hqq j (by rw [hl']; exact hj)
      have hsq : (l1 ++ l2).Pairwise (Before s.nm) := by
        have hp := h.queue.2
        rw [hpq, hl'] at hp
        exact (List.pairwise_cons.1 (List.pairwise_cons.1 hp).2).2
      refine insert_keeps_order (pairwise_before_congr (fun j hj => hcold _ (hmem j hj)) hsq)
        (fun j hj => hmem j (by simp [hj])) (fun j hj => ?_) fun j l hjl => ?_
      · rw [hcold _ (hmem j (by simp [hj])), hcnew]; exact h1' j hj
      · rw [hcold _ (hmem j (by simp [hjl])), hcnew]; exact h2' j l hjl
    · show ((t.pq.map (·.toNat)) ++ childList t.nm t.nnode.toNat).Perm (List.range t.nnode.toNat)
      rw [tnn, tpq, List.range_succ, childList_succ, childList_congr hold]
      have hch : childrenAt t.nm s.nnode.toNat = [a.toNat, b.toNat] := by simp [childrenAt, hnew]
      have hf := h.forest
      unfold ForestOk at hf
      rw [hpq, hl'] at hf
      simp only [List.map_cons, List.map_append, List.cons_append, List.append_assoc] at hf
      rw [hch, List.map_append, List.map_cons]
      have hperm : (List.map (·.toNat) l1 ++ s.nnode.toNat :: List.map (·.toNat) l2 ++
          (childList s.nm s.nnode.toNat ++ [a.toNat, b.toNat])).Perm
          (s.nnode.toNat :: a.toNat :: b.toNat :: (List.map (·.toNat) l1 ++ (List.map (·.toNat) l2 ++ childList s.nm s.nnode.toNat))) := by
        rw [← List.append_assoc]
        refine (List.perm_append_comm).trans ?_
        simp only [List.cons_append, List.nil_append, List.append_assoc]
        exact ((List.perm_middle.cons _).cons _).trans ((List.Perm.swap _ _ _).cons _ |>.trans (List.Perm.swap _ _ _))
      exact (hperm.trans (hf.cons _)).trans (List.perm_append_singleton _ _).symm
    · show (t.pq.map fun k => cntAt t.nm k.toNat).sum = leafTotal t.nm t.nleaf.toNat
      have hqs : (q.map fun k => cntAt t.nm k.toNat).sum = (q.map fun k => cntAt s.nm k.toNat).sum := by
        congr 1
        exact List.map_congr_left fun j hj => hcold _ (hqq j hj)
      rw [tnl, leafTotal_congr fun i hi => hcold i (by omega), ← hsum, ← hqs, tpq, hl']
      simp only [List.map_append, List.map_cons, List.sum_append, List.sum_cons, hcnew]
      omega
    · rw [tnm]; exact storePut_wf _ h.nmWf hN

/-- A merge of a queue of two or more, as `MergeOf` says it (41_tree_builder.md R103). -/
theorem mergeStep_mergeOf {s : State} (h : TreeOk s) (hq : 2 ≤ s.pq.length) :
    ∃ t, mergeStep s = .ok t ∧ MergeOf s t ∧ TreeOk t := by
  obtain ⟨a, b, q, hpq⟩ : ∃ a b q, s.pq = a :: b :: q := by
    match hp : s.pq with
    | [] => simp [hp] at hq
    | [a] => simp [hp] at hq
    | a :: b :: q => exact ⟨a, b, q, rfl⟩
  obtain ⟨c, l1, l2, hc, hl, hstep, h1, h2, ht⟩ := mergeStep_spec h hpq
  have hord := h.queue.2
  rw [hpq] at hord
  obtain ⟨ha, hb⟩ := List.pairwise_cons.1 hord
  have hN : s.nnode.toNat < 513 := by
    have h3 := h.queue_length
    have h4 := h.bounds.1
    omega
  exact ⟨_, hstep, ⟨a, b, q, l1, l2, c, hpq, ha b (by simp), (List.pairwise_cons.1 hb).1, hc, storeGet_put_same _ _ _,
    fun i hi => storeGet_put_other _ _ hi, hl, h1, h2, nnode_succ hN, rfl⟩, ht⟩

/-- A merge lowers `QLEN` by one (41_tree_builder.md R103). -/
theorem MergeOf.length {s t : State} (h : MergeOf s t) : t.pq.length + 1 = s.pq.length := by
  obtain ⟨a, b, q, l1, l2, c, hpq, -, -, -, -, -, hl, -, -, -, ht⟩ := h
  rw [ht, hpq, hl]
  simp
  omega

end Sys2Proof.Safety
end

