-- ==== Sys2Proof/Laws/Codes.lean ====
section
/-! SUPPORT. Walking the tree, and what `GenCodes` writes (42_code_table.md R120 to R126). -/

namespace Sys2Proof.Safety

open Sys2Proof.Machine

/-! ## Entries and paths -/

theorem codeEntryOf_len {p : Path} (h : p.length ≤ 256) : (codeEntryOf p).len.toNat = p.length := by
  simp only [codeEntryOf, BitVec.toNat_ofNat]
  exact Nat.mod_eq_of_lt (by omega)

theorem codeEntryOf_bit (p : Path) (i : Nat) (h : p.length ≤ 256) : (codeEntryOf p).bits.getLsbD i = p.getD i false := by
  simp only [codeEntryOf, BitVec.getLsbD_setWidth, BitVec.getLsbD_ofBoolListLE]
  by_cases hi : i < 256
  · simp [hi]
  · rw [List.getD_eq_default _ _ (by omega)]; simp

/-- A path of at most 256 steps is read back from its entry (42_code_table.md R122). -/
theorem codePath_codeEntryOf {p : Path} (h : p.length ≤ 256) : codePath (codeEntryOf p) = p := by
  apply List.ext_getElem
  · simp [codePath, codeEntryOf_len h]
  · intro i h1 h2
    simp [codePath, codeEntryOf_bit p i h, h2]

theorem codePath_length (e : CodeEntry) : (codePath e).length = e.len.toNat := by simp [codePath]

/-! ## Walks -/

theorem walkFrom_append (nm : List (Nat × Node)) (k : NodeIdx) (p q : Path) :
    walkFrom nm k (p ++ q) = (walkFrom nm k p).bind fun j => walkFrom nm j q := by
  induction p generalizing k with
  | nil => rfl
  | cons b p ih =>
    simp only [List.cons_append, walkFrom]
    cases hr : readNode nm k with
    | error f => rfl
    | ok n =>
      cases n with
      | leaf sym c => rfl
      | inner c l r => exact ih _

/-- A walk that leaves a leaf leads nowhere. -/
theorem walkFrom_leaf {nm : List (Nat × Node)} {k j : NodeIdx} {sym : Symbol} {c : Count} {q : Path}
    (hk : readNode nm k = .ok (.leaf sym c)) (h : walkFrom nm k q = some j) : q = [] ∧ j = k := by
  cases q with
  | nil => simp only [walkFrom, Option.some.injEq] at h; exact ⟨rfl, h.symm⟩
  | cons b q => simp [walkFrom, hk] at h

/-- The tree of a built state: `TreeOk` with one node left in the queue. -/
structure OneTree (s : State) (root : NodeIdx) : Prop where
  tree : TreeOk s
  queue : s.pq = [root]

variable {s : State} {root : NodeIdx}

theorem TreeOk.leaf_or_inner (h : TreeOk s) {i : NodeIdx} (hi : i.toNat < s.nnode.toNat) :
    (i.toNat < s.nleaf.toNat ∧ ∃ sym c, readNode s.nm i = .ok (.leaf sym c) ∧ sym.toNat < 257 ∧ s.seen.getLsbD sym.toNat = true) ∨
    (s.nleaf.toNat ≤ i.toNat ∧ ∃ c l r, readNode s.nm i = .ok (.inner c l r) ∧ l.toNat < i.toNat ∧ r.toNat < i.toNat) := by
  have hb := h.bounds.2.1
  rcases Nat.lt_or_ge i.toNat s.nleaf.toNat with hl | hl
  · obtain ⟨sym, c, hg, hs, -, hse⟩ := h.leaves.1 _ hl
    exact Or.inl ⟨hl, sym, c, readNode_of_get (by omega) hg, hs, hse⟩
  · obtain ⟨c, l, r, hg, hlt, hrt, -⟩ := h.nodes.2.2 _ hl hi
    exact Or.inr ⟨hl, c, l, r, readNode_of_get (by omega) hg, hlt, hrt⟩

theorem OneTree.nnode_eq (h : OneTree s root) : s.nnode.toNat + 1 = 2 * s.nleaf.toNat := by
  have := h.tree.queue_length
  rw [h.queue] at this
  simp at this
  omega

theorem OneTree.root_lt (h : OneTree s root) : root.toNat < s.nnode.toNat := h.tree.queue.1 root (by rw [h.queue]; simp)

theorem mem_childList {nm : List (Nat × Node)} {n i : Nat} : i ∈ childList nm n ↔ ∃ m < n, i ∈ childrenAt nm m := by
  simp [childList]

/-- A node below `NNODE` is the root or a child of a node (10_state.md R38 item 6). -/
theorem OneTree.root_or_child (h : OneTree s root) {i : Nat} (hi : i < s.nnode.toNat) :
    i = root.toNat ∨ ∃ m < s.nnode.toNat, i ∈ childrenAt s.nm m := by
  have hf := h.tree.forest
  unfold ForestOk at hf
  have hm := hf.mem_iff.2 (List.mem_range.2 hi)
  rw [h.queue] at hm
  rcases List.mem_append.1 hm with hm | hm
  · left; simpa using hm
  · exact Or.inr (mem_childList.1 hm)

/-- A child is a step away from its parent. -/
theorem TreeOk.child_step (h : TreeOk s) {m : NodeIdx} (hm : m.toNat < s.nnode.toNat) {i : NodeIdx}
    (hc : i.toNat ∈ childrenAt s.nm m.toNat) : i.toNat < m.toNat ∧ ∃ b, walkFrom s.nm m [b] = some i := by
  rcases h.leaf_or_inner hm with ⟨-, sym, c, hr, -⟩ | ⟨-, c, l, r, hr, hl, hrr⟩
  · simp [childrenAt, (readNode_ok_iff.1 hr).2] at hc
  · simp only [childrenAt, (readNode_ok_iff.1 hr).2, List.mem_cons, List.not_mem_nil, or_false] at hc
    rcases hc with hc | hc
    · rw [← BitVec.toNat_inj.2 (BitVec.eq_of_toNat_eq hc)] at hl
      exact ⟨hl, false, by simp [walkFrom, hr, BitVec.eq_of_toNat_eq hc]⟩
    · rw [← BitVec.toNat_inj.2 (BitVec.eq_of_toNat_eq hc)] at hrr
      exact ⟨hrr, true, by simp [walkFrom, hr, BitVec.eq_of_toNat_eq hc]⟩

/-- Every node is reached from the root (10_state.md R38 item 6). -/
theorem OneTree.reached (h : OneTree s root) {i : NodeIdx} (hi : i.toNat < s.nnode.toNat) :
    ∃ q, walkFrom s.nm root q = some i := by
  have hb := h.tree.bounds.2.1
  induction hd : s.nnode.toNat - i.toNat using Nat.strong_induction_on generalizing i with
  | _ d ih =>
    rcases h.root_or_child hi with hr | ⟨m, hm, hc⟩
    · exact ⟨[], by simp [walkFrom, BitVec.eq_of_toNat_eq hr]⟩
    · have hmm : (BitVec.ofNat 10 m).toNat = m := by simp; omega
      have hm' : (BitVec.ofNat 10 m).toNat < s.nnode.toNat := by omega
      obtain ⟨hlt, b, hb⟩ := h.tree.child_step (i := i) hm' (by rw [hmm]; exact hc)
      obtain ⟨q, hq⟩ := ih (s.nnode.toNat - m) (by omega) hm' (by omega)
      exact ⟨q ++ [b], by rw [walkFrom_append, hq]; exact hb⟩

/-- A walk stays below `NNODE`, goes down, and takes at most as many steps as there are internal nodes from its start. -/
theorem TreeOk.walk_bound (h : TreeOk s) {k j : NodeIdx} {q : Path} (hk : k.toNat < s.nnode.toNat)
    (hw : walkFrom s.nm k q = some j) :
    j.toNat < s.nnode.toNat ∧ j.toNat ≤ k.toNat ∧ (q = [] ∨ (s.nleaf.toNat ≤ k.toNat ∧ q.length ≤ k.toNat + 1 - s.nleaf.toNat)) := by
  induction q generalizing k with
  | nil => simp only [walkFrom, Option.some.injEq] at hw; subst hw; exact ⟨hk, le_rfl, Or.inl rfl⟩
  | cons b q ih =>
    rcases h.leaf_or_inner hk with ⟨-, sym, c, hr, -⟩ | ⟨hl, c, l, r, hr, hlt, hrt⟩
    · simp [walkFrom, hr] at hw
    · simp only [walkFrom, hr] at hw
      have hstep : (if b = true then r else l).toNat < k.toNat := by cases b <;> simp [hlt, hrt]
      obtain ⟨h1, h2, h3⟩ := ih (by omega) hw
      refine ⟨h1, by omega, Or.inr ⟨hl, ?_⟩⟩
      rcases h3 with rfl | ⟨h3, h4⟩ <;> simp only [List.length_cons, List.length_nil] <;> omega

/-- A code has at most `NLEAF - 1` steps when there are two leaves or more (42_code_table.md R125). -/
theorem OneTree.walk_length (h : OneTree s root) {j : NodeIdx} {q : Path} (hw : walkFrom s.nm root q = some j) :
    q.length ≤ s.nleaf.toNat - 1 := by
  have h1 := h.nnode_eq
  have h2 := h.root_lt
  rcases (h.tree.walk_bound h.root_lt hw).2.2 with rfl | ⟨h3, h4⟩
  · simp
  · omega

/-! ## What `Assign` writes -/

/-- The leaves under node `k` with their paths, `p` in front, left before right. -/
def leafPaths (nm : List (Nat × Node)) : Nat → NodeIdx → Path → List (Symbol × Path)
  | 0, _, _ => []
  | fuel + 1, k, p =>
    match readNode nm k with
    | .ok (.leaf sym _) => [(sym, p)]
    | .ok (.inner _ l r) => leafPaths nm fuel l (p ++ [false]) ++ leafPaths nm fuel r (p ++ [true])
    | .error _ => []

/-- Write a list of codes. -/
def putCodes (l : List (Symbol × Path)) (s : State) : State := l.foldl (fun t e => putCode e.1 e.2 t) s

theorem putCodes_append (l m : List (Symbol × Path)) (t : State) : putCodes (l ++ m) t = putCodes m (putCodes l t) := by
  simp [putCodes]

theorem putCodes_frame (l : List (Symbol × Path)) (t : State) : putCodes l t = { t with ct := (putCodes l t).ct } := by
  induction l generalizing t with
  | nil => rfl
  | cons e l ih => rw [putCodes, List.foldl_cons]; exact ih _

theorem putCodes_nm (l : List (Symbol × Path)) (t : State) : (putCodes l t).nm = t.nm := by rw [putCodes_frame]

/-- `Assign` completes and writes exactly the leaves' paths (42_code_table.md R120). -/
theorem TreeOk.assign_spec (h : TreeOk s) (fuel : Nat) (k : NodeIdx) (p : Path) (t : State) (ht : t.nm = s.nm)
    (hk : k.toNat < s.nnode.toNat) (hf : 1 ≤ fuel ∧ k.toNat + 2 ≤ fuel + s.nleaf.toNat ∨ 1 ≤ fuel ∧ k.toNat < s.nleaf.toNat) :
    assign fuel k p t = .ok (putCodes (leafPaths s.nm fuel k p) t) := by
  induction fuel generalizing k p t with
  | zero => omega
  | succ fuel ih =>
    rcases h.leaf_or_inner hk with ⟨-, sym, c, hr, hs, -⟩ | ⟨hl, c, l, r, hr, hlt, hrt⟩
    · simp [assign, leafPaths, hr, ht, writeCode, hs, putCodes, bind, Except.bind]
    · have hfl := ih l (p ++ [false]) t ht (by omega) (by omega)
      have hfr := ih r (p ++ [true]) (putCodes (leafPaths s.nm fuel l (p ++ [false])) t) (by rw [putCodes_nm, ht]) (by omega) (by omega)
      simp only [assign, leafPaths, hr, ht, bind, Except.bind, hfl, hfr, putCodes_append]

theorem mem_leafPaths {nm : List (Nat × Node)} {fuel : Nat} {k : NodeIdx} {p p' : Path} {sym : Symbol}
    (h : (sym, p') ∈ leafPaths nm fuel k p) :
    ∃ q j c, p' = p ++ q ∧ walkFrom nm k q = some j ∧ readNode nm j = .ok (.leaf sym c) := by
  induction fuel generalizing k p with
  | zero => simp [leafPaths] at h
  | succ fuel ih =>
    unfold leafPaths at h
    split at h
    · next sy c hr =>
      simp only [List.mem_singleton, Prod.mk.injEq] at h
      exact ⟨[], k, c, by simp [h.2], rfl, by rw [hr, h.1]⟩
    · next c l r hr =>
      rcases List.mem_append.1 h with h | h
      · obtain ⟨q, j, c', hp, hw, hj⟩ := ih h
        exact ⟨false :: q, j, c', by simp [hp], by simpa [walkFrom, hr] using hw, hj⟩
      · obtain ⟨q, j, c', hp, hw, hj⟩ := ih h
        exact ⟨true :: q, j, c', by simp [hp], by simpa [walkFrom, hr] using hw, hj⟩
    · simp at h

theorem leafPaths_complete {nm : List (Nat × Node)} {fuel : Nat} {k j : NodeIdx} {p q : Path} {sym : Symbol} {c : Count}
    (hw : walkFrom nm k q = some j) (hj : readNode nm j = .ok (.leaf sym c)) (hf : q.length < fuel) :
    (sym, p ++ q) ∈ leafPaths nm fuel k p := by
  induction q generalizing k p fuel with
  | nil =>
    simp only [walkFrom, Option.some.injEq] at hw
    subst hw
    obtain ⟨f, rfl⟩ : ∃ f, fuel = f + 1 := ⟨fuel - 1, by simp at hf; omega⟩
    simp [leafPaths, hj]
  | cons b q ih =>
    obtain ⟨f, rfl⟩ : ∃ f, fuel = f + 1 := ⟨fuel - 1, by omega⟩
    simp only [walkFrom] at hw
    split at hw
    · next c' l r hr =>
      have := ih (p := p ++ [b]) (fuel := f) hw (by simpa using hf)
      rw [List.append_assoc, List.singleton_append] at this
      unfold leafPaths
      rw [hr]
      cases b
      · exact List.mem_append_left _ this
      · exact List.mem_append_right _ this
    · simp at hw

/-! ## What the table holds after a list of codes was written -/

theorem putCodes_get (l : List (Symbol × Path)) (t : State) (i : Nat) :
    storeGet (putCodes l t).ct i =
      match (l.reverse.find? fun e => e.1.toNat == i) with
      | some e => some (codeEntryOf e.2)
      | none => storeGet t.ct i := by
  induction l generalizing t with
  | nil => rfl
  | cons e l ih =>
    have hcons : putCodes (e :: l) t = putCodes l (putCode e.1 e.2 t) := rfl
    rw [hcons, ih, List.reverse_cons, List.find?_append]
    cases hf : (l.reverse.find? fun e => e.1.toNat == i) with
    | some e' => simp
    | none =>
      simp only [Option.none_or, List.find?_cons, List.find?_nil]
      by_cases he : e.1.toNat = i
      · subst he; simp [putCode, storeGet_put_same]
      · have : (e.1.toNat == i) = false := by simpa using he
        rw [this]
        simp only [putCode]
        exact storeGet_put_other _ _ (fun hc => he hc.symm)

theorem putCodes_wf {l : List (Symbol × Path)} {t : State} (h : StoreWf Config.nsym t.ct) (hl : ∀ e ∈ l, e.1.toNat < 257) :
    StoreWf Config.nsym (putCodes l t).ct := by
  induction l generalizing t with
  | nil => exact h
  | cons e l ih => exact ih (storePut_wf _ h (hl e (by simp))) fun e he => hl e (List.mem_cons_of_mem _ he)

/-! ## Seen symbols are the leaves' symbols -/

/-- Every seen symbol is on a leaf (10_state.md R38 items 2 and 3, by counting). -/
theorem TreeOk.seen_on_leaf (h : TreeOk s) {i : Nat} (hi : i < 257) (hs : s.seen.getLsbD i = true) :
    ∃ j < s.nleaf.toNat, ∃ sym c, storeGet s.nm j = some (.leaf sym c) ∧ sym.toNat = i := by
  let f : Nat → Nat := fun j => match leafSymAt s.nm j with | some sym => sym.toNat | none => 0
  let A := (Finset.range s.nleaf.toNat).image f
  let B := ((List.range 257).filter fun i => s.seen.getLsbD i).toFinset
  have hfval : ∀ j < s.nleaf.toNat, ∃ sym c, storeGet s.nm j = some (.leaf sym c) ∧ f j = sym.toNat ∧ sym.toNat < 257 ∧
      s.seen.getLsbD sym.toNat = true := by
    intro j hj
    obtain ⟨sym, c, hg, hlt, -, hse⟩ := h.leaves.1 j hj
    exact ⟨sym, c, hg, by simp [f, leafSymAt, hg], hlt, hse⟩
  have hinj : Set.InjOn f (Finset.range s.nleaf.toNat) := by
    intro a ha b hb hab
    simp only [Finset.coe_range, Set.mem_Iio] at ha hb
    obtain ⟨sa, ca, hga, hfa, -⟩ := hfval a ha
    obtain ⟨sb, cb, hgb, hfb, -⟩ := hfval b hb
    refine h.leaves.2 a ha b hb ?_
    have : sa = sb := BitVec.eq_of_toNat_eq (by omega)
    simp [leafSymAt, hga, hgb, this]
  have hA : A.card = s.nleaf.toNat := by simp [A, Finset.card_image_of_injOn hinj]
  have hB : B.card = s.nleaf.toNat := by
    have hnd : ((List.range 257).filter fun i => s.seen.getLsbD i).Nodup := List.nodup_range.filter _
    rw [List.toFinset_card_of_nodup hnd, ← List.countP_eq_length_filter]
    exact (h.seenCounted).symm
  have hsub : A ⊆ B := by
    intro x hx
    obtain ⟨j, hj, rfl⟩ := Finset.mem_image.1 hx
    obtain ⟨sym, c, -, hf, hlt, hse⟩ := hfval j (Finset.mem_range.1 hj)
    simp [B, hf, hlt, hse]
  have hEq := Finset.eq_of_subset_of_card_le hsub (by omega)
  have hiB : i ∈ B := by simp [B, hi, hs]
  rw [← hEq] at hiB
  obtain ⟨j, hj, hji⟩ := Finset.mem_image.1 hiB
  obtain ⟨sym, c, hg, hf, -⟩ := hfval j (Finset.mem_range.1 hj)
  exact ⟨j, Finset.mem_range.1 hj, sym, c, hg, by omega⟩

end Sys2Proof.Safety
end

