-- ==== Sys2Proof/Laws/Build.lean ====
section
/-! SUPPORT. BUILD completes and leaves one tree with its code table (41_tree_builder.md R104, R107; 42_code_table.md R120). -/

namespace Sys2Proof.Safety

open Sys2Proof.Machine

/-- What the merges of BUILD may change. -/
structure MergeFrame (s t : State) : Prop where
  rest : t = { s with nm := t.nm, nnode := t.nnode, pq := t.pq }
  nodes : ∀ i < s.nnode.toNat, storeGet t.nm i = storeGet s.nm i
  nnode : s.nnode.toNat ≤ t.nnode.toNat

theorem mergeFrame_refl (s : State) : MergeFrame s s := ⟨rfl, fun _ _ => rfl, le_rfl⟩

/-- The merges of BUILD complete and keep `TreeOk`; each lowers `QLEN` by one (41_tree_builder.md R103, R104). -/
theorem mergeLoop_spec (n : Nat) {s : State} (h : TreeOk s) (hn : n < s.pq.length) :
    ∃ t, mergeLoop n s = .ok t ∧ TreeOk t ∧ t.pq.length + n = s.pq.length ∧ MergeFrame s t := by
  induction n generalizing s with
  | zero => exact ⟨s, rfl, h, rfl, mergeFrame_refl s⟩
  | succ n ih =>
    obtain ⟨a, b, q, hpq⟩ : ∃ a b q, s.pq = a :: b :: q := by
      match hp : s.pq with
      | [] => simp [hp] at hn
      | [a] => simp [hp] at hn
      | a :: b :: q => exact ⟨a, b, q, rfl⟩
    obtain ⟨c, l1, l2, -, hq, hstep, -, -, ht⟩ := mergeStep_spec h hpq
    set s1 := setQueue (l1 ++ s.nnode :: l2) (merged c a b q s) with hs1
    have hlen : s1.pq.length + 1 = s.pq.length := by
      have : s1.pq = l1 ++ s.nnode :: l2 := rfl
      rw [this, hpq, hq]; simp; omega
    have hN : s.nnode.toNat < 513 := by
      have h1 := h.queue_length
      have h2 := h.bounds.1
      rw [hpq] at h1
      simp only [List.length_cons] at h1
      omega
    have hnn : s1.nnode.toNat = s.nnode.toNat + 1 := nnode_succ hN
    obtain ⟨t, hl, htree, hlen2, hframe⟩ := ih ht (by omega)
    refine ⟨t, by simp [mergeLoop, hstep, bind, Except.bind, hl], htree, by omega, ?_, ?_, ?_⟩
    · rw [hframe.rest]; rfl
    · intro i hi
      rw [hframe.nodes i (by omega)]
      exact storeGet_put_other s.nm (i := s.nnode.toNat) _ (by omega)
    · have := hframe.nnode
      omega

/-- The last node left is the newest: `ROOT = 2 NLEAF - 2` (41_tree_builder.md R107 item 1). -/
theorem OneTree.root_eq {s : State} {root : NodeIdx} (h : OneTree s root) : root.toNat + 2 = 2 * s.nleaf.toNat := by
  have h1 := h.nnode_eq
  have h2 := h.root_lt
  rcases h.root_or_child (i := s.nnode.toNat - 1) (by omega) with hr | ⟨m, hm, hc⟩
  · omega
  · exfalso
    have hb := h.tree.bounds.2.1
    have hmm : (BitVec.ofNat 10 m).toNat = m := by simp; omega
    have hi : (BitVec.ofNat 10 (s.nnode.toNat - 1)).toNat = s.nnode.toNat - 1 := by simp; omega
    obtain ⟨hlt, -⟩ := h.tree.child_step (m := BitVec.ofNat 10 m) (i := BitVec.ofNat 10 (s.nnode.toNat - 1)) (by omega)
      (by rw [hmm, hi]; exact hc)
    omega

/-- The entries of a table written by `GenCodes` (42_code_table.md R120, R125; 10_state.md R38 item 7). -/
def TableOk (s : State) (root : NodeIdx) (ct : List (Nat × CodeEntry)) : Prop :=
  (∀ i < 257, (storeGet ct i).isSome = s.seen.getLsbD i) ∧
    ∀ sym : Symbol, ∀ e, storeGet ct sym.toNat = some e → 1 ≤ e.len.toNat ∧ e.len.toNat ≤ 256 ∧
      (∀ i, e.len.toNat ≤ i → e.bits.getLsbD i = false) ∧ trieSymbol s.nm root (codePath e) = some sym

theorem codeEntryOf_ok {p : Path} (h1 : 1 ≤ p.length) (h2 : p.length ≤ 256) :
    1 ≤ (codeEntryOf p).len.toNat ∧ (codeEntryOf p).len.toNat ≤ 256 ∧
      ∀ i, (codeEntryOf p).len.toNat ≤ i → (codeEntryOf p).bits.getLsbD i = false := by
  rw [codeEntryOf_len h2]
  refine ⟨h1, h2, fun i hi => ?_⟩
  rw [codeEntryOf_bit p i h2, List.getD_eq_default _ _ hi]

/-- `GenCodes` completes and writes the table of the tree (42_code_table.md R120, R121). -/
theorem genCodes_spec {s : State} (h : OneTree s s.root) (hct : s.ct = []) :
    ∃ ct, genCodes s = .ok { s with ct := ct } ∧ TableOk s s.root ct ∧ StoreWf Config.nsym ct := by
  have hroot := h.root_lt
  have heq := h.nnode_eq
  have hre := h.root_eq
  have hb := h.tree.bounds
  have hb1 := hb.1
  rcases h.tree.leaf_or_inner hroot with ⟨hl, sym, c, hr, hs, hse⟩ | ⟨hl, c, l, r, hr, hlt, hrt⟩
  · -- a leaf root: one symbol, the code "0"
    have hn1 : s.nleaf.toNat = 1 := by omega
    refine ⟨storePut s.ct sym.toNat (codeEntryOf [false]), ?_, ⟨?_, ?_⟩, ?_⟩
    · simp [genCodes, hr, bind, Except.bind, writeCode, hs, putCode]
    · intro i hi
      rw [hct, storeGet_put]
      by_cases his : i = sym.toNat
      · subst his; simp [hse]
      · simp only [his, if_false, storeGet_nil, Option.isSome_none]
        cases hsi : s.seen.getLsbD i with
        | false => rfl
        | true =>
          exfalso
          obtain ⟨j, hj, sy, c', hg, hsy⟩ := h.tree.seen_on_leaf hi hsi
          have hj0 : j = 0 := by omega
          have hrz : s.root.toNat = 0 := by omega
          have := (readNode_ok_iff.1 hr).2
          rw [hrz, ← hj0, hg] at this
          cases this
          exact his hsy.symm
    · intro sy e he
      rw [hct, storeGet_put] at he
      split at he
      · next hsy =>
        cases he
        obtain ⟨h1, h2, h3⟩ := codeEntryOf_ok (p := [false]) (by simp) (by simp)
        refine ⟨h1, h2, h3, ?_⟩
        rw [codePath_codeEntryOf (by simp)]
        simp [trieSymbol, hr, BitVec.eq_of_toNat_eq hsy]
      · simp at he
    · rw [hct]; exact storePut_wf _ (storeWf_nil _) hs
  · have hfuel := h.tree.assign_spec 257 s.root [] s rfl hroot (by left; omega)
    set L := leafPaths s.nm 257 s.root [] with hL
    have hmem : ∀ sym p, (sym, p) ∈ L → ∃ j c, walkFrom s.nm s.root p = some j ∧ readNode s.nm j = .ok (.leaf sym c) ∧
        1 ≤ p.length ∧ p.length ≤ 256 := by
      intro sym p hp
      obtain ⟨q, j, c', hpq, hw, hj⟩ := mem_leafPaths hp
      simp only [List.nil_append] at hpq
      subst hpq
      refine ⟨j, c', hw, hj, ?_, ?_⟩
      · cases p with
        | nil =>
          simp only [walkFrom, Option.some.injEq] at hw
          rw [← hw, hr] at hj
          cases hj
        | cons b p => simp
      · have := h.walk_length hw
        have := hb.1
        omega
    have hsym : ∀ e ∈ L, e.1.toNat < 257 := by
      rintro ⟨sym, p⟩ he
      obtain ⟨j, c', hw, hj, -⟩ := hmem sym p he
      have hjlt := (h.tree.walk_bound hroot hw).1
      rcases h.tree.leaf_or_inner hjlt with ⟨-, sy, c2, hr2, hs2, -⟩ | ⟨-, c2, l2, r2, hr2, -⟩
      · rw [hr2] at hj; cases hj; exact hs2
      · rw [hr2] at hj; cases hj
    refine ⟨(putCodes L s).ct, ?_, ⟨?_, ?_⟩, putCodes_wf (by rw [hct]; exact storeWf_nil _) hsym⟩
    · rw [← putCodes_frame]
      simpa [genCodes, hr, bind, Except.bind] using hfuel
    · intro i hi
      rw [putCodes_get, hct]
      cases hf : (L.reverse.find? fun e => e.1.toNat == i) with
      | some e =>
        obtain ⟨sym, p⟩ := e
        have he := List.mem_of_find?_eq_some hf
        have hei := List.find?_some hf
        simp only [beq_iff_eq] at hei
        obtain ⟨j, c', hw, hj, -⟩ := hmem sym p (by simpa using he)
        have hjlt := (h.tree.walk_bound hroot hw).1
        rcases h.tree.leaf_or_inner hjlt with ⟨-, sy, c2, hr2, hs2, hse2⟩ | ⟨-, c2, l2, r2, hr2, -⟩
        · rw [hr2] at hj; cases hj; rw [← hei, hse2]; rfl
        · rw [hr2] at hj; cases hj
      | none =>
        simp only [storeGet_nil, Option.isSome_none]
        cases hsi : s.seen.getLsbD i with
        | false => rfl
        | true =>
          exfalso
          obtain ⟨j, hj, sym, c', hg, hsy⟩ := h.tree.seen_on_leaf hi hsi
          have hnl := h.tree.nodes.2.1
          have hjj : (BitVec.ofNat 10 j).toNat = j := by simp; omega
          obtain ⟨q, hq⟩ := h.reached (i := BitVec.ofNat 10 j) (by omega)
          have hrj : readNode s.nm (BitVec.ofNat 10 j) = .ok (.leaf sym c') := readNode_of_get (by omega) (by rw [hjj]; exact hg)
          have hlen := h.walk_length hq
          have := leafPaths_complete (fuel := 257) (p := []) hq hrj (by omega)
          rw [List.nil_append] at this
          have hnone := List.find?_eq_none.1 hf (sym, q) (by simpa using this)
          simp [hsy] at hnone
    · intro sym e he
      rw [putCodes_get, hct] at he
      cases hf : (L.reverse.find? fun e => e.1.toNat == sym.toNat) with
      | none => rw [hf] at he; simp at he
      | some e' =>
        obtain ⟨sy, p⟩ := e'
        rw [hf] at he
        simp only [Option.some.injEq] at he
        have hmem' := List.mem_of_find?_eq_some hf
        have hei := List.find?_some hf
        simp only [beq_iff_eq] at hei
        obtain ⟨j, c', hw, hj, h1, h2⟩ := hmem sy p (by simpa using hmem')
        obtain ⟨h3, h4, h5⟩ := codeEntryOf_ok h1 h2
        subst he
        refine ⟨h3, h4, h5, ?_⟩
        rw [codePath_codeEntryOf h2]
        simp [trieSymbol, hr, hw, hj, BitVec.eq_of_toNat_eq hei]

/-- BUILD's effect on a table of one leaf or more: it completes, leaving one tree, its code table, and the reader at the root
(41_tree_builder.md R104, R107). -/
theorem buildTree_spec {s : State} (h : TreeOk s) (hq : s.pq.length = s.nleaf.toNat) (hn : 1 ≤ s.nleaf.toNat) (hct : s.ct = []) :
    ∃ t, buildTree s = .ok t ∧ OneTree t t.root ∧ TableOk t t.root t.ct ∧ StoreWf Config.nsym t.ct ∧
      t = { s with nm := t.nm, nnode := t.nnode, pq := [t.root], root := t.root, ct := t.ct, rcur := t.root, phase := .built } ∧
      (∀ i < s.nnode.toNat, storeGet t.nm i = storeGet s.nm i) ∧ s.nnode.toNat ≤ t.nnode.toNat := by
  obtain ⟨s1, hloop, ht1, hlen, hfr⟩ := mergeLoop_spec (s.pq.length - 1) h (by omega)
  obtain ⟨k, hk⟩ : ∃ k, s1.pq = [k] := by
    match hp : s1.pq with
    | [] => simp [hp] at hlen; omega
    | [k] => exact ⟨k, rfl⟩
    | a :: b :: q => simp [hp] at hlen; omega
  set s2 := setRoot k s1 with hs2
  have hone : OneTree s2 s2.root := ⟨⟨ht1.bounds, ht1.seenCounted, ht1.leaves, ht1.nodes, ht1.queue, ht1.forest, ht1.counts, ht1.nmWf⟩, hk⟩
  have hct2 : s2.ct = [] := by
    have : s2.ct = s1.ct := rfl
    rw [this, hfr.rest]; exact hct
  obtain ⟨ct, hgen, htab, hwf⟩ := genCodes_spec hone hct2
  refine ⟨enterBuilt { s2 with ct := ct }, ?_, ⟨⟨hone.tree.bounds, hone.tree.seenCounted, hone.tree.leaves, hone.tree.nodes,
    hone.tree.queue, hone.tree.forest, hone.tree.counts, hone.tree.nmWf⟩, hone.queue⟩, htab, hwf, ?_, ?_, ?_⟩
  · have hhead : queueHead s1 = .ok k := by simp [queueHead, hk]
    simp only [buildTree, hloop, hhead, bind, Except.bind]
    rw [← hs2, hgen]
  · have h1 := hfr.rest
    rw [hs2]
    simp only [enterBuilt, setRoot, ← hk]
    rw [h1]
  · exact hfr.nodes
  · exact hfr.nnode

end Sys2Proof.Safety
end

