-- ==== Sys2Proof/Laws/Decode.lean ====
section
/-! SUPPORT. The fields of a packed word (30_encoding.md R70). -/

namespace Sys2Proof

/-- Bit `i` of a packed word. -/
theorem getLsbD_packWord (op : BitVec 4) (a : BitVec 9) (d : BitVec 32) (i : Nat) :
    (packWord op a d).getLsbD i =
      if i < 32 then d.getLsbD i else if i < 41 then a.getLsbD (i - 32) else if i < 44 then false else op.getLsbD (i - 44) := by
  unfold packWord
  simp only [BitVec.getLsbD_append]
  split_ifs <;> first | rfl | (exfalso; omega) | simp

@[simp] theorem opField_packWord (op : BitVec 4) (a : BitVec 9) (d : BitVec 32) : opField (packWord op a d) = op := by
  apply BitVec.eq_of_getLsbD_eq
  intro i hi
  simp only [opField, BitVec.getLsbD_extractLsb', getLsbD_packWord, hi, decide_true, Bool.true_and]
  rw [if_neg (by omega), if_neg (by omega), if_neg (by omega)]
  congr 1; omega

@[simp] theorem zField_packWord (op : BitVec 4) (a : BitVec 9) (d : BitVec 32) : zField (packWord op a d) = 0 := by
  apply BitVec.eq_of_getLsbD_eq
  intro i hi
  simp only [zField, BitVec.getLsbD_extractLsb', getLsbD_packWord, hi, decide_true, Bool.true_and]
  rw [if_neg (by omega), if_neg (by omega), if_pos (by omega)]
  simp

@[simp] theorem aField_packWord (op : BitVec 4) (a : BitVec 9) (d : BitVec 32) : aField (packWord op a d) = a := by
  apply BitVec.eq_of_getLsbD_eq
  intro i hi
  simp only [aField, BitVec.getLsbD_extractLsb', getLsbD_packWord, hi, decide_true, Bool.true_and]
  rw [if_neg (by omega), if_pos (by omega)]
  congr 1; omega

@[simp] theorem dField_packWord (op : BitVec 4) (a : BitVec 9) (d : BitVec 32) : dField (packWord op a d) = d := by
  apply BitVec.eq_of_getLsbD_eq
  intro i hi
  simp only [dField, BitVec.getLsbD_extractLsb', getLsbD_packWord, hi, decide_true, Bool.true_and]
  rw [if_pos (by omega)]
  congr 1; omega

/-- A word whose field `z` is 0 is packed from its other fields. -/
theorem packWord_fields {w : Word48} (h : zField w = 0) : packWord (opField w) (aField w) (dField w) = w := by
  apply BitVec.eq_of_getLsbD_eq
  intro i hi
  rw [getLsbD_packWord]
  split_ifs with h1 h2 h3
  · simp [dField, h1]
  · simp only [aField, BitVec.getLsbD_extractLsb']
    rw [decide_eq_true (by omega), Bool.true_and]; congr 1; omega
  · have hz : (zField w).getLsbD (i - 41) = false := by rw [h]; simp
    simp only [zField, BitVec.getLsbD_extractLsb'] at hz
    rw [decide_eq_true (by omega), Bool.true_and] at hz
    rw [← hz]; congr 1; omega
  · simp only [opField, BitVec.getLsbD_extractLsb']
    rw [decide_eq_true (by omega), Bool.true_and]; congr 1; omega

/-- A payload byte's field `d` gives the byte back and has nothing above it. -/
theorem byteField (byte : Byte) : (byte.setWidth 32).extractLsb' 8 24 = 0 ∧ (byte.setWidth 32).extractLsb' 0 8 = byte := by
  constructor
  · apply BitVec.eq_of_getLsbD_eq
    intro i hi
    simp [BitVec.getLsbD_extractLsb', BitVec.getLsbD_setWidth]
  · apply BitVec.eq_of_getLsbD_eq
    intro i hi
    simp [BitVec.getLsbD_setWidth, hi]
    omega

theorem byteField_back {d : BitVec 32} (h : d.extractLsb' 8 24 = 0) : (d.extractLsb' 0 8).setWidth 32 = d := by
  apply BitVec.eq_of_getLsbD_eq
  intro i hi
  simp only [BitVec.getLsbD_setWidth, BitVec.getLsbD_extractLsb', hi, decide_true, Bool.true_and, Nat.zero_add]
  by_cases h8 : i < 8
  · simp [h8]
  · have hz : (d.extractLsb' 8 24).getLsbD (i - 8) = false := by rw [h]; simp
    simp only [BitVec.getLsbD_extractLsb'] at hz
    rw [decide_eq_true (by omega), Bool.true_and, show 8 + (i - 8) = i by omega] at hz
    simp [h8, hz]
end Sys2Proof
end

