-- ==== Sys2Proof/Laws/Reader.lean ====
section
/-! SUPPORT. The bit reader on a built tree (44_bit_reader.md R150 to R155), and the code table as the inverse of the trie
(42_code_table.md R124, R126). -/

namespace Sys2Proof.Safety

open Sys2Proof.Machine

variable {s t : State} {root : NodeIdx}

/-! ## One bit -/

/-- Where the reader of a built tree may stand (10_state.md R30). -/
def Standing (s : State) (k : NodeIdx) : Prop :=
  (∃ c l r, storeGet s.nm k.toNat = some (.inner c l r)) ∨ (s.nleaf = 1 ∧ k = s.root)

theorem OneTree.inner_lt (h : OneTree s root) {k : NodeIdx} {c : Count} {l r : NodeIdx}
    (hk : storeGet s.nm k.toNat = some (.inner c l r)) : k.toNat < s.nnode.toNat :=
  (h.tree.nodes.1 k.toNat).1 (by rw [hk]; rfl)

/-- A tree of one leaf: the root is that leaf (41_tree_builder.md R105). -/
theorem OneTree.root_leaf (h : OneTree s s.root) (hn : s.nleaf = 1) : ∃ sym c, readNode s.nm s.root = .ok (.leaf sym c) := by
  have hre := h.root_eq
  have h1 : s.nleaf.toNat = 1 := by rw [hn]; rfl
  rcases h.tree.leaf_or_inner h.root_lt with ⟨-, sym, c, hr, -⟩ | ⟨hl, -⟩
  · exact ⟨sym, c, hr⟩
  · omega

/-- Two leaves or more: the root is internal (42_code_table.md R125). -/
theorem OneTree.root_inner (h : OneTree s s.root) (hn : s.nleaf ≠ 1) : ∃ c l r, readNode s.nm s.root = .ok (.inner c l r) := by
  have hre := h.root_eq
  have h1 : s.nleaf.toNat ≠ 1 := fun hc => hn (BitVec.eq_of_toNat_eq hc)
  rcases h.tree.leaf_or_inner h.root_lt with ⟨hl, -⟩ | ⟨-, c, l, r, hr, -⟩
  · omega
  · exact ⟨c, l, r, hr⟩

theorem OneTree.standing_root (h : OneTree s s.root) : Standing s s.root := by
  by_cases hn : s.nleaf = 1
  · exact Or.inr ⟨hn, rfl⟩
  · obtain ⟨c, l, r, hr⟩ := h.root_inner hn
    exact Or.inl ⟨c, l, r, (readNode_ok_iff.1 hr).2⟩

/-- What one bit does on a built tree (44_bit_reader.md R150, R154): the bit is 1 at the leaf root; or the step leads to an
internal node; or it matches the code of a symbol the trie gives. -/
theorem OneTree.matchBit_spec (h : OneTree s s.root) {k : NodeIdx} (hk : Standing s k) (b : Bool) :
    (s.nleaf = 1 ∧ k = s.root ∧ b = true ∧ matchBit s.nm k b = .ok .noCode) ∨
    (∃ nxt c l r, walkFrom s.nm k [b] = some nxt ∧ storeGet s.nm nxt.toNat = some (.inner c l r) ∧ matchBit s.nm k b = .ok (.goOn nxt)) ∨
    ∃ sym, matchBit s.nm k b = .ok (.hit sym) ∧
      ((s.nleaf = 1 ∧ k = s.root ∧ b = false ∧ ∃ c, readNode s.nm s.root = .ok (.leaf sym c)) ∨
       ∃ nxt c, walkFrom s.nm k [b] = some nxt ∧ readNode s.nm nxt = .ok (.leaf sym c)) := by
  rcases hk with ⟨c, l, r, hg⟩ | ⟨hn, rfl⟩
  · right
    have hlt := h.inner_lt hg
    have hb := h.tree.bounds.2.1
    have hr := readNode_of_get (by omega) hg
    have hw : walkFrom s.nm k [b] = some (if b = true then r else l) := by simp [walkFrom, hr]
    have hch : (if b = true then r else l).toNat < s.nnode.toNat := by
      rcases h.tree.leaf_or_inner hlt with ⟨-, sym, c', hr', -⟩ | ⟨-, c', l', r', hr', hl', hrt'⟩
      · rw [hr] at hr'; cases hr'
      · rw [hr] at hr'; cases hr'
        cases b <;> simp <;> omega
    rcases h.tree.leaf_or_inner hch with ⟨-, sym, c', hr', -⟩ | ⟨-, c', l', r', hr', -⟩
    · right
      exact ⟨sym, by simp [matchBit, hr, hr', bind, Except.bind], Or.inr ⟨_, c', hw, hr'⟩⟩
    · left
      exact ⟨_, c', l', r', hw, (readNode_ok_iff.1 hr').2, by simp [matchBit, hr, hr', bind, Except.bind]⟩
  · obtain ⟨sym, c, hr⟩ := h.root_leaf hn
    cases b
    · right; right
      exact ⟨sym, by simp [matchBit, hr, bind, Except.bind], Or.inl ⟨hn, rfl, rfl, c, hr⟩⟩
    · left
      exact ⟨hn, rfl, rfl, by simp [matchBit, hr, bind, Except.bind]⟩

/-! ## The bits of a byte -/

/-- What the reader may change: `FAULT`, `FINFO`, `RCUR`, `RDONE`, `ROUT` (44_bit_reader.md R150, R151). -/
def ReaderFrame (s t : State) : Prop :=
  t = { s with fault := t.fault, finfo := t.finfo, rcur := t.rcur, rdone := t.rdone, rout := t.rout }

theorem takeSymbol_frame (sym : Symbol) (s : State) : ReaderFrame s (takeSymbol sym s) := by
  unfold ReaderFrame takeSymbol
  split <;> rfl

theorem readerFrame_trans {u : State} (h1 : ReaderFrame s t) (h2 : ReaderFrame t u) : ReaderFrame s u := by
  unfold ReaderFrame at *
  rw [h2, h1]

theorem OneTree.of_frame (h : OneTree s s.root) (hf : ReaderFrame s t) : OneTree t t.root := by
  unfold ReaderFrame at hf
  rw [hf]
  exact ⟨⟨h.tree.bounds, h.tree.seenCounted, h.tree.leaves, h.tree.nodes, h.tree.queue, h.tree.forest, h.tree.counts, h.tree.nmWf⟩, h.queue⟩

theorem Standing.of_frame {k : NodeIdx} (h : Standing s k) (hf : ReaderFrame s t) : Standing t k := by
  unfold ReaderFrame at hf
  rw [hf]
  exact h

theorem takeSymbol_rcur (sym : Symbol) (s : State) : (takeSymbol sym s).rcur = (takeSymbol sym s).root := by
  unfold takeSymbol
  split <;> rfl

theorem takeSymbol_fault (sym : Symbol) (s : State) : (takeSymbol sym s).fault = s.fault ∧ (takeSymbol sym s).finfo = s.finfo := by
  unfold takeSymbol
  split <;> exact ⟨rfl, rfl⟩

/-- Everything the bits of a DEC can do on a built tree: they complete; the reader stands where it may; either no fault is
recorded, or NoMatch with the command word, and then the tree has one leaf (44_bit_reader.md R151 to R154). -/
theorem OneTree.readBits_spec (h : OneTree s s.root) (w : Word48) (bs : List Bool) (hk : Standing s s.rcur)
    (hd : s.rdone = true → s.rcur = s.root) :
    ∃ t, readBits w bs s = .ok t ∧ ReaderFrame s t ∧ Standing t t.rcur ∧ (t.rdone = true → t.rcur = t.root) ∧
      ((t.fault = s.fault ∧ t.finfo = s.finfo) ∨
        (t.fault = .noMatch ∧ t.finfo = w ∧ t.nleaf = 1 ∧ t.rcur = t.root ∧ t.rdone = false)) ∧
      ∃ out, t.rout = s.rout ++ out ∧ out.length ≤ bs.length := by
  induction bs generalizing s with
  | nil => exact ⟨s, rfl, rfl, hk, hd, Or.inl ⟨rfl, rfl⟩, [], by simp, by simp⟩
  | cons b bs ih =>
    by_cases hdone : s.rdone = true
    · exact ⟨s, by simp [readBits, hdone], rfl, hk, hd, Or.inl ⟨rfl, rfl⟩, [], by simp, by simp⟩
    · have hdf : s.rdone = false := by simpa using hdone
      rcases h.matchBit_spec hk b with ⟨hn, hr, -, hm⟩ | ⟨nxt, c, l, r, -, hg, hm⟩ | ⟨sym, hm, -⟩
      · refine ⟨raiseFault .noMatch w s, by simp [readBits, hdf, hm, bind, Except.bind], rfl, Or.inr ⟨hn, hr⟩, ?_,
          Or.inr ⟨rfl, rfl, hn, hr, hdf⟩, [], by simp, by simp⟩
        intro hc
        simp [hdf] at hc
      · have hf : ReaderFrame s (setRcur nxt s) := rfl
        obtain ⟨t, h1, h2, h3, h4, h5, out, h6, h7⟩ := ih (s := setRcur nxt s) (h.of_frame hf) (Or.inl ⟨c, l, r, hg⟩)
          (fun hc => by simp [hdf] at hc)
        exact ⟨t, by simp [readBits, hdf, hm, bind, Except.bind, h1], readerFrame_trans hf h2, h3, h4, h5, out, h6, by simp; omega⟩
      · have hf := takeSymbol_frame sym s
        have hone := h.of_frame hf
        obtain ⟨t, h1, h2, h3, h4, h5, out, h6, h7⟩ := ih (s := takeSymbol sym s) hone
          (by rw [takeSymbol_rcur]; exact hone.standing_root) (fun _ => takeSymbol_rcur sym s)
        obtain ⟨h8, h9⟩ := takeSymbol_fault sym s
        refine ⟨t, by simp [readBits, hdf, hm, bind, Except.bind, h1], readerFrame_trans hf h2, h3, h4, by rw [h8, h9] at h5; exact h5, ?_⟩
        by_cases he : sym = Config.eodSym
        · have hro : (takeSymbol sym s).rout = s.rout := by simp only [takeSymbol, he, if_true]; rfl
          exact ⟨out, by rw [h6, hro], by simp; omega⟩
        · have hro : (takeSymbol sym s).rout = s.rout ++ [symByte sym] := by simp only [takeSymbol, he, if_false]; rfl
          exact ⟨symByte sym :: out, by rw [h6, hro]; simp, by simp; omega⟩

/-! ## Each node is reached by exactly one path (10_state.md R38 item 6) -/

theorem OneTree.nodup (h : OneTree s root) : (root.toNat :: childList s.nm s.nnode.toNat).Nodup := by
  have hf := h.tree.forest
  unfold ForestOk at hf
  rw [h.queue] at hf
  exact hf.nodup_iff.2 List.nodup_range

/-- The parent of a node, and the side it hangs on, are unique. -/
theorem OneTree.parent_unique (h : OneTree s root) {m m' i : NodeIdx} {b b' : Bool}
    (hw : walkFrom s.nm m [b] = some i) (hw' : walkFrom s.nm m' [b'] = some i) : m = m' ∧ b = b' := by
  have hnd := (List.nodup_cons.1 h.nodup).2
  unfold childList at hnd
  rw [List.nodup_flatMap] at hnd
  have hstep : ∀ {m : NodeIdx} {b : Bool}, walkFrom s.nm m [b] = some i →
      ∃ c l r, storeGet s.nm m.toNat = some (.inner c l r) ∧ m.toNat < s.nnode.toNat ∧ i = if b = true then r else l := by
    intro m b hw
    simp only [walkFrom] at hw
    split at hw
    · next c l r hr =>
      have hg := (readNode_ok_iff.1 hr).2
      exact ⟨c, l, r, hg, h.inner_lt hg, (Option.some.inj hw).symm⟩
    · simp at hw
  obtain ⟨c, l, r, hg, hlt, hi⟩ := hstep hw
  obtain ⟨c', l', r', hg', hlt', hi'⟩ := hstep hw'
  have hmem : i.toNat ∈ childrenAt s.nm m.toNat := by rw [hi]; cases b <;> simp [childrenAt, hg]
  have hmem' : i.toNat ∈ childrenAt s.nm m'.toNat := by rw [hi']; cases b' <;> simp [childrenAt, hg']
  have hmm : m.toNat = m'.toNat := by
    by_contra hne
    have hp := hnd.2
    rcases Nat.lt_or_gt_of_ne hne with hl | hl
    · have hd := (List.pairwise_iff_getElem.1 hp) m.toNat m'.toNat (by simpa using hlt) (by simpa using hlt') hl
      simp only [List.getElem_range] at hd
      exact hd hmem hmem'
    · have hd := (List.pairwise_iff_getElem.1 hp) m'.toNat m.toNat (by simpa using hlt') (by simpa using hlt) hl
      simp only [List.getElem_range] at hd
      exact hd hmem' hmem
  have hm := BitVec.eq_of_toNat_eq hmm
  subst hm
  refine ⟨rfl, ?_⟩
  rw [hg] at hg'
  cases hg'
  have hnd1 := hnd.1 m.toNat (List.mem_range.2 hlt)
  simp only [childrenAt, hg, List.nodup_cons, List.mem_singleton] at hnd1
  cases b <;> cases b' <;> simp at hi hi' <;> first | rfl | (exfalso; exact hnd1.1 (by rw [← hi, ← hi']))

theorem OneTree.root_no_child (h : OneTree s root) {m : NodeIdx} {b : Bool} : walkFrom s.nm m [b] ≠ some root := by
  intro hw
  have hnd := (List.nodup_cons.1 h.nodup).1
  apply hnd
  simp only [walkFrom] at hw
  split at hw
  · next c l r hr =>
    have hg := (readNode_ok_iff.1 hr).2
    refine mem_childList.2 ⟨m.toNat, h.inner_lt hg, ?_⟩
    rw [← Option.some.inj hw]
    cases b <;> simp [childrenAt, hg]
  · simp at hw

/-- Two walks from the root to one node are one walk (10_state.md R38 item 6). -/
theorem OneTree.path_unique (h : OneTree s root) {i : NodeIdx} {p q : Path} (hp : walkFrom s.nm root p = some i)
    (hq : walkFrom s.nm root q = some i) : p = q := by
  induction p using List.reverseRecOn generalizing i q with
  | nil =>
    simp only [walkFrom, Option.some.injEq] at hp
    subst hp
    rcases List.eq_nil_or_concat q with rfl | ⟨q', b, rfl⟩
    · rfl
    · rw [List.concat_eq_append, walkFrom_append] at hq
      obtain ⟨m, -, hm⟩ := Option.bind_eq_some_iff.1 hq
      exact absurd hm h.root_no_child
  | append_singleton p b ih =>
    rw [walkFrom_append] at hp
    obtain ⟨m, hm1, hm2⟩ := Option.bind_eq_some_iff.1 hp
    rcases List.eq_nil_or_concat q with rfl | ⟨q', b', rfl⟩
    · simp only [walkFrom, Option.some.injEq] at hq
      subst hq
      exact absurd hm2 h.root_no_child
    · rw [List.concat_eq_append, walkFrom_append] at hq
      obtain ⟨m', hm1', hm2'⟩ := Option.bind_eq_some_iff.1 hq
      obtain ⟨rfl, rfl⟩ := h.parent_unique hm2 hm2'
      rw [ih hm1 hm1', List.concat_eq_append]

/-! ## The trie and the table are inverse (42_code_table.md R126) -/

/-- Two leaves of one symbol are one leaf (10_state.md R38 item 3). -/
theorem TreeOk.leaf_unique (h : TreeOk s) {i j : NodeIdx} {sym : Symbol} {c c' : Count}
    (hi : readNode s.nm i = .ok (.leaf sym c)) (hj : readNode s.nm j = .ok (.leaf sym c')) : i = j := by
  have hgi := (readNode_ok_iff.1 hi).2
  have hgj := (readNode_ok_iff.1 hj).2
  have hlt : ∀ {k : NodeIdx} {c : Count}, storeGet s.nm k.toNat = some (.leaf sym c) → k.toNat < s.nleaf.toNat := by
    intro k c hg
    have hk : k.toNat < s.nnode.toNat := (h.nodes.1 _).1 (by rw [hg]; rfl)
    by_contra hge
    obtain ⟨c', l, r, hg', -⟩ := h.nodes.2.2 k.toNat (by omega) hk
    rw [hg] at hg'
    cases hg'
  exact BitVec.eq_of_toNat_eq (h.leaves.2 _ (hlt hgi) _ (hlt hgj) (by simp [leafSymAt, hgi, hgj]))

/-- What the trie says of a path, with the leaf it ends on. -/
theorem OneTree.trie_iff (h : OneTree s s.root) {p : Path} {sym : Symbol} :
    trieSymbol s.nm s.root p = some sym ↔
      (s.nleaf = 1 ∧ p = [false] ∧ ∃ c, readNode s.nm s.root = .ok (.leaf sym c)) ∨
      (s.nleaf ≠ 1 ∧ p ≠ [] ∧ ∃ j c, walkFrom s.nm s.root p = some j ∧ readNode s.nm j = .ok (.leaf sym c)) := by
  by_cases hn : s.nleaf = 1
  · obtain ⟨sy, c, hr⟩ := h.root_leaf hn
    simp only [trieSymbol, hr, hn, ne_eq, not_true_eq_false, false_and, or_false, true_and, Except.ok.injEq, Node.leaf.injEq]
    split
    · next hp => simp [hp]
    · next hp => simp [hp]
  · obtain ⟨c, l, r, hr⟩ := h.root_inner hn
    simp only [trieSymbol, hr, hn, ne_eq, not_false_eq_true, false_and, true_and, false_or]
    constructor
    · intro ht
      split at ht
      · next k hk =>
        split at ht
        · next sy c' hj =>
          cases ht
          refine ⟨?_, k, c', hk, hj⟩
          rintro rfl
          simp only [walkFrom, Option.some.injEq] at hk
          rw [← hk, hr] at hj
          cases hj
        · simp at ht
      · simp at ht
    · rintro ⟨-, j, c', hw, hj⟩
      simp [hw, hj]

/-- A symbol has one path in the trie (42_code_table.md R126). -/
theorem OneTree.trie_injective (h : OneTree s s.root) {p q : Path} {sym : Symbol} (hp : trieSymbol s.nm s.root p = some sym)
    (hq : trieSymbol s.nm s.root q = some sym) : p = q := by
  rcases h.trie_iff.1 hp with ⟨hn, rfl, -⟩ | ⟨hn, -, j, c, hw, hj⟩
  · rcases h.trie_iff.1 hq with ⟨-, rfl, -⟩ | ⟨hn', -⟩
    · rfl
    · exact absurd hn hn'
  · rcases h.trie_iff.1 hq with ⟨hn', -⟩ | ⟨-, -, j', c', hw', hj'⟩
    · exact absurd hn' hn
    · rw [← h.tree.leaf_unique hj hj'] at hw'
      exact h.path_unique hw hw'

/-- The trie gives only symbols that were pushed. -/
theorem OneTree.trie_seen (h : OneTree s s.root) {p : Path} {sym : Symbol} (hp : trieSymbol s.nm s.root p = some sym) :
    sym.toNat < 257 ∧ s.seen.getLsbD sym.toNat = true := by
  have key : ∀ {j : NodeIdx} {c : Count}, readNode s.nm j = .ok (.leaf sym c) → sym.toNat < 257 ∧ s.seen.getLsbD sym.toNat = true := by
    intro j c hj
    have hjl : j.toNat < s.nnode.toNat := (h.tree.nodes.1 _).1 (by rw [(readNode_ok_iff.1 hj).2]; rfl)
    rcases h.tree.leaf_or_inner hjl with ⟨-, sy, c', hr, h1, h2⟩ | ⟨-, c', l, r, hr, -⟩
    · rw [hr] at hj; cases hj; exact ⟨h1, h2⟩
    · rw [hr] at hj; cases hj
  rcases h.trie_iff.1 hp with ⟨-, -, c, hj⟩ | ⟨-, -, j, c, -, hj⟩
  · exact key hj
  · exact key hj

/-- The table finds exactly what the trie maps a path to (42_code_table.md R126). -/
theorem OneTree.tableSymbol_iff (h : OneTree s s.root) (ht : TableOk s s.root s.ct) (hwf : StoreWf Config.nsym s.ct) {p : Path}
    {sym : Symbol} : tableSymbol s.ct p = some sym.toNat ↔ trieSymbol s.nm s.root p = some sym := by
  have hfind : ∀ {n e}, s.ct.find? (fun e => codePath e.2 == p) = some (n, e) →
      ∃ sy : Symbol, sy.toNat = n ∧ trieSymbol s.nm s.root p = some sy := by
    intro n e hf
    have hmem := List.mem_of_find?_eq_some hf
    have hp := List.find?_some hf
    simp only [beq_iff_eq] at hp
    have hg := (mem_iff_storeGet hwf n e).1 hmem
    have hlt := storeGet_lt hwf hg
    have hn : (BitVec.ofNat 9 n).toNat = n := by simp only [Config.nsym] at hlt; simp; omega
    refine ⟨BitVec.ofNat 9 n, hn, ?_⟩
    rw [← hp]
    exact (ht.2 (BitVec.ofNat 9 n) e (by rw [hn]; exact hg)).2.2.2
  constructor
  · intro htab
    unfold tableSymbol at htab
    obtain ⟨⟨n, e⟩, hf, hn⟩ := Option.map_eq_some_iff.1 htab
    obtain ⟨sy, hsy, htr⟩ := hfind hf
    have : sy = sym := BitVec.eq_of_toNat_eq (by simp only at hn; omega)
    rw [← this]; exact htr
  · intro htr
    obtain ⟨hlt, hseen⟩ := h.trie_seen htr
    have hsome := ht.1 sym.toNat hlt
    rw [hseen] at hsome
    obtain ⟨e, he⟩ := Option.isSome_iff_exists.1 hsome
    have hpe := h.trie_injective htr (ht.2 sym e he).2.2.2
    have hmem := (mem_iff_storeGet hwf sym.toNat e).2 he
    have hex : (s.ct.find? fun e => codePath e.2 == p).isSome := by
      rw [List.find?_isSome]
      exact ⟨(sym.toNat, e), hmem, by simp [hpe]⟩
    obtain ⟨⟨n, e'⟩, hf⟩ := Option.isSome_iff_exists.1 hex
    obtain ⟨sy, hsy, htr'⟩ := hfind hf
    rw [htr] at htr'
    cases htr'
    simp [tableSymbol, hf, hsy]

/-! ## Reading a code from the root -/

/-- From node `k`, an internal node, a walk to a leaf is read as that leaf's symbol. -/
theorem readBits_walk (w : Word48) {nm : List (Nat × Node)} {k j : NodeIdx} {q : Path} {sym : Symbol} {c : Count} (s : State)
    (hnm : s.nm = nm) (hd : s.rdone = false) (hq : q ≠ []) (hw : walkFrom nm k q = some j) (hj : readNode nm j = .ok (.leaf sym c))
    (rest : List Bool) : readBits w (q ++ rest) (setRcur k s) = readBits w rest (takeSymbol sym s) := by
  induction q generalizing k s with
  | nil => exact absurd rfl hq
  | cons b q ih =>
    have htake : takeSymbol sym (setRcur k s) = takeSymbol sym s := by
      unfold takeSymbol
      split <;> rfl
    simp only [walkFrom] at hw
    split at hw
    · next c' l r hr =>
      cases q with
      | nil =>
        simp only [walkFrom, Option.some.injEq] at hw
        rw [← hw] at hj
        have hm : matchBit (setRcur k s).nm (setRcur k s).rcur b = .ok (.hit sym) := by
          simp [matchBit, hnm, hr, hj, bind, Except.bind]
        rw [List.cons_append, List.nil_append, readBits]
        simp only [setRcur_rdone, hd, hm, bind, Except.bind, htake]
        rfl
      | cons b' q' =>
        have hw2 := hw
        simp only [walkFrom] at hw2
        split at hw2
        · next c2 l2 r2 hr2 =>
          have hm : matchBit (setRcur k s).nm (setRcur k s).rcur b = .ok (.goOn (if b = true then r else l)) := by
            simp [matchBit, hnm, hr, hr2, bind, Except.bind]
          have := ih s hnm hd (by simp) hw
          have hset : setRcur (if b = true then r else l) (setRcur k s) = setRcur (if b = true then r else l) s := rfl
          rw [List.cons_append, readBits]
          simp only [setRcur_rdone, hd, hm, bind, Except.bind, hset]
          simpa using this
        · simp at hw2
    · simp at hw

/-- A symbol's code, read from the root, is taken as the symbol, and the reader is at the root again (44_bit_reader.md R150,
R155). -/
theorem OneTree.readBits_code (h : OneTree s s.root) (w : Word48) {p : Path} {sym : Symbol}
    (hp : trieSymbol s.nm s.root p = some sym) (hd : s.rdone = false) (hr : s.rcur = s.root) (rest : List Bool) :
    readBits w (p ++ rest) s = readBits w rest (takeSymbol sym s) := by
  have hset : setRcur s.root s = s := by
    unfold setRcur
    cases s
    simp only at hr
    rw [hr]
  rcases h.trie_iff.1 hp with ⟨-, rfl, c, hl⟩ | ⟨-, hne, j, c, hw, hj⟩
  · have hm : matchBit s.nm s.rcur false = .ok (.hit sym) := by simp [matchBit, hr, hl, bind, Except.bind]
    simp [readBits, hd, hm, bind, Except.bind]
  · have := readBits_walk w s rfl hd hne hw hj rest
    rwa [hset] at this

/-! ## Bits cut into bytes -/

theorem readBits_done (w : Word48) (bs : List Bool) {s : State} (hd : s.rdone = true) : readBits w bs s = .ok s := by
  cases bs <;> simp [readBits, hd]

theorem readBits_append (w : Word48) (xs ys : List Bool) {s u : State} (hs : s.fault = .none)
    (h : readBits w (xs ++ ys) s = .ok u) (hu : u.fault = .none) :
    ∃ m, readBits w xs s = .ok m ∧ m.fault = .none ∧ readBits w ys m = .ok u := by
  induction xs generalizing s with
  | nil => exact ⟨s, rfl, hs, h⟩
  | cons b xs ih =>
    by_cases hd : s.rdone = true
    · rw [readBits_done w _ hd] at h
      exact ⟨s, readBits_done w _ hd, hs, by rw [readBits_done w _ hd]; exact h⟩
    · have hdf : s.rdone = false := by simpa using hd
      simp only [List.cons_append, readBits, hdf, bind, Except.bind] at h ⊢
      cases hm : matchBit s.nm s.rcur b with
      | error f => simp [hm] at h
      | ok r =>
        cases r with
        | noCode =>
          simp [hm] at h
          rw [← h] at hu
          simp at hu
        | goOn nxt =>
          simp [hm] at h ⊢
          exact ih (by simpa using hs) h
        | hit sym =>
          simp [hm] at h ⊢
          exact ih (by rw [(takeSymbol_fault sym s).1]; exact hs) h

/-- The command word matters only to a fault. -/
theorem readBits_word (w w' : Word48) (bs : List Bool) {s u : State} (h : readBits w bs s = .ok u) (hu : u.fault = .none) :
    readBits w' bs s = .ok u := by
  induction bs generalizing s with
  | nil => exact h
  | cons b bs ih =>
    by_cases hd : s.rdone = true
    · rw [readBits_done w _ hd] at h
      rw [readBits_done w' _ hd]
      exact h
    · have hdf : s.rdone = false := by simpa using hd
      simp only [readBits, hdf, bind, Except.bind] at h ⊢
      cases hm : matchBit s.nm s.rcur b with
      | error f => simp [hm] at h
      | ok r =>
        cases r with
        | noCode =>
          simp [hm] at h
          rw [← h] at hu
          simp at hu
        | goOn nxt => simp [hm] at h ⊢; exact ih h
        | hit sym => simp [hm] at h ⊢; exact ih h

end Sys2Proof.Safety
end

