-- ==== Sys2Proof/Laws/Writer.lean ====
section
/-! SUPPORT. The bit writer: what appending a bit and a path does (43_bit_writer.md R130, R135). -/

namespace Sys2Proof.Safety

open Sys2Proof.Machine

/-! ## Bytes of a bit sequence -/

theorem byteOf_bit (l : List Bool) {i : Nat} (hi : i < 8) : (byteOf l).getLsbD i = l.getD (7 - i) false := by
  unfold byteOf
  rw [BitVec.getLsbD_ofBoolListLE]
  interval_cases i <;> rfl

theorem byte_ext {x y : BitVec 8} (h : ∀ i < 8, x.getLsbD i = y.getLsbD i) : x = y :=
  BitVec.eq_of_getLsbD_eq fun i hi => h i hi

theorem byteOf_append_of_length {l : List Bool} (hl : l.length = 8) (m : List Bool) : byteOf (l ++ m) = byteOf l := by
  apply byte_ext
  intro i hi
  rw [byteOf_bit _ hi, byteOf_bit _ hi]
  simp only [List.getD_eq_getElem?_getD]
  rw [List.getElem?_append_left (by omega)]

theorem wholeBytes_append_of_length {l : List Bool} (hl : l.length = 8) (m : List Bool) :
    wholeBytes (l ++ m) = byteOf l :: wholeBytes m := by
  have hlen : (l ++ m).length / 8 = m.length / 8 + 1 := by simp [hl]
  unfold wholeBytes
  rw [hlen, List.range_succ_eq_map, List.map_cons, List.map_map]
  congr 1
  · simp [byteOf_append_of_length hl]
  · apply List.map_congr_left
    intro j _
    simp only [Function.comp]
    rw [List.drop_append, List.drop_eq_nil_of_le (by omega), List.nil_append, hl]
    congr 2

theorem restBits_append_of_length {l : List Bool} (hl : l.length = 8) (m : List Bool) : restBits (l ++ m) = restBits m := by
  have hlen : (l ++ m).length / 8 = m.length / 8 + 1 := by simp [hl]
  unfold restBits
  rw [hlen, List.drop_append, List.drop_eq_nil_of_le (by omega), List.nil_append, hl]
  congr 1

theorem wholeBytes_short {l : List Bool} (h : l.length < 8) : wholeBytes l = [] := by
  simp [wholeBytes, Nat.div_eq_of_lt h]

theorem restBits_short {l : List Bool} (h : l.length < 8) : restBits l = l := by
  simp [restBits, Nat.div_eq_of_lt h]

theorem restBits_length (l : List Bool) : (restBits l).length = l.length % 8 := by
  simp [restBits]; omega

/-! ## Appending -/

/-- Only `WACC`, `WNB` and `WOUT` change (43_bit_writer.md R130). -/
theorem appendBit_frame (b : Bool) (s : State) :
    appendBit b s = { s with wacc := (appendBit b s).wacc, wnb := (appendBit b s).wnb, wout := (appendBit b s).wout } := by
  unfold appendBit
  split <;> rfl

theorem appendPath_frame (p : Path) (s : State) :
    appendPath p s = { s with wacc := (appendPath p s).wacc, wnb := (appendPath p s).wnb, wout := (appendPath p s).wout } := by
  induction p generalizing s with
  | nil => rfl
  | cons b p ih =>
    have hcons : appendPath (b :: p) s = appendPath p (appendBit b s) := rfl
    rw [hcons, ih, appendBit_frame]

theorem placeBit_byteOf {c : List Bool} (hc : c.length < 8) (b : Bool) :
    placeBit (byteOf c) (BitVec.ofNat 3 c.length) b = byteOf (c ++ [b]) := by
  have hn : (BitVec.ofNat 3 c.length).toNat = c.length := by simp; omega
  apply byte_ext
  intro i hi
  simp only [placeBit, hn, BitVec.getLsbD_or, BitVec.getLsbD_shiftLeft, BitVec.getLsbD_setWidth, BitVec.getLsbD_ofBool]
  rw [byteOf_bit _ hi, byteOf_bit _ hi]
  simp only [List.getD_eq_getElem?_getD]
  rcases Nat.lt_trichotomy (7 - i) c.length with h | h | h
  · rw [List.getElem?_append_left h]
    have h1 : ¬ (i - (7 - c.length) = 0) ∨ i < 7 - c.length := by omega
    have h2 : ¬ i < 7 - c.length := by omega
    have h3 : ¬ i - (7 - c.length) = 0 := by omega
    simp [h3]
  · have h2 : i = 7 - c.length := by omega
    rw [List.getElem?_eq_none (by omega), List.getElem?_append_right (by omega)]
    have h3 : 7 - i - c.length = 0 := by omega
    have h4 : i - (7 - c.length) = 0 := by omega
    have h5 : ¬ i < 7 - c.length := by omega
    simp [h3, h4, h5, hi]
  · rw [List.getElem?_eq_none (by omega), List.getElem?_eq_none (by simp; omega)]
    have h2 : i < 7 - c.length := by omega
    simp [h2]

/-- Appending a bit to a writer that holds fewer than seven bits. -/
theorem appendBit_holds {c : List Bool} {s : State} (h : Holds c s) (hc : c.length < 7) (b : Bool) :
    Holds (c ++ [b]) (appendBit b s) ∧ (appendBit b s).wout = s.wout := by
  obtain ⟨-, hnb, hacc⟩ := h
  have h7 : ¬ s.wnb = 7 := by
    rw [hnb]
    intro hcon
    have := congrArg BitVec.toNat hcon
    simp at this
    omega
  unfold appendBit
  rw [if_neg h7]
  refine ⟨⟨by simp; omega, ?_, ?_⟩, rfl⟩
  · simp only [setAccumulator_wnb, hnb, List.length_append, List.length_cons, List.length_nil]
    apply BitVec.eq_of_toNat_eq
    simp [BitVec.toNat_add]
  · simp only [setAccumulator_wacc, hnb, hacc]
    exact placeBit_byteOf (by omega) b

/-- The eighth bit completes the byte, which is emitted at once (43_bit_writer.md R130). -/
theorem appendBit_emits {c : List Bool} {s : State} (h : Holds c s) (hc : c.length = 7) (b : Bool) :
    Holds [] (appendBit b s) ∧ (appendBit b s).wout = s.wout ++ [byteOf (c ++ [b])] := by
  obtain ⟨-, hnb, hacc⟩ := h
  have h7 : s.wnb = 7 := by rw [hnb, hc]; rfl
  unfold appendBit
  rw [if_pos h7]
  refine ⟨⟨by simp, by simp, by simp [byteOf]; rfl⟩, ?_⟩
  simp only [setAccumulator_wout, emitW_wout, hnb, hacc]
  rw [placeBit_byteOf (by omega) b]

/-- The packing law for any path and any held bits (43_bit_writer.md R135). -/
theorem appendPath_packs (p : Path) {c : List Bool} {s : State} (h : Holds c s) :
    (appendPath p s).wout = s.wout ++ wholeBytes (c ++ p) ∧ Holds (restBits (c ++ p)) (appendPath p s) := by
  induction p generalizing c s with
  | nil =>
    rw [List.append_nil, wholeBytes_short h.1, restBits_short h.1]
    exact ⟨by simp [appendPath], h⟩
  | cons b p ih =>
    have hcons : appendPath (b :: p) s = appendPath p (appendBit b s) := rfl
    rw [hcons]
    have hassoc : c ++ b :: p = (c ++ [b]) ++ p := by simp
    rw [hassoc]
    rcases Nat.lt_or_ge c.length 7 with hc | hc
    · obtain ⟨h1, h2⟩ := appendBit_holds h hc b
      obtain ⟨h3, h4⟩ := ih h1
      exact ⟨by rw [h3, h2], h4⟩
    · have hc7 : c.length = 7 := by have := h.1; omega
      obtain ⟨h1, h2⟩ := appendBit_emits h hc7 b
      obtain ⟨h3, h4⟩ := ih h1
      have hl : (c ++ [b]).length = 8 := by simp [hc7]
      rw [wholeBytes_append_of_length hl, restBits_append_of_length hl]
      refine ⟨?_, h4⟩
      rw [h3, h2]; simp

/-- A writer whose unwritten positions are 0 holds some bits (10_state.md R29). -/
theorem holds_of_writerOk {s : State} (h : WriterOk s) : ∃ c, Holds c s := by
  have hlt := s.wnb.isLt
  refine ⟨(List.range s.wnb.toNat).map fun i => s.wacc.getLsbD (7 - i), by simp; omega, by simp, ?_⟩
  apply byte_ext
  intro i hi
  rw [byteOf_bit _ hi]
  rcases Nat.lt_or_ge (7 - i) s.wnb.toNat with hl | hl
  · rw [List.getD_eq_getElem?_getD, List.getElem?_map, List.getElem?_range hl]
    simp
    congr 1; omega
  · rw [List.getD_eq_default _ _ (by simpa using hl)]
    exact h.1 i (by omega)

theorem zeros_of_holds {c : List Bool} {s : State} (h : Holds c s) : ∀ i, i + s.wnb.toNat < 8 → s.wacc.getLsbD i = false := by
  obtain ⟨hlen, hnb, hacc⟩ := h
  intro i hi
  have hn : s.wnb.toNat = c.length := by rw [hnb]; simp; omega
  rw [hacc, byteOf_bit _ (by omega), List.getD_eq_default _ _ (by omega)]

/-- Appending keeps the writer's invariant while it is not finalised. -/
theorem appendPath_writerOk (p : Path) {s : State} (h : WriterOk s) (hf : s.wfin = false) : WriterOk (appendPath p s) := by
  obtain ⟨c, hc⟩ := holds_of_writerOk h
  refine ⟨zeros_of_holds (appendPath_packs p hc).2, fun hw => ?_⟩
  rw [appendPath_frame] at hw
  simp [hf] at hw

theorem flushPartial_frame (s : State) :
    flushPartial s = { s with wacc := (flushPartial s).wacc, wnb := (flushPartial s).wnb, wout := (flushPartial s).wout } := by
  unfold flushPartial
  split <;> rfl

/-- The flush pads the held bits with zeros (43_bit_writer.md R133). -/
theorem flushPartial_spec {c : List Bool} {s : State} (h : Holds c s) :
    (flushPartial s).wout = s.wout ++ (if c = [] then [] else [byteOf c]) ∧ (flushPartial s).wnb = 0 ∧ (flushPartial s).wacc = 0 := by
  obtain ⟨hlen, hnb, hacc⟩ := h
  unfold flushPartial
  by_cases hc : c = []
  · subst hc
    have h0 : s.wnb = 0 := by rw [hnb]; rfl
    rw [if_pos h0]
    refine ⟨by simp, h0, ?_⟩
    rw [hacc]; rfl
  · have h0 : ¬ s.wnb = 0 := by
      rw [hnb]
      intro hcon
      have := congrArg BitVec.toNat hcon
      have hpos := List.length_pos_of_ne_nil hc
      simp at this
      omega
    rw [if_neg h0]
    simp [hc, hacc]

end Sys2Proof.Safety
end

