-- ==== Sys2Proof/Laws/Frames.lean ====
section
/-! SUPPORT. What each shared operation can do, in every state: if it answers a next state, then this one. -/

namespace Sys2Proof.Safety

open Sys2Proof.Machine

variable {s t : State}

/-- `priorityInsert` changes the queue only. -/
theorem priorityInsert_ok {k : NodeIdx} (h : priorityInsert k s = .ok t) : ∃ q, t = setQueue q s := by
  unfold priorityInsert at h
  cases hr : readNode s.nm k with
  | error f => simp [hr, bind, Except.bind] at h
  | ok n =>
    simp only [hr, bind, Except.bind] at h
    split at h
    · cases hi : insertByCount s.nm (nodeCnt n) k s.pq with
      | error f => simp [hi] at h
      | ok q => simp [hi] at h; exact ⟨q, h.symm⟩
    · simp at h

/-- Everything PUSH's effect can do. -/
theorem pushLeaf_ok {sym : Symbol} {count : Count32} (h : pushLeaf sym count s = .ok t) :
    s.nnode.toNat < 513 ∧ s.nleaf.toNat < 257 ∧ ∃ q, t = setQueue q (pushed sym count s) := by
  unfold pushLeaf at h
  simp only [bind, Except.bind] at h
  cases ha : allocNode (.leaf sym (leafCount count)) s with
  | error f => simp [ha] at h
  | ok s1 =>
    obtain ⟨hN, rfl⟩ := allocNode_ok_iff.1 ha
    simp only [ha] at h
    cases hc : countLeaf (setSeen sym (putNode (.leaf sym (leafCount count)) s)) with
    | error f => simp [hc] at h
    | ok s2 =>
      obtain ⟨hL, rfl⟩ := countLeaf_ok_iff.1 hc
      simp only [hc] at h
      obtain ⟨q, rfl⟩ := priorityInsert_ok h
      exact ⟨hN, hL, q, rfl⟩

/-- Everything a merge can do. -/
theorem mergeStep_ok (h : mergeStep s = .ok t) :
    s.nnode.toNat < 513 ∧ ∃ c a b q q', s.pq = a :: b :: q ∧ t = setQueue q' (merged c a b q s) := by
  unfold mergeStep at h
  split at h
  · next a b q hpq =>
    simp only [bind, Except.bind] at h
    cases hna : readNode s.nm a with
    | error f => simp [hna] at h
    | ok na =>
      cases hnb : readNode s.nm b with
      | error f => simp [hna, hnb] at h
      | ok nb =>
        cases hc : addCounts (nodeCnt na) (nodeCnt nb) with
        | error f => simp [hna, hnb, hc] at h
        | ok c =>
          cases ha : allocNode (.inner c a b) (setQueue q s) with
          | error f => simp [hna, hnb, hc, ha] at h
          | ok s1 =>
            obtain ⟨hN, rfl⟩ := allocNode_ok_iff.1 ha
            simp only [hna, hnb, hc, ha] at h
            obtain ⟨q', rfl⟩ := priorityInsert_ok h
            exact ⟨hN, c, a, b, q, q', hpq, rfl⟩
  · simp at h

/-- The merges write no node already allocated and change nothing but `NM`, `NNODE` and the queue. -/
theorem mergeLoop_ok {n : Nat} (h : mergeLoop n s = .ok t) : MergeFrame s t ∧ (StoreWf Config.maxNode s.nm → StoreWf Config.maxNode t.nm) := by
  induction n generalizing s with
  | zero => cases h; exact ⟨mergeFrame_refl _, id⟩
  | succ n ih =>
    simp only [mergeLoop, bind, Except.bind] at h
    cases hs : mergeStep s with
    | error f => simp [hs] at h
    | ok s1 =>
      simp only [hs] at h
      obtain ⟨hN, c, a, b, q, q', -, rfl⟩ := mergeStep_ok hs
      obtain ⟨⟨h1, h2, h3⟩, hwf⟩ := ih h
      have hnn : (setQueue q' (merged c a b q s)).nnode.toNat = s.nnode.toNat + 1 := nnode_succ hN
      refine ⟨⟨by rw [h1]; rfl, fun i hi => ?_, by omega⟩, fun hw => hwf (storePut_wf _ hw hN)⟩
      rw [h2 i (by omega)]
      exact storeGet_put_other s.nm (i := s.nnode.toNat) _ (by omega)

/-- `writeCode` changes `CT` only. -/
theorem writeCode_ok {sym : Symbol} {p : Path} (h : writeCode sym p s = .ok t) : sym.toNat < 257 ∧ t = putCode sym p s := by
  unfold writeCode at h
  split at h
  · next hlt => cases h; exact ⟨hlt, rfl⟩
  · simp at h

/-- `Assign` changes `CT` only. -/
theorem assign_ok {fuel : Nat} {k : NodeIdx} {p : Path} (h : assign fuel k p s = .ok t) :
    t = { s with ct := t.ct } ∧ (StoreWf Config.nsym s.ct → StoreWf Config.nsym t.ct) := by
  induction fuel generalizing k p s t with
  | zero => simp [assign] at h
  | succ fuel ih =>
    simp only [assign, bind, Except.bind] at h
    cases hr : readNode s.nm k with
    | error f => simp [hr] at h
    | ok n =>
      cases n with
      | leaf sym c =>
        simp only [hr] at h
        obtain ⟨hlt, rfl⟩ := writeCode_ok h
        exact ⟨rfl, fun hw => storePut_wf _ hw hlt⟩
      | inner c l r =>
        simp only [hr] at h
        cases hl : assign fuel l (p ++ [false]) s with
        | error f => simp [hl] at h
        | ok s1 =>
          simp only [hl] at h
          obtain ⟨h1, h2⟩ := ih hl
          obtain ⟨h3, h4⟩ := ih h
          exact ⟨by rw [h3, h1], fun hw => h4 (h2 hw)⟩

/-- `GenCodes` changes `CT` only. -/
theorem genCodes_ok (h : genCodes s = .ok t) : t = { s with ct := t.ct } ∧ (StoreWf Config.nsym s.ct → StoreWf Config.nsym t.ct) := by
  simp only [genCodes, bind, Except.bind] at h
  cases hr : readNode s.nm s.root with
  | error f => simp [hr] at h
  | ok n =>
    cases n with
    | leaf sym c =>
      simp only [hr] at h
      obtain ⟨hlt, rfl⟩ := writeCode_ok h
      exact ⟨rfl, fun hw => storePut_wf _ hw hlt⟩
    | inner c l r =>
      simp only [hr] at h
      exact assign_ok h

/-- Everything BUILD's effect can do, in every state. -/
theorem buildTree_ok (h : buildTree s = .ok t) :
    t = { s with nm := t.nm, nnode := t.nnode, pq := t.pq, root := t.root, ct := t.ct, rcur := t.root, phase := .built } ∧
      (∀ i < s.nnode.toNat, storeGet t.nm i = storeGet s.nm i) ∧ (StoresWf s → StoresWf t) := by
  simp only [buildTree, bind, Except.bind] at h
  cases hl : mergeLoop (s.pq.length - 1) s with
  | error f => simp [hl] at h
  | ok s1 =>
    simp only [hl] at h
    cases hh : queueHead s1 with
    | error f => simp [hh] at h
    | ok k =>
      simp only [hh] at h
      cases hg : genCodes (setRoot k s1) with
      | error f => simp [hg] at h
      | ok s2 =>
        simp only [hg, Except.ok.injEq] at h
        obtain ⟨hf, hw1⟩ := mergeLoop_ok hl
        obtain ⟨h1, hw2⟩ := genCodes_ok hg
        have hr := hf.rest
        subst h
        refine ⟨?_, fun i hi => ?_, fun hw => ⟨?_, ?_⟩⟩
        · rw [h1, hr]; rfl
        · rw [h1]; exact hf.nodes i hi
        · rw [h1]; exact hw1 hw.1
        · refine hw2 ?_
          rw [hr]; exact hw.2

/-- Everything the bits of a DEC can do, in every state (44_bit_reader.md R151). -/
theorem readBits_ok {w : Word48} {bs : List Bool} (h : readBits w bs s = .ok t) :
    ReaderFrame s t ∧ (s.rdone = true → t = s) ∧
      ((t.fault = s.fault ∧ t.finfo = s.finfo) ∨ (t.fault = .noMatch ∧ t.finfo = w ∧ t.rdone = false)) ∧
      ∃ out, t.rout = s.rout ++ out ∧ out.length ≤ bs.length := by
  induction bs generalizing s with
  | nil => cases h; exact ⟨rfl, fun _ => rfl, Or.inl ⟨rfl, rfl⟩, [], by simp, by simp⟩
  | cons b bs ih =>
    by_cases hd : s.rdone = true
    · rw [readBits_done w _ hd] at h
      cases h
      exact ⟨rfl, fun _ => rfl, Or.inl ⟨rfl, rfl⟩, [], by simp, by simp⟩
    · have hdf : s.rdone = false := by simpa using hd
      simp only [readBits, hdf, bind, Except.bind] at h
      cases hm : matchBit s.nm s.rcur b with
      | error f => simp [hm] at h
      | ok r =>
        cases r with
        | noCode =>
          simp [hm] at h
          subst h
          exact ⟨rfl, fun hc => absurd hc hd, Or.inr ⟨rfl, rfl, hdf⟩, [], by simp, by simp⟩
        | goOn nxt =>
          simp [hm] at h
          obtain ⟨h1, -, h3, out, h4, h5⟩ := ih h
          exact ⟨readerFrame_trans (rfl : ReaderFrame s (setRcur nxt s)) h1, fun hc => absurd hc hd, h3, out, h4, by simp; omega⟩
        | hit sym =>
          simp [hm] at h
          obtain ⟨h1, -, h3, out, h4, h5⟩ := ih h
          obtain ⟨h8, h9⟩ := takeSymbol_fault sym s
          refine ⟨readerFrame_trans (takeSymbol_frame sym s) h1, fun hc => absurd hc hd, by rw [h8, h9] at h3; exact h3, ?_⟩
          by_cases he : sym = Config.eodSym
          · have hro : (takeSymbol sym s).rout = s.rout := by simp only [takeSymbol, he, if_true]; rfl
            exact ⟨out, by rw [h4, hro], by simp; omega⟩
          · have hro : (takeSymbol sym s).rout = s.rout ++ [symByte sym] := by simp only [takeSymbol, he, if_false]; rfl
            exact ⟨symByte sym :: out, by rw [h4, hro]; simp, by simp; omega⟩

/-! ## The meanings: every way each can answer a next state -/

/-- Everything PUSH can answer. -/
theorem execPush_next {sym : Symbol} {count : Count32} (h : execPush sym count s = .next t) :
    (s.phase = .built ∧ t = raiseFault .badPhase (encode (.push sym count)) s) ∨
    (s.phase = .load ∧ sym.toNat < 257 ∧ s.seen.getLsbD sym.toNat = true ∧ t = raiseFault .duplicateSymbol (encode (.push sym count)) s) ∨
    (s.phase = .load ∧ sym.toNat < 257 ∧ s.seen.getLsbD sym.toNat = false ∧ pushLeaf sym count s = .ok t) := by
  unfold execPush readSeen at h
  cases hp : s.phase with
  | built => simp [hp] at h; exact Or.inl ⟨rfl, h.symm⟩
  | load =>
    right
    by_cases hs : sym.toNat < 257
    · cases hse : s.seen.getLsbD sym.toNat with
      | true =>
        simp only [hp, if_true, hs, hse, Host.Outcome.next.injEq] at h
        exact Or.inl ⟨rfl, hs, rfl, h.symm⟩
      | false =>
        simp only [hp, if_true, hs, hse] at h
        exact Or.inr ⟨rfl, hs, rfl, outcomeOf_next_iff.1 h⟩
    · simp [hp, hs] at h

/-- Everything BUILD can answer. -/
theorem execBuild_next (h : execBuild s = .next t) :
    (s.phase = .built ∧ t = raiseFault .badPhase (encode .build) s) ∨
    (s.phase = .load ∧ s.nleaf = 0 ∧ t = raiseFault .invalidInput (encode .build) s) ∨
    (s.phase = .load ∧ s.nleaf ≠ 0 ∧ buildTree s = .ok t) := by
  unfold execBuild at h
  cases hp : s.phase with
  | built => simp [hp] at h; exact Or.inl ⟨rfl, h.symm⟩
  | load =>
    right
    by_cases hn : s.nleaf = 0
    · simp [hp, hn] at h; exact Or.inl ⟨rfl, hn, h.symm⟩
    · simp only [hp, if_true, hn, if_false] at h; exact Or.inr ⟨rfl, hn, outcomeOf_next_iff.1 h⟩

/-- Everything ENC can answer. -/
theorem execEnc_next {sym : Symbol} (h : execEnc sym s = .next t) :
    (s.phase = .load ∧ t = raiseFault .badPhase (encode (.enc sym)) s) ∨
    (s.phase = .built ∧ s.wfin = true ∧ t = raiseFault .writeAfterFinal (encode (.enc sym)) s) ∨
    (s.phase = .built ∧ s.wfin = false ∧ lookupCode sym s = .ok none ∧ t = raiseFault .symbolNotCoded (encode (.enc sym)) s) ∨
    (s.phase = .built ∧ s.wfin = false ∧ ∃ p, lookupCode sym s = .ok (some p) ∧ t = appendPath p s) := by
  unfold execEnc at h
  cases hp : s.phase with
  | load => simp [hp] at h; exact Or.inl ⟨rfl, h.symm⟩
  | built =>
    right
    cases hw : s.wfin with
    | true => simp [hp, hw] at h; exact Or.inl ⟨rfl, rfl, h.symm⟩
    | false =>
      right
      cases hl : lookupCode sym s with
      | error f => simp [hp, hw, hl] at h
      | ok o =>
        cases o with
        | none => simp [hp, hw, hl] at h; exact Or.inl ⟨rfl, rfl, rfl, h.symm⟩
        | some p => simp [hp, hw, hl] at h; exact Or.inr ⟨rfl, rfl, p, rfl, h.symm⟩

/-- Everything WBITS can answer. -/
theorem execWbits_next {len : BitVec 9} {bits : BitVec 32} (h : execWbits len bits s = .next t) :
    (s.wfin = true ∧ t = raiseFault .writeAfterFinal (encode (.wbits len bits)) s) ∨
    (s.wfin = false ∧ ∃ p, wbitsPath len bits = .ok p ∧ t = appendPath p s) := by
  unfold execWbits at h
  cases hw : s.wfin with
  | true => simp [hw] at h; exact Or.inl ⟨rfl, h.symm⟩
  | false =>
    cases hl : wbitsPath len bits with
    | error f => simp [hw, hl] at h
    | ok p => simp [hw, hl] at h; exact Or.inr ⟨rfl, p, rfl, h.symm⟩

/-- Everything WFIN can answer. -/
theorem execWfin_next (h : execWfin s = .next t) :
    (s.wfin = true ∧ t = raiseFault .writeAfterFinal (encode .wfin) s) ∨ (s.wfin = false ∧ t = setWfin (flushPartial s)) := by
  unfold execWfin at h
  cases hw : s.wfin with
  | true => simp [hw] at h; exact Or.inl ⟨rfl, h.symm⟩
  | false => simp [hw] at h; exact Or.inr ⟨rfl, h.symm⟩

/-- Everything DEC can answer. -/
theorem execDec_next {byte : Byte} (h : execDec byte s = .next t) :
    (s.phase = .load ∧ t = raiseFault .badPhase (encode (.dec byte)) s) ∨
    (s.phase = .built ∧ readBits (encode (.dec byte)) (byteBits byte) s = .ok t) := by
  unfold execDec at h
  cases hp : s.phase with
  | load => simp [hp] at h; exact Or.inl ⟨rfl, h.symm⟩
  | built => simp [hp] at h; exact Or.inr ⟨rfl, outcomeOf_next_iff.1 h⟩

/-- Everything the block can do with an accepted word (40_control.md R90). -/
theorem accept_next {w : Word48} (h : accept w s = .next t) :
    (s.fault ≠ .none ∧ w = 0x100000000000#48 ∧ t = clearRun s) ∨
    (s.fault ≠ .none ∧ w ≠ 0x100000000000#48 ∧ t = s) ∨
    (s.fault = .none ∧ (∃ e, decode w = .error e) ∧ t = raiseFault .illegalCommand w s) ∨
    (s.fault = .none ∧ ∃ i, decode w = .ok i ∧ exec i s = .next t) := by
  unfold accept faulted at h
  by_cases hf : s.fault = .none
  · right; right
    simp only [hf, ne_eq, not_true_eq_false, decide_false, Bool.false_eq_true, if_false] at h
    cases hd : decode w with
    | error e => simp only [hd, Host.Outcome.next.injEq] at h; exact Or.inl ⟨hf, ⟨e, rfl⟩, h.symm⟩
    | ok i => simp only [hd] at h; exact Or.inr ⟨hf, i, rfl, h⟩
  · by_cases hw : w = 0x100000000000#48
    · left
      simp only [hf, ne_eq, not_false_eq_true, decide_true, if_true, hw, exec, execClear, Host.Outcome.next.injEq] at h
      exact ⟨hf, hw, h.symm⟩
    · right; left
      simp only [hf, ne_eq, not_false_eq_true, decide_true, if_true, hw, if_false, Host.Outcome.next.injEq] at h
      exact ⟨hf, hw, h.symm⟩

/-- Everything a step can do. -/
theorem step_next (h : step s = .next t) :
    (s.port = [] ∧ t = s) ∨ (∃ rest, s.port = .resetPulse :: rest ∧ t = hardwareReset (setPort rest s)) ∨
    ∃ w rest, s.port = .command w :: rest ∧ accept w (setPort rest s) = .next t := by
  unfold step serveHost at h
  cases hp : s.port with
  | nil => simp only [hp, Host.Outcome.next.injEq] at h; exact Or.inl ⟨rfl, h.symm⟩
  | cons e rest =>
    right
    simp only [hp, hostEvent] at h
    cases e with
    | command w => exact Or.inr ⟨w, rest, rfl, h⟩
    | resetPulse => simp only [Host.Outcome.next.injEq] at h; exact Or.inl ⟨rest, rfl, h.symm⟩

end Sys2Proof.Safety
end

