-- ==== Sys2Proof/Laws/Invariant.lean ====
section
/-! SUPPORT. The invariant of 10_state.md R38, effect by effect: what keeps it, and what it gives in phase BUILT. -/

namespace Sys2Proof.Safety

open Sys2Proof.Machine

variable {s t : State}

/-- `TreeOk` speaks only of the counters, `SEEN`, the nodes and the queue. -/
theorem TreeOk.congr (h : TreeOk s) (h1 : t.nleaf = s.nleaf) (h2 : t.nnode = s.nnode) (h3 : t.seen = s.seen) (h4 : t.nm = s.nm)
    (h5 : t.pq = s.pq) : TreeOk t := by
  obtain ⟨a, b, c, d, e, f, g, i⟩ := h
  refine ⟨?_, ?_, ?_, ?_, ?_, ?_, ?_, ?_⟩
  · simpa only [Bounds, h1, h2, h5] using a
  · simpa only [SeenCounted, h1, h3] using b
  · simpa only [LeavesOk, h1, h3, h4] using c
  · simpa only [NodesOk, h1, h2, h4] using d
  · simpa only [QueueOk, h2, h4, h5] using e
  · simpa only [ForestOk, h2, h4, h5] using f
  · simpa only [CountsOk, h1, h4, h5] using g
  · simpa only [h4] using i

/-- The streams and the host's events are not in the invariant. -/
theorem Inv.streams (h : Inv s) (a b : List Byte) (p : List HostEvent) : Inv { s with wout := a, rout := b, port := p } :=
  ⟨h.tree.congr rfl rfl rfl rfl rfl, h.loadPhase, h.builtPhase, h.codes, h.writer, h.reader, h.faultInfo, h.ctWf⟩

/-- A change of the writer alone keeps the invariant if the writer's part holds. -/
theorem Inv.writerChange (h : Inv s) (ht : t = { s with wacc := t.wacc, wnb := t.wnb, wout := t.wout, wfin := t.wfin })
    (hw : WriterOk t) : Inv t := by
  rw [ht] at hw ⊢
  exact ⟨h.tree.congr rfl rfl rfl rfl rfl, h.loadPhase, h.builtPhase, h.codes, hw, h.reader, h.faultInfo, h.ctWf⟩

/-- A change of the reader alone, in BUILT, keeps the invariant if the reader's part and the fault's hold. -/
theorem Inv.readerChange (h : Inv s) (hp : s.phase = .built) (ht : ReaderFrame s t) (hr : ReaderOk t) (hf : FaultOk t) : Inv t := by
  unfold ReaderFrame at ht
  rw [ht] at hr hf ⊢
  exact ⟨h.tree.congr rfl rfl rfl rfl rfl, fun hc => absurd (hp.symm.trans hc) (by simp), h.builtPhase, h.codes, h.writer, hr, hf,
    h.ctWf⟩

/-- PUSH's effect keeps the invariant (41_tree_builder.md R102). -/
theorem Inv.pushLeaf (h : Inv s) (hp : s.phase = .load) {sym : Symbol} {count : Count32} (hs : sym.toNat < 257)
    (hu : s.seen.getLsbD sym.toNat = false) (hk : Machine.pushLeaf sym count s = .ok t) : Inv t := by
  have hl := h.loadPhase hp
  obtain ⟨l1, l2, hq, hok, _, _, htree⟩ := pushLeaf_spec h.tree hl.1 count hs hu
  rw [hok] at hk
  cases hk
  have hn : s.nleaf.toNat < 257 := nleaf_lt_of_unseen h.tree hs hu
  have notBuilt : s.phase ≠ .built := by rw [hp]; simp
  refine ⟨htree, fun _ => ⟨?_, ?_, hl.2.2.1, hl.2.2.2.1, hl.2.2.2.2.1, hl.2.2.2.2.2⟩, fun hc => absurd hc notBuilt,
    fun hc => absurd hc notBuilt, h.writer, fun hc => absurd hc notBuilt, h.faultInfo, h.ctWf⟩
  · show (s.nnode + 1).toNat = (s.nleaf + 1).toNat
    rw [nnode_succ (by omega), nleaf_succ hn, hl.1]
  · show (l1 ++ s.nnode :: l2).length = (s.nleaf + 1).toNat
    have := hl.2.1
    rw [hq] at this
    rw [nleaf_succ hn, ← this]
    simp
    omega

theorem nleaf_pos (h : s.nleaf ≠ 0) : 1 ≤ s.nleaf.toNat := by
  rcases Nat.eq_zero_or_pos s.nleaf.toNat with h0 | h0
  · exact absurd (BitVec.eq_of_toNat_eq h0) h
  · exact h0

/-- BUILD's effect keeps the invariant (41_tree_builder.md R104). -/
theorem Inv.buildTree (h : Inv s) (hp : s.phase = .load) (hn : s.nleaf ≠ 0) (hk : Machine.buildTree s = .ok t) : Inv t := by
  have hl := h.loadPhase hp
  obtain ⟨t', hok, hone, htab, hwfct, heq, _, _⟩ := buildTree_spec h.tree hl.2.1 (nleaf_pos hn) hl.2.2.1
  rw [hok] at hk
  cases hk
  have hph : t.phase = .built := by rw [heq]
  have hrc : t.rcur = t.root := by rw [heq]
  refine ⟨hone.tree, fun hc => absurd (hph.symm.trans hc) (by simp), fun _ => ⟨?_, hone.nnode_eq, hone.queue⟩, fun _ => htab, ?_,
    fun _ => ⟨by rw [hrc]; exact hone.standing_root, fun _ => hrc⟩, ?_, hwfct⟩
  · have := hone.nnode_eq
    omega
  · have := h.writer
    rw [heq]
    exact this
  · have := h.faultInfo
    rw [heq]
    exact this

/-- In BUILT the tree is one tree. -/
theorem Inv.oneTree (h : Inv s) (hp : s.phase = .built) : OneTree s s.root := ⟨h.tree, (h.builtPhase hp).2.2⟩

/-- Everything `lookupCode` can answer for a legal symbol in BUILT (42_code_table.md R122): none for a symbol that was not pushed,
else the path the trie maps to it. -/
theorem Inv.lookup (h : Inv s) (hp : s.phase = .built) {sym : Symbol} (hs : sym.toNat < 257) :
    (s.seen.getLsbD sym.toNat = false ∧ lookupCode sym s = .ok none) ∨
    (s.seen.getLsbD sym.toNat = true ∧ ∃ p, lookupCode sym s = .ok (some p) ∧ trieSymbol s.nm s.root p = some sym) := by
  have hc := h.codes hp
  have h1 := hc.1 sym.toNat hs
  unfold lookupCode
  simp only [show sym.toNat < Config.nsym from hs, if_true]
  cases hg : storeGet s.ct sym.toNat with
  | none => left; rw [hg] at h1; exact ⟨by simpa using h1.symm, rfl⟩
  | some e =>
    right
    rw [hg] at h1
    have h2 := hc.2 sym e hg
    exact ⟨by simpa using h1.symm, codePath e, by simp [h2.2.1], h2.2.2.2⟩

/-- The word of a command other than NOP is not the all-zero word (10_state.md R38 item 10). -/
theorem encode_ne_zero {i : Instr} (h : i ≠ .nop) : encode i ≠ 0 := by
  intro hc
  have h0 : opField (encode i) = 0 := by rw [hc]; rfl
  simp only [encode, opField_packWord] at h0
  cases i <;> simp [opcodeOf] at h0 h

end Sys2Proof.Safety
end

