-- ==== Sys2Proof/Laws/Past.lean ====
section
/-! SUPPORT. No command reads the streams or the host's events, and PUSH, BUILD and DEC do not read `WFIN`: each commutes with a
change of what it does not read (10_state.md R31, R34; 43_bit_writer.md R134). -/

namespace Sys2Proof.Machine

/-- `s` with bytes put before its streams, and `WFIN` and the host's events changed. -/
def withPast (x y : List Byte) (f : Bool → Bool) (g : List HostEvent → List HostEvent) (s : State) : State :=
  { s with wout := x ++ s.wout, rout := y ++ s.rout, wfin := f s.wfin, port := g s.port }

/-- A function of the next state of an outcome. -/
def mapNext (h : State → State) : Host.Outcome State Fault Refusal → Host.Outcome State Fault Refusal
  | .next s => .next (h s)
  | .fault r => .fault r
  | .refused r => .refused r

variable {x y : List Byte} {f : Bool → Bool} {g : List HostEvent → List HostEvent} {s : State}

theorem outcomeOf_map (h : State → State) (r : Except Fault State) : outcomeOf (r.map h) = mapNext h (outcomeOf r) := by
  cases r <;> rfl

theorem priorityInsert_past (k : NodeIdx) :
    priorityInsert k (withPast x y f g s) = (priorityInsert k s).map (withPast x y f g) := by
  simp only [priorityInsert, withPast, bind, Except.bind]
  cases readNode s.nm k with
  | error e => rfl
  | ok n =>
    by_cases h : s.pq.length < Config.maxLeaf
    · simp only [h, if_true]
      cases insertByCount s.nm (nodeCnt n) k s.pq <;> rfl
    · simp only [h, if_false]; rfl

theorem allocNode_past (n : Node) : allocNode n (withPast x y f g s) = (allocNode n s).map (withPast x y f g) := by
  simp only [allocNode, withPast]
  by_cases h : s.nnode.toNat < Config.maxNode
  · simp only [h, if_true]; rfl
  · simp only [h, if_false]; rfl

theorem countLeaf_past : countLeaf (withPast x y f g s) = (countLeaf s).map (withPast x y f g) := by
  simp only [countLeaf, withPast]
  by_cases h : s.nleaf.toNat < Config.maxLeaf
  · simp only [h, if_true]; rfl
  · simp only [h, if_false]; rfl

theorem pushLeaf_past (sym : Symbol) (count : Count32) :
    pushLeaf sym count (withPast x y f g s) = (pushLeaf sym count s).map (withPast x y f g) := by
  simp only [pushLeaf, bind, Except.bind, allocNode_past]
  cases allocNode (.leaf sym (leafCount count)) s with
  | error e => rfl
  | ok s1 =>
    simp only [Except.map]
    rw [show setSeen sym (withPast x y f g s1) = withPast x y f g (setSeen sym s1) from rfl, countLeaf_past]
    cases countLeaf (setSeen sym s1) with
    | error e => rfl
    | ok s2 =>
      simp only [Except.map]
      rw [show (withPast x y f g s).nnode = s.nnode from rfl, priorityInsert_past]
      rfl

theorem mergeStep_past : mergeStep (withPast x y f g s) = (mergeStep s).map (withPast x y f g) := by
  unfold mergeStep
  rw [show (withPast x y f g s).pq = s.pq from rfl, show (withPast x y f g s).nm = s.nm from rfl,
    show (withPast x y f g s).nnode = s.nnode from rfl]
  split
  · rename_i a b q _
    rw [show setQueue q (withPast x y f g s) = withPast x y f g (setQueue q s) from rfl]
    simp only [bind, Except.bind, allocNode_past]
    cases readNode s.nm a with
    | error e => rfl
    | ok na =>
      cases readNode s.nm b with
      | error e => rfl
      | ok nb =>
        simp only
        cases addCounts (nodeCnt na) (nodeCnt nb) with
        | error e => rfl
        | ok c =>
          simp only
          cases allocNode (.inner c a b) (setQueue q s) with
          | error e => rfl
          | ok s1 => simp only [Except.map]; rw [priorityInsert_past]; rfl
  · rfl

theorem mergeLoop_past (n : Nat) : mergeLoop n (withPast x y f g s) = (mergeLoop n s).map (withPast x y f g) := by
  induction n generalizing s with
  | zero => rfl
  | succ n ih =>
    simp only [mergeLoop, bind, Except.bind, mergeStep_past]
    cases mergeStep s with
    | error e => rfl
    | ok s1 => exact ih

theorem writeCode_past (sym : Symbol) (p : Path) :
    writeCode sym p (withPast x y f g s) = (writeCode sym p s).map (withPast x y f g) := by
  simp only [writeCode]
  by_cases h : sym.toNat < Config.nsym
  · simp only [h, if_true]; rfl
  · simp only [h, if_false]; rfl

theorem assign_past (fuel : Nat) (k : NodeIdx) (p : Path) :
    assign fuel k p (withPast x y f g s) = (assign fuel k p s).map (withPast x y f g) := by
  induction fuel generalizing k p s with
  | zero => rfl
  | succ fuel ih =>
    simp only [assign, bind, Except.bind]
    rw [show (withPast x y f g s).nm = s.nm from rfl]
    cases readNode s.nm k with
    | error e => rfl
    | ok n =>
      cases n with
      | leaf sym c => exact writeCode_past sym p
      | inner c l r =>
        simp only [ih]
        cases assign fuel l (p ++ [false]) s with
        | error e => rfl
        | ok s1 => exact ih r (p ++ [true])

theorem genCodes_past : genCodes (withPast x y f g s) = (genCodes s).map (withPast x y f g) := by
  simp only [genCodes, bind, Except.bind]
  rw [show (withPast x y f g s).nm = s.nm from rfl, show (withPast x y f g s).root = s.root from rfl]
  cases readNode s.nm s.root with
  | error e => rfl
  | ok n =>
    cases n with
    | leaf sym c => exact writeCode_past sym _
    | inner c l r => exact assign_past _ _ _

theorem buildTree_past : buildTree (withPast x y f g s) = (buildTree s).map (withPast x y f g) := by
  simp only [buildTree, bind, Except.bind]
  rw [show (withPast x y f g s).pq = s.pq from rfl, mergeLoop_past]
  cases mergeLoop (s.pq.length - 1) s with
  | error e => rfl
  | ok s1 =>
    simp only [Except.map]
    rw [show queueHead (withPast x y f g s1) = queueHead s1 from rfl]
    cases queueHead s1 with
    | error e => rfl
    | ok k =>
      simp only
      rw [show setRoot k (withPast x y f g s1) = withPast x y f g (setRoot k s1) from rfl, genCodes_past]
      cases genCodes (setRoot k s1) <;> rfl

theorem takeSymbol_past (sym : Symbol) : takeSymbol sym (withPast x y f g s) = withPast x y f g (takeSymbol sym s) := by
  unfold takeSymbol
  by_cases h : sym = Config.eodSym
  · simp only [h, if_true]; rfl
  · simp only [h, if_false, emitR, withPast, setRcur, List.append_assoc]

theorem readBits_past (w : Word48) (bs : List Bool) :
    readBits w bs (withPast x y f g s) = (readBits w bs s).map (withPast x y f g) := by
  induction bs generalizing s with
  | nil => rfl
  | cons b bs ih =>
    unfold readBits
    rw [show (withPast x y f g s).rdone = s.rdone from rfl, show (withPast x y f g s).nm = s.nm from rfl,
      show (withPast x y f g s).rcur = s.rcur from rfl]
    cases s.rdone with
    | true => rfl
    | false =>
      simp only [Bool.false_eq_true, if_false, bind, Except.bind]
      cases matchBit s.nm s.rcur b with
      | error e => rfl
      | ok r =>
        cases r with
        | noCode => rfl
        | goOn nxt => exact ih (s := setRcur nxt s)
        | hit sym => simp only [takeSymbol_past]; exact ih

/-- PUSH reads neither the streams, nor `WFIN`, nor the host's events. -/
theorem execPush_past (sym : Symbol) (count : Count32) :
    execPush sym count (withPast x y f g s) = mapNext (withPast x y f g) (execPush sym count s) := by
  unfold execPush
  rw [show (withPast x y f g s).phase = s.phase from rfl, show readSeen sym (withPast x y f g s) = readSeen sym s from rfl, pushLeaf_past]
  split
  · cases readSeen sym s with
    | error e => rfl
    | ok b => cases b with
      | true => rfl
      | false => exact outcomeOf_map _ _
  · rfl

/-- BUILD reads neither the streams, nor `WFIN`, nor the host's events. -/
theorem execBuild_past : execBuild (withPast x y f g s) = mapNext (withPast x y f g) (execBuild s) := by
  unfold execBuild
  rw [show (withPast x y f g s).phase = s.phase from rfl, show (withPast x y f g s).nleaf = s.nleaf from rfl, buildTree_past]
  split
  · split
    · rfl
    · exact outcomeOf_map _ _
  · rfl

/-- DEC reads neither the streams, nor `WFIN`, nor the host's events. -/
theorem execDec_past (byte : Byte) : execDec byte (withPast x y f g s) = mapNext (withPast x y f g) (execDec byte s) := by
  unfold execDec
  rw [show (withPast x y f g s).phase = s.phase from rfl, readBits_past]
  split
  · exact outcomeOf_map _ _
  · rfl

theorem appendBit_past (b : Bool) : appendBit b (withPast x y f g s) = withPast x y f g (appendBit b s) := by
  unfold appendBit
  rw [show (withPast x y f g s).wnb = s.wnb from rfl, show (withPast x y f g s).wacc = s.wacc from rfl]
  split
  · simp only [emitW, withPast, setAccumulator, List.append_assoc]
  · rfl

theorem appendPath_past (p : Path) : appendPath p (withPast x y f g s) = withPast x y f g (appendPath p s) := by
  induction p generalizing s with
  | nil => rfl
  | cons b p ih => exact (congrArg (appendPath p) (appendBit_past b)).trans (ih (s := appendBit b s))

theorem flushPartial_past : flushPartial (withPast x y f g s) = withPast x y f g (flushPartial s) := by
  unfold flushPartial
  rw [show (withPast x y f g s).wnb = s.wnb from rfl, show (withPast x y f g s).wacc = s.wacc from rfl]
  split
  · rfl
  · simp only [emitW, withPast, setAccumulator, List.append_assoc]

/-- No command reads the streams or the host's events. -/
theorem exec_past (i : Instr) : exec i (withPast x y id g s) = mapNext (withPast x y id g) (exec i s) := by
  cases i with
  | nop => rfl
  | clear => simp only [exec, execClear, clearRun, withPast, mapNext]; rfl
  | push sym count => exact execPush_past sym count
  | build => exact execBuild_past
  | enc sym =>
    show execEnc sym _ = mapNext _ (execEnc sym s)
    unfold execEnc
    rw [show (withPast x y id g s).phase = s.phase from rfl, show (withPast x y id g s).wfin = s.wfin from rfl,
      show lookupCode sym (withPast x y id g s) = lookupCode sym s from rfl]
    split
    · split
      · rfl
      · cases lookupCode sym s with
        | error e => rfl
        | ok o => cases o with
          | none => rfl
          | some p => simp only [appendPath_past]; rfl
    · rfl
  | wbits len bits =>
    show execWbits len bits _ = mapNext _ (execWbits len bits s)
    unfold execWbits
    rw [show (withPast x y id g s).wfin = s.wfin from rfl]
    split
    · rfl
    · cases wbitsPath len bits with
      | error e => rfl
      | ok p => simp only [appendPath_past]; rfl
  | wfin =>
    show execWfin _ = mapNext _ (execWfin s)
    unfold execWfin
    rw [show (withPast x y id g s).wfin = s.wfin from rfl]
    split
    · rfl
    · rw [flushPartial_past]; rfl
  | dec byte => exact execDec_past byte

/-- The step on an accepted word reads neither the streams nor the host's later events. -/
theorem accept_past (w : Word48) : accept w (withPast x y id g s) = mapNext (withPast x y id g) (accept w s) := by
  unfold accept
  rw [show faulted (withPast x y id g s) = faulted s from rfl]
  split
  · split
    · exact exec_past .clear
    · rfl
  · cases decode w with
    | error e => rfl
    | ok i => exact exec_past i

end Sys2Proof.Machine
end

