-- ==== Sys2Proof/Laws/PerInstr.lean ====
section
/-! SUPPORT. For every command: the fields of its word are its opcode and its operands (30_encoding.md R70, R71). -/

namespace Sys2Proof.Laws.EncodedFields

/-- The four fields of the command's word (30_encoding.md R70). -/
def Statement (i : Instr) : Prop :=
  opField (encode i) = opcodeOf i ∧ zField (encode i) = 0 ∧ aField (encode i) = aOperand i ∧ dField (encode i) = dOperand i

theorem ofWord (i : Instr) : Statement i :=
  ⟨opField_packWord _ _ _, zField_packWord _ _ _, aField_packWord _ _ _, dField_packWord _ _ _⟩

theorem nop : Statement .nop := ofWord _

theorem clear : Statement .clear := ofWord _

theorem push (sym : Symbol) (count : Count32) : Statement (.push sym count) := ofWord _

theorem build : Statement .build := ofWord _

theorem enc (sym : Symbol) : Statement (.enc sym) := ofWord _

theorem wbits (len : BitVec 9) (bits : BitVec 32) : Statement (.wbits len bits) := ofWord _

theorem wfin : Statement .wfin := ofWord _

theorem dec (byte : Byte) : Statement (.dec byte) := ofWord _

end Sys2Proof.Laws.EncodedFields
end

