-- ==== Sys2Proof/Tests/Slice0.lean ====
section
/-! SUPPORT. Tests. Every expected value is 95_test_vectors.md's (its vector or program is named) or worked out from the rule
named; the theorems `test_hyp_…` show, for each statement with premises, a state and operands that meet them all. -/

namespace Sys2Proof.Tests

open Sys2Proof
open Sys2Proof.Machine
open Sys2Proof.Safety

/-! ## Small states -/

/-- The state of a next outcome. -/
def stateOf : Host.Outcome State Fault Refusal → State
  | .next s => s
  | _ => State.reset

/-- The outcome is a next state. -/
def isNext : Host.Outcome State Fault Refusal → Bool
  | .next _ => true
  | _ => false

theorem eq_next {o : Host.Outcome State Fault Refusal} (h : isNext o = true) : o = .next (stateOf o) := by
  cases o with
  | next s => rfl
  | fault f => cases h
  | refused r => cases h

/-- The state a list of commands leaves from reset. -/
def after (is : List Instr) : State := stateOf (runCommands is State.reset)

/-- One command from a state. -/
def run1 (i : Instr) (s : State) : State := stateOf (exec i s)

/-- P1 after its pushes: `a:3, b:1, EOD:1`. -/
def p1Table : State := run1 (.push 256 1) (run1 (.push 98 1) (run1 (.push 97 3) State.reset))

/-- P1 after BUILD. -/
def p1 : State := run1 .build p1Table

/-- `EOD:1` alone, before BUILD (P2). -/
def p2Table : State := run1 (.push 256 1) State.reset

/-- P2 after BUILD. -/
def p2 : State := run1 .build p2Table

/-- `a:5` alone, before BUILD (P6). -/
def p6Table : State := run1 (.push 97 5) State.reset

/-- P6 after BUILD. -/
def p6 : State := run1 .build p6Table

/-- One `a` pushed, then the fault DuplicateSymbol (V-F-6). -/
def faultedState : State := run1 (.push 97 1) (run1 (.push 97 3) State.reset)

/-! ## The invariant holds in them -/

theorem inv_reset : Inv State.reset := by
  refine ⟨⟨?_, ?_, ⟨fun i hi => ?_, fun i hi => ?_⟩, ⟨fun i => ?_, ?_, fun i _ hi => ?_⟩, ⟨?_, ?_⟩, ?_, ?_, storeWf_nil _⟩, ?_, ?_, ?_,
    ⟨?_, ?_⟩, ?_, ?_, storeWf_nil _⟩
  all_goals first
    | (simp [Bounds, SeenCounted, seenCount, ForestOk, childList, CountsOk, leafTotal, LoadOk, BuiltOk, CodesOk, ReaderOk, FaultOk, State.reset]; done)
    | exact absurd hi (by simp [State.reset])

theorem inv_run_push {s : State} (h : Inv s) (sym : Symbol) (count : Count32) (hn : isNext (exec (.push sym count) s) = true)
    (hf : (run1 (.push sym count) s).fault = .none) : Inv (run1 (.push sym count) s) := by
  have he := eq_next hn
  unfold run1 at hf ⊢
  rcases execPush_next he with ⟨_, ht⟩ | ⟨_, _, _, ht⟩ | ⟨hp, hs, hu, hk⟩
  · rw [ht] at hf; cases hf
  · rw [ht] at hf; cases hf
  · exact h.pushLeaf hp hs hu hk

theorem inv_run_build {s : State} (h : Inv s) (hn : isNext (exec .build s) = true) (hf : (run1 .build s).fault = .none) :
    Inv (run1 .build s) := by
  have he := eq_next hn
  unfold run1 at hf ⊢
  rcases execBuild_next he with ⟨_, ht⟩ | ⟨_, _, ht⟩ | ⟨hp, hl, hk⟩
  · rw [ht] at hf; cases hf
  · rw [ht] at hf; cases hf
  · exact h.buildTree hp hl hk

theorem inv_p6Table : Inv p6Table := inv_run_push inv_reset 97 5 (by decide) (by decide)
theorem inv_p6 : Inv p6 := inv_run_build inv_p6Table (by decide) (by decide)
theorem inv_p2Table : Inv p2Table := inv_run_push inv_reset 256 1 (by decide) (by decide)
theorem inv_p2 : Inv p2 := inv_run_build inv_p2Table (by decide) (by decide)
theorem inv_p1Table : Inv p1Table :=
  inv_run_push (inv_run_push (inv_run_push inv_reset 97 3 (by decide) (by decide)) 98 1 (by decide) (by decide)) 256 1 (by decide)
    (by decide)
theorem inv_p1 : Inv p1 := inv_run_build inv_p1Table (by decide) (by decide)

/-- P1's tree after EOD was read: `RDONE = 1`, the reader at the root. -/
def p1Done : State := { p1 with rdone := true }

theorem inv_p1Done : Inv p1Done :=
  inv_p1.readerChange (by decide) rfl (fun _ => ⟨inv_p1.reader (by decide) |>.1, fun _ => by decide⟩) inv_p1.faultInfo

/-- P1's tree, the writer finalised. -/
def p1Final : State := { p1 with wfin := true }

/-! ## WellFormed: each check refuses an ill-formed term (30_encoding.md R72) -/

theorem test_wf_push_257 : wellFormed (.push 257 0) = false := by decide
theorem test_wf_enc_511 : wellFormed (.enc 511) = false := by decide
theorem test_wf_wbits_33 : wellFormed (.wbits 33 0) = false := by decide

/-- The largest legal values (30_encoding.md R72), a term of every constructor: the premise of `DecodeEncodeRoundTrip`. -/
theorem test_hyp_DecodeEncodeRoundTrip : WellFormed .nop ∧ WellFormed .clear ∧ WellFormed (.push 256 0xFFFFFFFF) ∧ WellFormed .build ∧
    WellFormed (.enc 256) ∧ WellFormed (.wbits 32 0xFFFFFFFF) ∧ WellFormed .wfin ∧ WellFormed (.dec 0xFF) := by decide

/-! ## Decoding words written out (95_test_vectors.md section 2.1) -/

theorem test_decode_nop : decode 0b0000_000_000000000_00000000000000000000000000000000#48 = .ok .nop := by decide
theorem test_decode_clear : decode 0b0001_000_000000000_00000000000000000000000000000000#48 = .ok .clear := by decide
/-- V-E-3: `sym` 97 is `001100001`, `count` 3. -/
theorem test_decode_push : decode 0b0010_000_001100001_00000000000000000000000000000011#48 = .ok (.push 97 3) := by decide
/-- V-E-5. -/
theorem test_decode_push_largest : decode 0x2000FFFFFFFF#48 = .ok (.push 0 4294967295) := by decide
theorem test_decode_build : decode 0b0011_000_000000000_00000000000000000000000000000000#48 = .ok .build := by decide
/-- V-E-9. -/
theorem test_decode_enc : decode 0b0100_000_100000000_00000000000000000000000000000000#48 = .ok (.enc 256) := by decide
/-- V-E-11 and V-E-12: the longest path, and the ignored bits kept in the term. -/
theorem test_decode_wbits : decode 0b0101_000_000100000_11011110101011011011111011101111#48 = .ok (.wbits 32 0xDEADBEEF) ∧
    decode 0x5006FFFFFFC1#48 = .ok (.wbits 6 0xFFFFFFC1) := by decide
theorem test_decode_wfin : decode 0b0110_000_000000000_00000000000000000000000000000000#48 = .ok .wfin := by decide
/-- V-E-15: `byte` is `11100010`. -/
theorem test_decode_dec : decode 0b0111_000_000000000_00000000000000000000000011100010#48 = .ok (.dec 0xE2) := by decide
/-- V-E-16 to V-E-20: classes 1 to 3. -/
theorem test_illegal_1_to_3 : decode 0x800000000000#48 = .error .reservedOpcode ∧ decode 0xF00000000000#48 = .error .reservedOpcode ∧
    decode 0x220000000000#48 = .error .zNotZero ∧ decode 0x000000000001#48 = .error .operandNotZero ∧
    decode 0x100100000000#48 = .error .operandNotZero := by decide
/-- V-E-21 to V-E-26: classes 4 to 7. -/
theorem test_illegal_4_to_7 : decode 0x210100000001#48 = .error .symbolReserved ∧ decode 0x41FF00000000#48 = .error .symbolReserved ∧
    decode 0x406100000001#48 = .error .encDataNotZero ∧ decode 0x502100000000#48 = .error .lengthReserved ∧
    decode 0x700000000100#48 = .error .decFieldNotZero ∧ decode 0x700100000000#48 = .error .decFieldNotZero := by decide
/-- 30_encoding.md R77: the encoder on the same words. -/
theorem test_encode : encode (.push 97 3) = 0x206100000003#48 ∧ encode (.enc 256) = 0x410000000000#48 ∧
    encode (.wbits 6 0xFFFFFFC1) = 0x5006FFFFFFC1#48 ∧ encode (.dec 0xE2) = 0x7000000000E2#48 := by decide
/-- A word of the opcode table, by its number. -/
theorem test_decodeTableWord : decodeTableWord 48 0x206100000003 = some (.push 97 3) ∧ decodeTableWord 48 0x800000000000 = none := by
  decide
/-- The very next step after `withFetchWord` at reset runs the word. -/
theorem test_withFetchWord : (stateOf (step (State.reset.withFetchWord 48 0x206100000003))).pq = [0] ∧
    (stateOf (step (State.reset.withFetchWord 48 0x206100000003))).port = [] := by decide

/-! ## One or two steps per command -/

/-- V-C-4, V-C-5: while faulted NOP and a malformed CLEAR are discarded. -/
theorem test_nop_discarded : stateOf (accept 0x000000000000#48 faultedState) = faultedState ∧
    stateOf (accept 0x100100000000#48 faultedState) = faultedState := by decide
/-- V-C-3: CLEAR loses the held bits. -/
theorem test_clear : run1 .clear (after [.wbits 3 5]) = State.reset := by decide
/-- V-C-6. -/
theorem test_clear_faulted : stateOf (accept 0x100000000000#48 faultedState) = State.reset := by decide
/-- V-TB-1: the second 3 goes after the first, before the 5. -/
theorem test_push_order : (after [.push 0 5, .push 1 3, .push 2 9, .push 3 3]).pq = [1, 3, 0, 2] := by decide
/-- V-TB-10: a repeated symbol. -/
theorem test_push_duplicate : faultedState.fault = .duplicateSymbol ∧ faultedState.finfo = 0x206100000001#48 ∧
    faultedState.nleaf = 1 := by decide
/-- P1 row 5. -/
theorem test_build_p1 : storeGet p1.nm 3 = some (.inner 2 1 2) ∧ storeGet p1.nm 4 = some (.inner 5 3 0) ∧ p1.nnode = 5 ∧ p1.pq = [4] ∧
    p1.root = 4 ∧ p1.rcur = 4 ∧ p1.phase = .built := by decide
/-- V-TB-9: the sum does not wrap, so node 3 goes behind leaf 2. -/
theorem test_build_exact : storeGet (after [.push 0 0xFFFFFFFF, .push 1 0xFFFFFFFF, .push 2 0xFFFFFFFF, .build]).nm 4 =
    some (.inner 12884901885 2 3) := by decide
/-- V-CT-1: the codes of P1. -/
theorem test_codes_p1 : lookupCode 97 p1 = .ok (some [true]) ∧ lookupCode 98 p1 = .ok (some [false, false]) ∧
    lookupCode 256 p1 = .ok (some [false, true]) ∧ lookupCode 99 p1 = .ok none := by decide
/-- V-CT-2: the code of a leaf root. -/
theorem test_codes_p2 : lookupCode 256 p2 = .ok (some [false]) := by decide
/-- P1 rows 6 and 9: `a` from empty, then `b`. -/
theorem test_enc : (run1 (.enc 97) p1).wacc = 0x80 ∧ (run1 (.enc 97) p1).wnb = 1 ∧ (run1 (.enc 98) (run1 (.enc 97) p1)).wacc = 0x80 ∧
    (run1 (.enc 98) (run1 (.enc 97) p1)).wnb = 3 := by decide
/-- V-F-8: BadPhase is tested before WriteAfterFinal. -/
theorem test_enc_phase_first : (run1 (.enc 98) (run1 .wfin State.reset)).fault = .badPhase := by decide
/-- V-BW-4: five bits complete the byte, two are carried over. -/
theorem test_wbits : (run1 (.wbits 7 0x7F) (run1 (.wbits 3 5) State.reset)).wout = [0xBF] ∧
    (run1 (.wbits 7 0x7F) (run1 (.wbits 3 5) State.reset)).wacc = 0xC0 ∧
    (run1 (.wbits 7 0x7F) (run1 (.wbits 3 5) State.reset)).wnb = 2 := by decide
/-- V-BW-13: even an empty write faults after finalisation. -/
theorem test_wbits_final : (run1 (.wbits 0 0) (run1 .wfin State.reset)).fault = .writeAfterFinal := by decide
/-- V-BW-11. -/
theorem test_wfin_pads : (run1 .wfin (run1 (.wbits 7 0x71) State.reset)).wout = [0xE2] := by decide
/-- V-BW-9: no byte on a byte boundary. -/
theorem test_wfin_empty : (run1 .wfin State.reset).wout = [] ∧ (run1 .wfin State.reset).wfin = true := by decide
/-- V-BR-1. -/
theorem test_dec_p1 : (run1 (.dec 0xE2) p1).rout = [0x61, 0x61, 0x61, 0x62] ∧ (run1 (.dec 0xE2) p1).rdone = true ∧
    (run1 (.dec 0xE2) p1).rcur = 4 := by decide
/-- V-BR-9. -/
theorem test_dec_noMatch : (run1 (.dec 0x20) p6).rout = [0x61, 0x61] ∧ (run1 (.dec 0x20) p6).fault = .noMatch ∧
    (run1 (.dec 0x20) p6).finfo = 0x700000000020#48 ∧ (run1 (.dec 0x20) p6).rdone = false := by decide
/-- 30_encoding.md R78: pseudo-commands. -/
theorem test_assembler : assembleLine ['D', 'E', 'C', 'S', 'T', 'R', ' ', 'E', '2', ' ', '0', '0'] =
    some [0x7000000000E2#48, 0x700000000000#48] := by decide
/-- 10_state.md R32 at reset and in P1. -/
theorem test_status : p1.status = ⟨1, 0, 0, false, 3, 5, 4, 0, false, false⟩ := by decide

/-! ## Premises: encoding and step -/

theorem test_hyp_IllegalWordsAreTheSevenClasses : decode 0x800000000000#48 = .error .reservedOpcode ∧ State.reset.fault = .none := by
  decide
/-- `WBITS 3` with `d[31:3]` zero and with it all ones. -/
theorem test_hyp_WbitsIgnoresBitsAboveItsLength : (3 : BitVec 9).toNat ≤ 32 ∧
    (∀ i < (3 : BitVec 9).toNat, (5 : BitVec 32).getLsbD i = (0xFFFFFFFD : BitVec 32).getLsbD i) ∧ State.reset.wfin = false := by decide
/-- Each of the four cases. -/
theorem test_hyp_AcceptedWordHasOneOutcome : faultedState.fault ≠ .none ∧ 0x100100000000#48 ≠ 0x100000000000#48 ∧
    State.reset.fault = .none ∧ decode 0x800000000000#48 = .error .reservedOpcode ∧ decode 0x100000000000#48 = .ok .clear := by decide
theorem test_hyp_StepRunsTheDecodedCommand : ({ State.reset with port := [.command 0x206100000003#48, .resetPulse] } : State).port =
      .command 0x206100000003#48 :: [.resetPulse] ∧
    ({ State.reset with port := [.command 0x206100000003#48, .resetPulse] } : State).fault = .none ∧
    decode 0x206100000003#48 = .ok (.push 97 3) := by decide
theorem test_hyp_FaultedBlockDiscardsAllButClear : faultedState.fault ≠ .none := by decide
/-- A discarded word, CLEAR, and reset. -/
theorem test_hyp_FirstFaultIsKept : faultedState.fault ≠ .none ∧
    isNext (step { faultedState with port := [.command 0x800000000000#48] }) = true ∧
    isNext (step { faultedState with port := [.command 0x100000000000#48] }) = true ∧
    isNext (step { faultedState with port := [.resetPulse] }) = true := by decide
theorem test_hyp_IdleBlockHoldsItsState : State.reset.port = [] := by decide
theorem test_hyp_HardwareResetGivesTheResetState : ({ p1 with port := [.resetPulse] } : State).port = .resetPulse :: [] := by decide

/-! ## Premises: PUSH and BUILD -/

/-- The reset state with EOD, and a queue that is not empty. -/
theorem test_hyp_PushInsertsItsLeaf : Inv State.reset ∧ State.reset.phase = .load ∧ (256 : Symbol).toNat ≤ 256 ∧
    State.reset.seen.getLsbD (256 : Symbol).toNat = false ∧ Inv p1Table ∧ p1Table.phase = .load ∧
    p1Table.seen.getLsbD (0 : Symbol).toNat = false :=
  ⟨inv_reset, by decide, by decide, by decide, inv_p1Table, by decide, by decide⟩
theorem test_hyp_PushChecksPhaseThenDuplicate : (256 : Symbol).toNat ≤ 256 ∧ p1.phase = .built ∧ p1Table.phase = .load ∧
    p1Table.seen.getLsbD (256 : Symbol).toNat = true := by decide
/-- A PUSH that inserts and one that faults. -/
theorem test_hyp_PushFrame : exec (.push 97 3) State.reset = .next (run1 (.push 97 3) State.reset) ∧
    exec (.push 97 3) p1 = .next (run1 (.push 97 3) p1) := ⟨eq_next (by decide), eq_next (by decide)⟩
/-- Three leaves, and one. -/
theorem test_hyp_BuildMakesTheTree : Inv p1Table ∧ p1Table.phase = .load ∧ p1Table.nleaf ≠ 0 ∧ Inv p2Table ∧ p2Table.phase = .load ∧
    p2Table.nleaf ≠ 0 := ⟨inv_p1Table, by decide, by decide, inv_p2Table, by decide, by decide⟩
/-- Three leaves: two merges, the second of an internal node and a leaf. One leaf: no merge. -/
theorem test_hyp_EveryMergeTakesTheTwoLowest : Inv p1Table ∧ p1Table.phase = .load ∧ p1Table.nleaf = 3 ∧ p1Table.nleaf ≠ 0 ∧
    Inv p2Table ∧ p2Table.phase = .load ∧ p2Table.nleaf = 1 ∧ p2Table.nleaf ≠ 0 :=
  ⟨inv_p1Table, by decide, by decide, by decide, inv_p2Table, by decide, by decide, by decide⟩
/-- Three leaves: two internal nodes, 3 and 4. -/
theorem test_hyp_InternalNodesInOrderOfCount : Inv p1Table ∧ p1Table.phase = .load ∧ p1Table.nleaf ≠ 0 ∧
    exec .build p1Table = .next p1 ∧ p1Table.nleaf.toNat ≤ 3 ∧ 3 + 1 < p1.nnode.toNat :=
  ⟨inv_p1Table, by decide, by decide, eq_next (by decide), by decide, by decide⟩
theorem test_hyp_BuildChecksPhaseThenEmptyTable : p1.phase = .built ∧ State.reset.phase = .load ∧ State.reset.nleaf = 0 := by decide
theorem test_hyp_BuildFrame : exec .build p1Table = .next p1 ∧ exec .build State.reset = .next (run1 .build State.reset) :=
  ⟨eq_next (by decide), eq_next (by decide)⟩
theorem test_hyp_SingleEntryGetsTheCodeZero : Inv p2Table ∧ p2Table.phase = .load ∧ p2Table.nleaf = 1 :=
  ⟨inv_p2Table, by decide, by decide⟩

/-! ## Premises: the code table -/

theorem test_hyp_TableAndTrieAreInverse : Inv p1 ∧ p1.phase = .built ∧ accept 0x406100000000#48 p1 = .next (run1 (.enc 97) p1) ∧
    0x406100000000#48 ≠ 0x100000000000#48 ∧ Inv p2 ∧ p2.phase = .built :=
  ⟨inv_p1, by decide, eq_next (o := accept 0x406100000000#48 p1) (by decide), by decide, inv_p2, by decide⟩
theorem test_hyp_NoCodeBeginsAnother : Inv p1 ∧ p1.phase = .built ∧ (98 : Symbol) ≠ 256 ∧
    lookupCode 98 p1 = .ok (some [false, false]) ∧ lookupCode 256 p1 = .ok (some [false, true]) :=
  ⟨inv_p1, by decide, by decide, by decide, by decide⟩
/-- Three leaves with sequences of exactly `NLEAF - 1` bits, and one leaf. -/
theorem test_hyp_CodeLengthsAndCompleteness : Inv p1 ∧ p1.phase = .built ∧ lookupCode 98 p1 = .ok (some [false, false]) ∧
    p1.nleaf ≠ 1 ∧ p1.nleaf.toNat - 1 ≤ [true, true].length ∧ Inv p2 ∧ p2.phase = .built ∧ p2.nleaf = 1 ∧
    lookupCode 256 p2 = .ok (some [false]) :=
  ⟨inv_p1, by decide, by decide, by decide, by decide, inv_p2, by decide, by decide, by decide⟩
/-- The last node there is, and the first index that is none. -/
theorem test_hyp_EveryNodeIsReachedByOnePath : Inv p1 ∧ p1.phase = .built ∧ (4 : NodeIdx).toNat < p1.nnode.toNat ∧
    p1.nnode.toNat ≤ (5 : NodeIdx).toNat := ⟨inv_p1, by decide, by decide, by decide⟩

/-! ## Premises: the writer -/

/-- A writer that holds seven bits, so that the code's first bit completes a byte. -/
theorem test_hyp_EncAppendsTheCode :
    ({ p1 with wacc := 0xE2, wnb := 7 } : State).phase = .built ∧ ({ p1 with wacc := 0xE2, wnb := 7 } : State).wfin = false ∧
    lookupCode 98 { p1 with wacc := 0xE2, wnb := 7 } = .ok (some [false, false]) ∧
    Holds [true, true, true, false, false, false, true] { p1 with wacc := 0xE2, wnb := 7 } :=
  ⟨by decide, by decide, by decide, by decide, by decide, by decide⟩
theorem test_hyp_EncChecksInOrder : (256 : Symbol).toNat ≤ 256 ∧ State.reset.phase = .load ∧ p1Final.phase = .built ∧
    p1Final.wfin = true ∧ p1.phase = .built ∧ p1.wfin = false ∧ codeValid 99 p1 = false := by decide
/-- The empty path, and the longest. -/
theorem test_hyp_WbitsAppendsItsPath : State.reset.wfin = false ∧ Holds [] State.reset ∧ (0 : BitVec 9).toNat ≤ 32 ∧
    ([] : List Bool).length = (0 : BitVec 9).toNat ∧ (32 : BitVec 9).toNat ≤ 32 ∧
    (List.replicate 32 true).length = (32 : BitVec 9).toNat ∧
    ∀ i < (32 : BitVec 9).toNat, (List.replicate 32 true).getD i false = (0xFFFFFFFF : BitVec 32).getLsbD (32 - 1 - i) :=
  ⟨by decide, ⟨by decide, by decide, by decide⟩, by decide, by decide, by decide, by decide, by decide⟩
/-- Nothing held, seven bits held, and a finalised writer. -/
theorem test_hyp_WfinFlushesThePartialByte : Holds [] State.reset ∧ State.reset.wfin = false ∧
    Holds [true, true, true, false, false, false, true] (after [.wbits 7 0x71]) ∧ (after [.wbits 7 0x71]).wfin = false ∧
    Holds [] p1Final ∧ p1Final.wfin = true :=
  ⟨⟨by decide, by decide, by decide⟩, by decide, ⟨by decide, by decide, by decide⟩, by decide, ⟨by decide, by decide, by decide⟩,
    by decide⟩
theorem test_hyp_NoWriteAfterFinalisation : p1Final.wfin = true ∧ p1Final.phase = .built ∧
    isNext (step { p1Final with port := [.command 0x100000000000#48] }) = true ∧
    isNext (exec (.dec 0xE2) p1Final) = true ∧ isNext (exec .build p1Final) = true ∧ isNext (exec (.push 0 0) p1Final) = true := by
  decide
theorem test_hyp_WriterFrame : exec (.enc 97) p1 = .next (run1 (.enc 97) p1) ∧
    exec (.wbits 3 5) State.reset = .next (run1 (.wbits 3 5) State.reset) ∧ exec .wfin State.reset = .next (run1 .wfin State.reset) :=
  ⟨eq_next (by decide), eq_next (by decide), eq_next (by decide)⟩
/-- P5's first commands, then WFIN and a command after it. -/
theorem test_hyp_PackingLaw : Holds [] State.reset ∧ State.reset.wfin = false ∧ State.reset.fault = .none ∧
    (∀ i ∈ [Instr.wbits 3 5, .wbits 7 0x7F] ++ [.push 97 3], WellFormed i ∧ i ≠ .clear) ∧ Instr.wfin ∉ [Instr.wbits 3 5, .wbits 7 0x7F] ∧
    isNext (runCommands [.wbits 3 5, .wbits 7 0x7F] State.reset) = true ∧ (after [.wbits 3 5, .wbits 7 0x7F]).fault = .none ∧
    isNext (runCommands ([.wbits 3 5, .wbits 7 0x7F] ++ .wfin :: [.push 97 3]) State.reset) = true ∧
    (after ([.wbits 3 5, .wbits 7 0x7F] ++ .wfin :: [.push 97 3])).fault = .none :=
  ⟨⟨by decide, by decide, by decide⟩, by decide, by decide, by decide, by decide, by decide, by decide, by decide, by decide⟩
/-- `"101"` in one command, and as `"10"` and `"1"`. -/
theorem test_hyp_WriterKeepsNoRecordOfCuts : WriterOk State.reset ∧ State.reset.wfin = false ∧ State.reset.fault = .none ∧
    (∀ i ∈ [Instr.wbits 3 5] ++ [.wbits 2 2, .wbits 1 1], WellFormed i ∧ i ≠ .clear ∧ i ≠ .wfin) ∧
    isNext (runCommands [.wbits 3 5] State.reset) = true ∧ isNext (runCommands [.wbits 2 2, .wbits 1 1] State.reset) = true ∧
    (after [.wbits 3 5]).fault = .none ∧ (after [.wbits 2 2, .wbits 1 1]).fault = .none ∧
    appendedPath [.wbits 3 5] State.reset = appendedPath [.wbits 2 2, .wbits 1 1] State.reset :=
  ⟨inv_reset.writer, by decide, by decide, by decide, by decide, by decide, by decide, by decide, by decide⟩

/-! ## Premises: the reader -/

/-- Each of the four cases: two leaves or more, after the end, the zero byte on a leaf root, EOD on a leaf root. -/
theorem test_hyp_DecDecodesTheByte : Inv p1 ∧ p1.phase = .built ∧ p1.fault = .none ∧ p1.nleaf ≠ 1 ∧
    walkFrom p1.nm p1.root [] = some p1.rcur ∧ Inv p1Done ∧ p1Done.phase = .built ∧ p1Done.fault = .none ∧ p1Done.rdone = true ∧
    walkFrom p1Done.nm p1Done.root [] = some p1Done.rcur ∧ Inv p6 ∧ p6.phase = .built ∧ p6.fault = .none ∧ p6.nleaf = 1 ∧
    walkFrom p6.nm p6.root [] = some p6.rcur ∧ Inv p2 ∧ p2.phase = .built ∧ p2.fault = .none ∧
    leafSymAt p2.nm p2.root.toNat = some 256 ∧ (0x7F : Byte).getLsbD 7 = false ∧ walkFrom p2.nm p2.root [] = some p2.rcur :=
  ⟨inv_p1, by decide, by decide, by decide, by decide, inv_p1Done, by decide, by decide, by decide, by decide, inv_p6, by decide,
    by decide, by decide, by decide, inv_p2, by decide, by decide, by decide, by decide, by decide⟩
/-- From the root, and with a candidate path of one step (P1's node 3). -/
theorem test_hyp_CandidatePathEquivalence : Inv p1 ∧ p1.phase = .built ∧ p1.fault = .none ∧
    walkFrom p1.nm p1.root [] = some p1.rcur ∧ (∃ t, readBits 0x7000000000E2#48 (byteBits 0xE2) p1 = .ok t ∧ t.fault = .none) ∧
    walkFrom p1.nm p1.root [false] = some 3 := by
  refine ⟨inv_p1, by decide, by decide, by decide, ⟨run1 (.dec 0xE2) p1, ?_, by decide⟩, by decide⟩
  have h : execDec 0xE2 p1 = .next (run1 (.dec 0xE2) p1) := eq_next (o := exec (.dec 0xE2) p1) (by decide)
  have he : encode (.dec 0xE2) = 0x7000000000E2#48 := by decide
  rcases execDec_next h with ⟨h1, _⟩ | ⟨_, h1⟩
  · exact absurd h1 (by decide)
  · rw [he] at h1; exact h1
theorem test_hyp_DecChecksThePhase : State.reset.phase = .load := by decide
theorem test_hyp_DecAfterTheEndDoesNothing : p1Done.phase = .built ∧ p1Done.rdone = true := by decide
/-- `01` is EOD in P1; the other six bits are ones. -/
theorem test_hyp_EodTerminatesDecoding : Inv p1 ∧ p1.phase = .built ∧ p1.rdone = false ∧ p1.rcur = p1.root ∧
    lookupCode 256 p1 = .ok (some [false, true]) ∧ byteBits 0x7F = [false, true] ++ List.replicate 6 true :=
  ⟨inv_p1, by decide, by decide, by decide, by decide, by decide⟩
/-- V-BR-9 (two zeros first), V-BR-10 (EOD, the first bit), seven zeros first, and P1 for the second clause. -/
theorem test_hyp_NoMatchIsPrecise : Inv p6 ∧ p6.phase = .built ∧ p6.nleaf = 1 ∧ p6.rdone = false ∧
    storeGet p6.nm p6.root.toNat = some (.leaf 97 5) ∧ byteBits 0x20 = List.replicate 2 false ++ true :: List.replicate 5 false ∧
    byteBits 0x01 = List.replicate 7 false ++ true :: [] ∧ (97 : Symbol) ≠ 256 ∧ Inv p2 ∧ p2.phase = .built ∧ p2.nleaf = 1 ∧
    p2.rdone = false ∧ storeGet p2.nm p2.root.toNat = some (.leaf 256 1) ∧
    byteBits 0x80 = List.replicate 0 false ++ true :: List.replicate 7 false ∧ Inv p1 ∧ p1.phase = .built ∧ p1.nleaf ≠ 1 ∧
    isNext (exec (.dec 0xE2) p1) = true :=
  ⟨inv_p6, by decide, by decide, by decide, by decide, by decide, by decide, by decide, inv_p2, by decide, by decide, by decide,
    by decide, by decide, inv_p1, by decide, by decide, by decide⟩
theorem test_hyp_DecFrame : exec (.dec 0xE2) p1 = .next (run1 (.dec 0xE2) p1) ∧ exec (.dec 0x20) p6 = .next (run1 (.dec 0x20) p6) :=
  ⟨eq_next (by decide), eq_next (by decide)⟩
/-- P1 with `B = "ab"`, and another built state with the same tree. -/
theorem test_hyp_RoundTripFromABuiltState : Inv p1 ∧ p1.phase = .built ∧ p1.fault = .none ∧ p1.wfin = false ∧ p1.wnb = 0 ∧
    p1.seen.getLsbD 256 = true ∧ (∀ b ∈ ([97, 98] : List Byte), p1.seen.getLsbD b.toNat = true) ∧ p1.rdone = false ∧ p1.rcur = p1.root :=
  ⟨inv_p1, by decide, by decide, by decide, by decide, by decide, by decide, by decide, by decide⟩
/-- The table of P1. -/
def p1Pairs : List (Symbol × Count32) := [(97, 3), (98, 1), (256, 1)]

theorem test_hyp_RoundTripLaw : (∀ e ∈ p1Pairs, e.1.toNat ≤ 256) ∧ (p1Pairs.map Prod.fst).Nodup ∧ 256 ∈ p1Pairs.map Prod.fst ∧
    ∀ b ∈ ([97, 98] : List Byte), b.setWidth 9 ∈ p1Pairs.map Prod.fst :=
  ⟨by simp [p1Pairs], by decide, by decide, by decide⟩

/-! ## Premises: faults and whole-machine rules -/

/-- A command that raises no fault and one that does. -/
theorem test_hyp_FaultsOfEachCommand : isNext (exec (.push 97 3) State.reset) = true ∧ isNext (exec (.enc 97) State.reset) = true ∧
    State.reset.fault = .none := by decide
/-- The condition of each of the six faults, in a state of its own. -/
theorem test_hyp_FaultConditions : Inv State.reset ∧ State.reset.fault = .none ∧ (run1 .build State.reset).fault = .invalidInput ∧
    (run1 (.enc 256) State.reset).fault = .badPhase ∧ Inv p1Table ∧ p1Table.fault = .none ∧
    (run1 (.push 256 0) p1Table).fault = .duplicateSymbol ∧ Inv p1 ∧ p1.fault = .none ∧ (run1 (.enc 99) p1).fault = .symbolNotCoded ∧
    WellFormed (.enc 99) ∧ Inv p1Final ∧ (run1 (.wbits 32 0) p1Final).fault = .writeAfterFinal ∧ WellFormed (.wbits 32 0) ∧ Inv p6 ∧
    (run1 (.dec 0x20) p6).fault = .noMatch ∧ leafSymAt p6.nm p6.root.toNat = some 97 ∧ Inv p2 ∧ p2.fault = .none ∧
    (run1 (.dec 0x80) p2).fault = .noMatch ∧ leafSymAt p2.nm p2.root.toNat = some 256 ∧ (run1 (.dec 0x7F) p2).fault = .none :=
  ⟨inv_reset, by decide, by decide, by decide, inv_p1Table, by decide, by decide, inv_p1, by decide, by decide, by decide,
    inv_p1.writerChange rfl ⟨inv_p1.writer.1, fun _ => by decide⟩, by decide, by decide, inv_p6, by decide, by decide,
    inv_p2, by decide, by decide, by decide, by decide⟩
theorem test_hyp_FaultsArePrecise : isNext (exec .build State.reset) = true ∧ State.reset.fault = .none ∧
    (run1 .build State.reset).fault ≠ .none ∧ isNext (exec (.dec 0x20) p6) = true ∧ p6.fault = .none ∧
    (run1 (.dec 0x20) p6).fault = .noMatch := by decide
/-- LOAD to BUILT by BUILD, BUILT to LOAD by CLEAR. -/
theorem test_hyp_PhaseRules : p1Table.fault = .none ∧ p1Table.phase = .load ∧ isNext (exec .build p1Table) = true ∧ p1.phase = .built ∧
    p1.fault = .none ∧ isNext (exec .clear p1) = true ∧ (run1 .clear p1).phase = .load := by decide
theorem test_hyp_StreamsOnlyGrow : isNext (step { p1 with port := [.command 0x7000000000E2#48] }) = true ∧
    ∀ rest, ({ p1 with port := [.command 0x7000000000E2#48] } : State).port ≠ .resetPulse :: rest :=
  ⟨by decide, fun _ h => by cases h⟩
theorem test_hyp_EmittedBytesAreBounded : Inv p1 ∧ WellFormed (.enc 256) ∧ exec (.enc 256) p1 = .next (run1 (.enc 256) p1) ∧
    exec (.wbits 32 0) p1 = .next (run1 (.wbits 32 0) p1) ∧ WellFormed (.wbits 32 0) ∧ exec (.dec 0xFF) p1 = .next (run1 (.dec 0xFF) p1) :=
  ⟨inv_p1, by decide, eq_next (by decide), eq_next (by decide), by decide, eq_next (by decide)⟩
theorem test_hyp_RunDependsOnItsWordsOnly : isNext (runWords [0x100000000000#48, 0x206100000003#48, 0x300000000000#48] p1Final) = true := by
  decide
/-- A command and a reset. -/
theorem test_hyp_EveryStepKeepsTheInvariant : Inv ({ p1 with port := [.command 0x7000000000E2#48] } : State) ∧
    isNext (step { p1 with port := [.command 0x7000000000E2#48] }) = true ∧ Inv ({ p1 with port := [.resetPulse] } : State) ∧
    isNext (step { p1 with port := [.resetPulse] }) = true :=
  ⟨inv_p1.streams p1.wout p1.rout _, by decide, inv_p1.streams p1.wout p1.rout _, by decide⟩
theorem test_hyp_EveryStepAnswersANextState : Inv ({ p6 with port := [.command 0x700000000020#48] } : State) :=
  inv_p6.streams p6.wout p6.rout _
theorem test_hyp_StoresStayCanonical : StoresWf p1Table ∧ isNext (step { p1Table with port := [.command 0x300000000000#48] }) = true :=
  ⟨⟨inv_p1Table.tree.nmWf, inv_p1Table.ctWf⟩, by decide⟩

end Sys2Proof.Tests
end

/-! What a run does is a function of its words (00_scope.md R10): no step reads the streams or the host's later events
(`accept_past`), so neither does a run, and CLEAR leaves nothing else of the state it finds. -/

namespace Sys2Proof.Proofs

open Sys2Proof.Machine
open Sys2Proof.Safety

/-- CLEAR is accepted in the faulted state too (60_exceptions.md R176), with the same effect. -/
theorem accept_clear (s : State) : accept 0x100000000000#48 s = .next (clearRun s) := by
  cases hf : faulted s with
  | true => simp [accept, hf, exec, execClear]
  | false =>
    have hdecode : decode 0x100000000000#48 = .ok .clear := by decide
    simp [accept, hf, hdecode, exec, execClear]

/-- After CLEAR only the streams and the host's events tell a state from the reset state (70_reset_and_hazards.md R201). -/
theorem clearRun_eq_withPast (s : State) :
    clearRun s = withPast s.wout s.rout id (fun _ => s.port) State.reset := by
  simp only [clearRun, withPast, State.reset_wout, State.reset_rout, List.append_nil]
  rfl

/-- `accept_past` for a list of words. -/
theorem runWords_past (x y : List Byte) (g : List HostEvent → List HostEvent) (ws : List Word48) (s : State) :
    runWords ws (withPast x y id g s) = mapNext (withPast x y id g) (runWords ws s) := by
  induction ws generalizing s with
  | nil => rfl
  | cons w ws ih =>
    simp only [runWords, accept_past]
    cases accept w s with
    | next u => exact ih u
    | fault r => rfl
    | refused r => rfl

/-- A run that starts with CLEAR is the run of its other words from the reset state, behind the streams it found. -/
theorem runWords_clear_eq_reset (ws : List Word48) (s : State) :
    runWords (0x100000000000#48 :: ws) s =
      mapNext (withPast s.wout s.rout id (fun _ => s.port)) (runWords ws State.reset) := by
  rw [← runWords_past, ← clearRun_eq_withPast]
  simp only [runWords, accept_clear]

theorem mapNext_eq_next_iff {h : State → State} {o : Host.Outcome State Fault Refusal} {t : State} :
    mapNext h o = .next t ↔ ∃ u, o = .next u ∧ h u = t := by
  cases o <;> simp [mapNext]

/-- Settles O54: both runs are the run of `ws` from the reset state, each behind its own streams. -/
theorem runDependsOnItsWordsOnly : Obligations.RunDependsOnItsWordsOnly := by
  unfold Obligations.RunDependsOnItsWordsOnly
  intro ws s s' t h
  rw [runWords_clear_eq_reset] at h
  obtain ⟨u, hu, rfl⟩ := mapNext_eq_next_iff.1 h
  refine ⟨withPast s'.wout s'.rout id (fun _ => s'.port) u, ?_, rfl, u.wout, u.rout, rfl, rfl, rfl, rfl⟩
  rw [runWords_clear_eq_reset, hu]
  rfl

end Sys2Proof.Proofs

/-! The registers and streams across steps (10_state.md): what leaves `FAULT` and `FINFO` (R22), what writes `PHASE` (R21), why the
streams only grow (R31), the status outputs (R32) and the values after reset and CLEAR (R39). -/

namespace Sys2Proof.Proofs

open Sys2Proof.Machine
open Sys2Proof.Safety

section Effects

variable {s t : State}

/-! ## What the effects of the commands leave unchanged -/

/-- PUSH writes the tree's registers only (41_tree_builder.md R102). -/
theorem pushLeaf_frame {sym : Symbol} {count : Count32} (h : pushLeaf sym count s = .ok t) :
    t = { s with nleaf := t.nleaf, nnode := t.nnode, seen := t.seen, nm := t.nm, pq := t.pq } := by
  obtain ⟨-, -, q, rfl⟩ := pushLeaf_ok h
  rfl

theorem appendPath_phase (p : Path) (s : State) : (appendPath p s).phase = s.phase := by rw [appendPath_frame]

theorem appendPath_fault (p : Path) (s : State) : (appendPath p s).fault = s.fault := by rw [appendPath_frame]

theorem appendPath_rout (p : Path) (s : State) : (appendPath p s).rout = s.rout := by rw [appendPath_frame]

theorem flushPartial_phase (s : State) : (flushPartial s).phase = s.phase := by rw [flushPartial_frame]

theorem flushPartial_fault (s : State) : (flushPartial s).fault = s.fault := by rw [flushPartial_frame]

theorem flushPartial_rout (s : State) : (flushPartial s).rout = s.rout := by rw [flushPartial_frame]

/-! ## When each command records BadPhase (60_exceptions.md R172, R173) -/

theorem execPush_badPhase_iff {sym : Symbol} {count : Count32} (h : execPush sym count s = .next t) (hf : s.fault = .none) :
    t.fault = .badPhase ↔ s.phase = .built := by
  obtain ⟨hp, rfl⟩ | ⟨hp, -, -, rfl⟩ | ⟨hp, -, -, hk⟩ := execPush_next h
  · simp [hp]
  · simp [hp]
  · rw [pushLeaf_frame hk]
    simp [hp, hf]

theorem execBuild_badPhase_iff (h : execBuild s = .next t) (hf : s.fault = .none) :
    t.fault = .badPhase ↔ s.phase = .built := by
  obtain ⟨hp, rfl⟩ | ⟨hp, -, rfl⟩ | ⟨hp, -, hk⟩ := execBuild_next h
  · simp [hp]
  · simp [hp]
  · obtain ⟨hframe, -⟩ := buildTree_ok hk
    rw [hframe]
    simp [hp, hf]

theorem execEnc_badPhase_iff {sym : Symbol} (h : execEnc sym s = .next t) (hf : s.fault = .none) :
    t.fault = .badPhase ↔ s.phase = .load := by
  obtain ⟨hp, rfl⟩ | ⟨hp, -, rfl⟩ | ⟨hp, -, -, rfl⟩ | ⟨hp, -, p, -, rfl⟩ := execEnc_next h
  · simp [hp]
  · simp [hp]
  · simp [hp]
  · simp [hp, hf, appendPath_fault]

theorem execWbits_fault_ne_badPhase {len : BitVec 9} {bits : BitVec 32} (h : execWbits len bits s = .next t) (hf : s.fault = .none) :
    t.fault ≠ .badPhase := by
  obtain ⟨-, rfl⟩ | ⟨-, p, -, rfl⟩ := execWbits_next h
  · simp
  · simp [hf, appendPath_fault]

theorem execWfin_fault_ne_badPhase (h : execWfin s = .next t) (hf : s.fault = .none) : t.fault ≠ .badPhase := by
  obtain ⟨-, rfl⟩ | ⟨-, rfl⟩ := execWfin_next h
  · simp
  · simp [hf, flushPartial_fault]

theorem execDec_badPhase_iff {byte : Byte} (h : execDec byte s = .next t) (hf : s.fault = .none) :
    t.fault = .badPhase ↔ s.phase = .load := by
  obtain ⟨hp, rfl⟩ | ⟨hp, hk⟩ := execDec_next h
  · simp [hp]
  · obtain ⟨-, -, hfault, -⟩ := readBits_ok hk
    obtain ⟨ht, -⟩ | ⟨ht, -⟩ := hfault
    · simp [ht, hp, hf]
    · simp [ht, hp]

/-- BadPhase over the eight commands: the checks of the four that have a legal phase. -/
theorem exec_badPhase_iff {i : Instr} (h : exec i s = .next t) (hf : s.fault = .none) :
    t.fault = .badPhase ↔ s.phase = .built ∧ ((∃ sym count, i = .push sym count) ∨ i = .build) ∨
      s.phase = .load ∧ ((∃ sym, i = .enc sym) ∨ ∃ byte, i = .dec byte) := by
  cases i with
  | nop => cases h; simp [hf]
  | clear => cases h; simp
  | push sym count => simp [execPush_badPhase_iff h hf]
  | build => simp [execBuild_badPhase_iff h hf]
  | enc sym => simp [execEnc_badPhase_iff h hf]
  | wbits len bits => simp [execWbits_fault_ne_badPhase h hf]
  | wfin => simp [execWfin_fault_ne_badPhase h hf]
  | dec byte => simp [execDec_badPhase_iff h hf]

/-! ## What writes `PHASE` (10_state.md R21) -/

/-- Only BUILD and CLEAR write `PHASE`. -/
theorem exec_keeps_phase {i : Instr} (h : exec i s = .next t) (hbuild : i ≠ .build) (hclear : i ≠ .clear) : t.phase = s.phase := by
  cases i with
  | nop => cases h; rfl
  | clear => exact absurd rfl hclear
  | push sym count =>
    obtain ⟨-, rfl⟩ | ⟨-, -, -, rfl⟩ | ⟨-, -, -, hk⟩ := execPush_next h
    · rfl
    · rfl
    · rw [pushLeaf_frame hk]
  | build => exact absurd rfl hbuild
  | enc sym =>
    obtain ⟨-, rfl⟩ | ⟨-, -, rfl⟩ | ⟨-, -, -, rfl⟩ | ⟨-, -, p, -, rfl⟩ := execEnc_next h
    · rfl
    · rfl
    · rfl
    · exact appendPath_phase p s
  | wbits len bits =>
    obtain ⟨-, rfl⟩ | ⟨-, p, -, rfl⟩ := execWbits_next h
    · rfl
    · exact appendPath_phase p s
  | wfin =>
    obtain ⟨-, rfl⟩ | ⟨-, rfl⟩ := execWfin_next h
    · rfl
    · exact flushPartial_phase s
  | dec byte =>
    obtain ⟨-, rfl⟩ | ⟨-, hk⟩ := execDec_next h
    · rfl
    · obtain ⟨hframe, -⟩ := readBits_ok hk
      rw [hframe]

/-- BUILD in BUILT is a BadPhase, so it does not leave BUILT. -/
theorem execBuild_phase_of_built (h : execBuild s = .next t) (hp : s.phase = .built) : t.phase = .built := by
  obtain ⟨-, rfl⟩ | ⟨hload, -⟩ | ⟨hload, -⟩ := execBuild_next h
  · exact hp
  · simp [hp] at hload
  · simp [hp] at hload

theorem execClear_phase (h : execClear s = .next t) : t.phase = .load := by
  cases h
  rfl

/-! ## The streams only grow (10_state.md R31) -/

theorem appendBit_wout_prefix (b : Bool) (s : State) : s.wout <+: (appendBit b s).wout := by
  unfold appendBit
  split
  · exact List.prefix_append _ _
  · exact List.prefix_rfl

theorem appendPath_wout_prefix (p : Path) (s : State) : s.wout <+: (appendPath p s).wout := by
  induction p generalizing s with
  | nil => exact List.prefix_rfl
  | cons b p ih => exact (appendBit_wout_prefix b s).trans (ih (appendBit b s))

theorem flushPartial_wout_prefix (s : State) : s.wout <+: (flushPartial s).wout := by
  unfold flushPartial
  split
  · exact List.prefix_rfl
  · exact List.prefix_append _ _

/-- The elements of both streams of `s` stand unchanged at the beginning of those of `t`. -/
def StreamsExtend (s t : State) : Prop := s.wout <+: t.wout ∧ s.rout <+: t.rout

theorem StreamsExtend.of_eq (hw : t.wout = s.wout) (hr : t.rout = s.rout) : StreamsExtend s t := by
  unfold StreamsExtend
  rw [hw, hr]
  exact ⟨List.prefix_rfl, List.prefix_rfl⟩

theorem streamsExtend_raiseFault (code : FaultCode) (w : Word48) (s : State) : StreamsExtend s (raiseFault code w s) :=
  .of_eq rfl rfl

theorem streamsExtend_appendPath (p : Path) (s : State) : StreamsExtend s (appendPath p s) :=
  ⟨appendPath_wout_prefix p s, by rw [appendPath_rout]⟩

/-- No command removes or changes an element of a stream, CLEAR included (40_control.md R92). -/
theorem exec_streamsExtend {i : Instr} (h : exec i s = .next t) : StreamsExtend s t := by
  cases i with
  | nop => cases h; exact .of_eq rfl rfl
  | clear => cases h; exact .of_eq rfl rfl
  | push sym count =>
    obtain ⟨-, rfl⟩ | ⟨-, -, -, rfl⟩ | ⟨-, -, -, hk⟩ := execPush_next h
    · exact streamsExtend_raiseFault _ _ s
    · exact streamsExtend_raiseFault _ _ s
    · rw [pushLeaf_frame hk]
      exact .of_eq rfl rfl
  | build =>
    obtain ⟨-, rfl⟩ | ⟨-, -, rfl⟩ | ⟨-, -, hk⟩ := execBuild_next h
    · exact streamsExtend_raiseFault _ _ s
    · exact streamsExtend_raiseFault _ _ s
    · obtain ⟨hframe, -⟩ := buildTree_ok hk
      rw [hframe]
      exact .of_eq rfl rfl
  | enc sym =>
    obtain ⟨-, rfl⟩ | ⟨-, -, rfl⟩ | ⟨-, -, -, rfl⟩ | ⟨-, -, p, -, rfl⟩ := execEnc_next h
    · exact streamsExtend_raiseFault _ _ s
    · exact streamsExtend_raiseFault _ _ s
    · exact streamsExtend_raiseFault _ _ s
    · exact streamsExtend_appendPath p s
  | wbits len bits =>
    obtain ⟨-, rfl⟩ | ⟨-, p, -, rfl⟩ := execWbits_next h
    · exact streamsExtend_raiseFault _ _ s
    · exact streamsExtend_appendPath p s
  | wfin =>
    obtain ⟨-, rfl⟩ | ⟨-, rfl⟩ := execWfin_next h
    · exact streamsExtend_raiseFault _ _ s
    · exact ⟨flushPartial_wout_prefix s, by rw [setWfin_rout, flushPartial_rout]⟩
  | dec byte =>
    obtain ⟨-, rfl⟩ | ⟨-, hk⟩ := execDec_next h
    · exact streamsExtend_raiseFault _ _ s
    · obtain ⟨hframe, -, -, out, hrout, -⟩ := readBits_ok hk
      refine ⟨?_, out, hrout.symm⟩
      rw [hframe]

theorem accept_streamsExtend {w : Word48} (h : accept w s = .next t) : StreamsExtend s t := by
  obtain ⟨-, -, rfl⟩ | ⟨-, -, rfl⟩ | ⟨-, -, rfl⟩ | ⟨-, i, -, hexec⟩ := accept_next h
  · exact .of_eq rfl rfl
  · exact .of_eq rfl rfl
  · exact streamsExtend_raiseFault _ _ s
  · exact exec_streamsExtend hexec

/-! ## The step at a command word (10_state.md R34, 40_control.md R90) -/

theorem step_of_command {w : Word48} {rest : List HostEvent} (hport : s.port = .command w :: rest) :
    step s = accept w (setPort rest s) := by
  simp only [step, serveHost, hport, hostEvent]

theorem accept_of_decode {w : Word48} {i : Instr} (hf : s.fault = .none) (hdecode : decode w = .ok i) : accept w s = exec i s := by
  simp [accept, faulted, hf, hdecode]

end Effects

/-! ## The obligations -/

/-- Settles O12: of what a step can do in the faulted state, only CLEAR and the reset pulse write `FAULT` or `FINFO`. -/
theorem firstFaultIsKept : Obligations.FirstFaultIsKept := by
  unfold Obligations.FirstFaultIsKept
  intro s t hf h
  obtain ⟨-, rfl⟩ | ⟨rest, hport, rfl⟩ | ⟨w, rest, hport, hacc⟩ := step_next h
  · exact Or.inl ⟨rfl, rfl⟩
  · exact Or.inr ⟨rest, Or.inr hport, rfl, rfl⟩
  · obtain ⟨-, rfl, rfl⟩ | ⟨-, -, rfl⟩ | ⟨hgood, -⟩ | ⟨hgood, -⟩ := accept_next hacc
    · exact Or.inr ⟨rest, Or.inl hport, rfl, rfl⟩
    · exact Or.inl ⟨rfl, rfl⟩
    · exact absurd hgood hf
    · exact absurd hgood hf

/-- Settles O51: `exec_badPhase_iff`, and `PHASE` is written by BUILD (never back to LOAD) and CLEAR (always to LOAD) only. -/
theorem phaseRules : Obligations.PhaseRules := by
  unfold Obligations.PhaseRules
  intro i s t h hf
  refine ⟨exec_badPhase_iff h hf, fun hs ht => ?_, fun hs ht => ?_⟩
  · by_contra hbuild
    have hclear : i ≠ .clear := by
      rintro rfl
      simp [execClear_phase h] at ht
    simp [exec_keeps_phase h hbuild hclear, hs] at ht
  · by_contra hclear
    have hbuild : i ≠ .build := by
      rintro rfl
      simp [execBuild_phase_of_built h hs] at ht
    simp [exec_keeps_phase h hbuild hclear, hs] at ht

/-- Settles O52: every event of the host but the reset pulse is an accepted word (`accept_streamsExtend`). -/
theorem streamsOnlyGrow : Obligations.StreamsOnlyGrow := by
  unfold Obligations.StreamsOnlyGrow
  intro s t h hnoReset
  obtain ⟨-, rfl⟩ | ⟨rest, hport, -⟩ | ⟨w, rest, -, hacc⟩ := step_next h
  · exact StreamsExtend.of_eq rfl rfl
  · exact absurd hport (hnoReset rest)
  · exact accept_streamsExtend (s := setPort rest s) hacc

/-- Settles O10: the block serves the oldest event (`step_of_command`), and outside the faulted state runs what it decodes to. -/
theorem stepRunsTheDecodedCommand : Obligations.StepRunsTheDecodedCommand := by
  unfold Obligations.StepRunsTheDecodedCommand
  intro s w rest hport
  refine ⟨step_of_command hport, fun i hf hdecode => ?_⟩
  rw [step_of_command hport]
  exact accept_of_decode hf hdecode

/-- Settles O15: `clearRun` is the reset state but for the streams (70_reset_and_hazards.md R201), so both columns of R39 are the
fields of `State.reset`. -/
theorem resetAndClearValues : Obligations.ResetAndClearValues := by
  unfold Obligations.ResetAndClearValues
  refine ⟨?_, fun s => ⟨clearRun s, rfl, ?_⟩⟩
  · simp [State.qlen]
  · simp [State.qlen]

/-- Settles O18: the fault codes of 60_exceptions.md R171 are 0 for no fault only. -/
theorem statusOutputs : Obligations.StatusOutputs := by
  unfold Obligations.StatusOutputs
  refine ⟨fun s => ⟨?_, ?_, rfl, ?_, rfl, rfl, rfl, rfl, rfl, rfl⟩, rfl⟩
  · cases hp : s.phase <;> simp [State.status, phaseBit, hp]
  · cases hf : s.fault <;> simp [State.status, faultBits, hf]
  · cases hf : s.fault <;> simp [State.status, faulted, faultBits, hf]

end Sys2Proof.Proofs

/-! The encoding (30_encoding.md): the fields a command is decoded from (R71, R76), the opcode map as conditions on the fields (R73),
the illegal words (R74), the words as numbers (R77) and the ignored bits of WBITS (R72). -/

namespace Sys2Proof.Proofs

open Sys2Proof.Machine

/-! ## What each format accepts and rejects (30_encoding.md R71) -/

section Formats

variable {i j : Instr} {a : BitVec 9} {d : BitVec 32}

/-- The shape of a format: one check, then the command. -/
theorem ite_ok_error_eq_ok_iff {p : Prop} [Decidable p] {e : Illegal} :
    (if p then .ok i else .error e : Except Illegal Instr) = .ok j ↔ i = j ∧ p := by
  split_ifs with hp
  · simp only [Except.ok.injEq, hp, and_true]
  · simp only [hp, and_false]

theorem decodeN_eq_ok_iff : decodeN i a d = .ok j ↔ i = j ∧ a = 0 ∧ d = 0 :=
  ite_ok_error_eq_ok_iff

theorem decodePush_eq_ok_iff : decodePush a d = .ok j ↔ .push a d = j ∧ a.toNat ≤ 256 :=
  ite_ok_error_eq_ok_iff

theorem decodeEnc_eq_ok_iff : decodeEnc a d = .ok j ↔ .enc a = j ∧ a.toNat ≤ 256 ∧ d = 0 := by
  unfold decodeEnc
  split_ifs with hsym hd
  · simp only [Except.ok.injEq, hsym, hd, and_true]
  · simp only [hd, and_false]
  · simp only [hsym, false_and, and_false]

theorem decodeWbits_eq_ok_iff : decodeWbits a d = .ok j ↔ .wbits a d = j ∧ a.toNat ≤ 32 :=
  ite_ok_error_eq_ok_iff

theorem decodeDec_eq_ok_iff :
    decodeDec a d = .ok j ↔ .dec (d.extractLsb' 0 8) = j ∧ a = 0 ∧ d.extractLsb' 8 24 = 0 :=
  ite_ok_error_eq_ok_iff

/-- A word is illegal when no command is decoded from it. -/
theorem exists_error_iff {x : Except Illegal Instr} : (∃ e, x = .error e) ↔ ∀ k, x ≠ .ok k := by
  cases x <;> simp

/-- A field `d` is a payload byte's exactly when nothing stands above the byte (30_encoding.md R72). -/
theorem eq_setWidth_byte_iff {byte : Byte} : d = byte.setWidth 32 ↔ d.extractLsb' 8 24 = 0 ∧ d.extractLsb' 0 8 = byte := by
  constructor
  · rintro rfl
    exact byteField byte
  · rintro ⟨hhigh, rfl⟩
    exact (byteField_back hhigh).symm

end Formats

/-! ## The decoder in terms of the fields (30_encoding.md R76) -/

theorem wellFormed_push_iff {sym : Symbol} {count : Count32} : WellFormed (.push sym count) ↔ sym.toNat ≤ 256 := by
  simp [WellFormed, wellFormed, symLegal, Nat.lt_succ_iff]

theorem wellFormed_enc_iff {sym : Symbol} : WellFormed (.enc sym) ↔ sym.toNat ≤ 256 := by
  simp [WellFormed, wellFormed, symLegal, Nat.lt_succ_iff]

theorem wellFormed_wbits_iff {len : BitVec 9} {bits : BitVec 32} : WellFormed (.wbits len bits) ↔ len.toNat ≤ 32 := by
  simp [WellFormed, wellFormed, lenLegal]

/-- The arms of the opcode accept the well-formed commands of that opcode, with their operands in the fields. -/
theorem decodeOp_eq_ok_iff {op : Nat} {a : BitVec 9} {d : BitVec 32} {i : Instr} :
    decodeOp op a d = .ok i ↔ op = (opcodeOf i).toNat ∧ a = aOperand i ∧ d = dOperand i ∧ WellFormed i := by
  constructor
  · intro h
    match op, h with
    | 0, h | 1, h | 3, h | 6, h =>
      obtain ⟨rfl, rfl, rfl⟩ := decodeN_eq_ok_iff.1 h
      exact ⟨rfl, rfl, rfl, rfl⟩
    | 2, h =>
      obtain ⟨rfl, hsym⟩ := decodePush_eq_ok_iff.1 h
      exact ⟨rfl, rfl, rfl, wellFormed_push_iff.2 hsym⟩
    | 4, h =>
      obtain ⟨rfl, hsym, rfl⟩ := decodeEnc_eq_ok_iff.1 h
      exact ⟨rfl, rfl, rfl, wellFormed_enc_iff.2 hsym⟩
    | 5, h =>
      obtain ⟨rfl, hlen⟩ := decodeWbits_eq_ok_iff.1 h
      exact ⟨rfl, rfl, rfl, wellFormed_wbits_iff.2 hlen⟩
    | 7, h =>
      obtain ⟨rfl, rfl, hhigh⟩ := decodeDec_eq_ok_iff.1 h
      exact ⟨rfl, rfl, eq_setWidth_byte_iff.2 ⟨hhigh, rfl⟩, rfl⟩
    | n + 8, h => cases h
  · rintro ⟨rfl, rfl, rfl, hwf⟩
    cases i with
    | nop | clear | build | wfin => exact decodeN_eq_ok_iff.2 ⟨rfl, rfl, rfl⟩
    | push sym count => exact decodePush_eq_ok_iff.2 ⟨rfl, wellFormed_push_iff.1 hwf⟩
    | enc sym => exact decodeEnc_eq_ok_iff.2 ⟨rfl, wellFormed_enc_iff.1 hwf, rfl⟩
    | wbits len bits => exact decodeWbits_eq_ok_iff.2 ⟨rfl, wellFormed_wbits_iff.1 hwf⟩
    | dec byte =>
      obtain ⟨hhigh, hlow⟩ := byteField byte
      exact decodeDec_eq_ok_iff.2 ⟨congrArg Instr.dec hlow, rfl, hhigh⟩

/-- A word decodes to a command exactly when its fields are the command's and the command is well-formed. -/
theorem decode_eq_ok_iff {w : Word48} {i : Instr} :
    decode w = .ok i ↔
      zField w = 0 ∧ opField w = opcodeOf i ∧ aField w = aOperand i ∧ dField w = dOperand i ∧ WellFormed i := by
  unfold decode
  split_ifs with hz
  · simp only [decodeOp_eq_ok_iff, BitVec.toNat_inj, hz, true_and]
  · simp only [hz, false_and]

theorem decode_encode {i : Instr} (h : WellFormed i) : decode (encode i) = .ok i := by
  obtain ⟨hop, hz, ha, hd⟩ := Sys2Proof.Laws.EncodedFields.ofWord i
  exact decode_eq_ok_iff.2 ⟨hz, hop, ha, hd, h⟩

theorem encode_of_decode {w : Word48} {i : Instr} (h : decode w = .ok i) : encode i = w := by
  obtain ⟨hz, hop, ha, hd, -⟩ := decode_eq_ok_iff.1 h
  rw [encode, ← hop, ← ha, ← hd, packWord_fields hz]

section Commands

variable {w : Word48}

/-- Format N: of `decode_eq_ok_iff` only the opcode is left. -/
theorem decode_eq_ok_iff_of_noOperand {i : Instr} (ha : aOperand i = 0) (hd : dOperand i = 0) (hwf : WellFormed i) :
    decode w = .ok i ↔ zField w = 0 ∧ opField w = opcodeOf i ∧ aField w = 0 ∧ dField w = 0 := by
  rw [decode_eq_ok_iff, ha, hd, and_iff_left hwf]

theorem decode_eq_push_iff {sym : Symbol} {count : Count32} :
    decode w = .ok (.push sym count) ↔
      zField w = 0 ∧ opField w = 2 ∧ aField w = sym ∧ sym.toNat ≤ 256 ∧ dField w = count := by
  rw [decode_eq_ok_iff, wellFormed_push_iff, and_comm (a := dField w = _)]
  rfl

theorem decode_eq_enc_iff {sym : Symbol} :
    decode w = .ok (.enc sym) ↔ zField w = 0 ∧ opField w = 4 ∧ aField w = sym ∧ sym.toNat ≤ 256 ∧ dField w = 0 := by
  rw [decode_eq_ok_iff, wellFormed_enc_iff, and_comm (a := dField w = _)]
  rfl

theorem decode_eq_wbits_iff {len : BitVec 9} {bits : BitVec 32} :
    decode w = .ok (.wbits len bits) ↔
      zField w = 0 ∧ opField w = 5 ∧ aField w = len ∧ len.toNat ≤ 32 ∧ dField w = bits := by
  rw [decode_eq_ok_iff, wellFormed_wbits_iff, and_comm (a := dField w = _)]
  rfl

theorem decode_eq_dec_iff {byte : Byte} :
    decode w = .ok (.dec byte) ↔
      zField w = 0 ∧ opField w = 7 ∧ aField w = 0 ∧ (dField w).extractLsb' 8 24 = 0 ∧ (dField w).extractLsb' 0 8 = byte := by
  rw [decode_eq_ok_iff, ← eq_setWidth_byte_iff]
  simp [opcodeOf, aOperand, dOperand, WellFormed, wellFormed]

end Commands

/-! ## The opcode map (30_encoding.md R73) -/

section OpcodeMap

variable {w : Word48}

/-- The four fields are the whole word (30_encoding.md R70). -/
theorem word_ext {v : Word48} (hop : opField v = opField w) (hz : zField v = zField w) (ha : aField v = aField w)
    (hd : dField v = dField w) : v = w := by
  apply BitVec.eq_of_toNat_eq
  simp only [opField, zField, aField, dField, ← BitVec.toNat_inj, BitVec.extractLsb'_toNat] at hop hz ha hd
  omega

/-- A masked word is compared field by field. -/
theorem and_eq_iff_fields {m v : Word48} :
    w &&& m = v ↔ zField w &&& zField m = zField v ∧ opField w &&& opField m = opField v ∧
      aField w &&& aField m = aField v ∧ dField w &&& dField m = dField v := by
  simp only [opField, zField, aField, dField, ← BitVec.extractLsb'_and]
  constructor
  · rintro rfl
    exact ⟨rfl, rfl, rfl, rfl⟩
  · rintro ⟨hz, hop, ha, hd⟩
    exact word_ext hop hz ha hd

/-- The bits of field `a` that the row of a command fixes. -/
def aFixed : Instr → BitVec 9
  | .push _ _ | .enc _ | .wbits _ _ => 0
  | .nop | .clear | .build | .wfin | .dec _ => BitVec.allOnes 9

/-- The bits of field `d` that the row of a command fixes. -/
def dFixed : Instr → BitVec 32
  | .push _ _ | .wbits _ _ => 0
  | .dec _ => BitVec.allOnes 32 <<< 8
  | .nop | .clear | .build | .enc _ | .wfin => BitVec.allOnes 32

theorem matchBits_fields (i : Instr) :
    zField (opcodeRow i).matchBits = 0 ∧ opField (opcodeRow i).matchBits = opcodeOf i ∧
      aField (opcodeRow i).matchBits = 0 ∧ dField (opcodeRow i).matchBits = 0 := by
  cases i <;> simp only [opcodeRow] <;> exact ⟨rfl, rfl, rfl, rfl⟩

theorem maskBits_fields (i : Instr) :
    zField (opcodeRow i).maskBits = BitVec.allOnes 3 ∧ opField (opcodeRow i).maskBits = BitVec.allOnes 4 ∧
      aField (opcodeRow i).maskBits = aFixed i ∧ dField (opcodeRow i).maskBits = dFixed i := by
  cases i <;> simp only [opcodeRow] <;> exact ⟨rfl, rfl, rfl, rfl⟩

/-- Every row fixes `op` to its opcode, `z` to 0 and the fixed bits of `a` and `d` to 0. -/
theorem rowSpells_opcodeRow_iff {i : Instr} :
    rowSpells (opcodeRow i) w = true ↔ zField w = 0 ∧ opField w = opcodeOf i ∧ aField w &&& aFixed i = 0 ∧
      dField w &&& dFixed i = 0 ∧ (aField w).toNat ≤ (opcodeRow i).aMax := by
  obtain ⟨hz, hop, ha, hd⟩ := matchBits_fields i
  obtain ⟨hzMask, hopMask, haMask, hdMask⟩ := maskBits_fields i
  simp only [rowSpells, Bool.and_eq_true, decide_eq_true_eq, and_eq_iff_fields, hz, hop, ha, hd, hzMask, hopMask, haMask, hdMask,
    BitVec.and_allOnes, and_assoc]

/-- The mask of format B leaves the payload byte free and fixes the 24 bits above it. -/
theorem and_byteMask_eq_zero_iff {d : BitVec 32} : d &&& (BitVec.allOnes 32 <<< 8) = 0 ↔ d.extractLsb' 8 24 = 0 := by
  constructor
  · intro h
    have hand : (d &&& (BitVec.allOnes 32 <<< 8)).extractLsb' 8 24 = d.extractLsb' 8 24 := by
      rw [BitVec.extractLsb'_and, show (BitVec.allOnes 32 <<< 8).extractLsb' 8 24 = BitVec.allOnes 24 from rfl, BitVec.and_allOnes]
    rw [← hand, h]
    rfl
  · intro h
    rw [← byteField_back h]
    ext i hi
    simp only [BitVec.getElem_and, BitVec.getElem_shiftLeft, BitVec.getElem_setWidth, BitVec.ofNat_eq_ofNat, BitVec.getElem_zero]
    by_cases h8 : i < 8
    · simp [h8]
    · rw [BitVec.getLsbD_of_ge _ _ (Nat.le_of_not_lt h8), Bool.false_and]

theorem aOperand_and_aFixed (i : Instr) : aOperand i &&& aFixed i = 0 := by
  cases i <;> simp [aOperand, aFixed]

theorem dOperand_and_dFixed (i : Instr) : dOperand i &&& dFixed i = 0 := by
  cases i with
  | dec byte => exact and_byteMask_eq_zero_iff.2 (byteField byte).1
  | _ => simp [dOperand, dFixed]

theorem aOperand_le_aMax {i : Instr} (h : WellFormed i) : (aOperand i).toNat ≤ (opcodeRow i).aMax := by
  cases i with
  | push sym count => exact wellFormed_push_iff.1 h
  | enc sym => exact wellFormed_enc_iff.1 h
  | wbits len bits => exact wellFormed_wbits_iff.1 h
  | nop | clear | build | wfin | dec byte => exact Nat.zero_le _

theorem rowSpells_of_decode {i : Instr} (h : decode w = .ok i) : rowSpells (opcodeRow i) w = true := by
  obtain ⟨hz, hop, ha, hd, hwf⟩ := decode_eq_ok_iff.1 h
  rw [rowSpells_opcodeRow_iff, ha, hd]
  exact ⟨hz, hop, aOperand_and_aFixed i, dOperand_and_dFixed i, aOperand_le_aMax hwf⟩

theorem decode_of_rowSpells {i : Instr} (h : rowSpells (opcodeRow i) w = true) :
    ∃ j, decode w = .ok j ∧ opcodeRow j = opcodeRow i := by
  obtain ⟨hz, hop, ha, hd, hmax⟩ := rowSpells_opcodeRow_iff.1 h
  cases i with
  | nop | clear | build | wfin =>
    rw [aFixed, BitVec.and_allOnes] at ha
    rw [dFixed, BitVec.and_allOnes] at hd
    exact ⟨_, (decode_eq_ok_iff_of_noOperand rfl rfl rfl).2 ⟨hz, hop, ha, hd⟩, rfl⟩
  | push sym count => exact ⟨_, decode_eq_push_iff.2 ⟨hz, hop, rfl, hmax, rfl⟩, rfl⟩
  | enc sym =>
    rw [dFixed, BitVec.and_allOnes] at hd
    exact ⟨_, decode_eq_enc_iff.2 ⟨hz, hop, rfl, hmax, hd⟩, rfl⟩
  | wbits len bits => exact ⟨_, decode_eq_wbits_iff.2 ⟨hz, hop, rfl, hmax, rfl⟩, rfl⟩
  | dec byte =>
    rw [aFixed, BitVec.and_allOnes] at ha
    exact ⟨_, decode_eq_dec_iff.2 ⟨hz, hop, ha, and_byteMask_eq_zero_iff.1 hd, rfl⟩, rfl⟩

theorem rowSpells_iff_decode {i : Instr} :
    rowSpells (opcodeRow i) w = true ↔ ∃ j, decode w = .ok j ∧ opcodeRow j = opcodeRow i := by
  refine ⟨decode_of_rowSpells, ?_⟩
  rintro ⟨j, hj, hrow⟩
  rw [← hrow]
  exact rowSpells_of_decode hj

theorem mem_opcodeMap_iff {r : OpcodeRow} : r ∈ opcodeMap ↔ ∃ i, opcodeRow i = r := by
  constructor
  · intro h
    simp only [opcodeMap, List.mem_cons, List.not_mem_nil, or_false] at h
    rcases h with h | h | h | h | h | h | h | h <;> exact ⟨_, h.symm⟩
  · rintro ⟨i, rfl⟩
    cases i <;> simp [opcodeMap, opcodeRow]

theorem forall_rows_not_spelled_iff : (∀ r ∈ opcodeMap, rowSpells r w = false) ↔ ∃ e, decode w = .error e := by
  rw [exists_error_iff]
  constructor
  · intro h i hi
    have hno := h _ (mem_opcodeMap_iff.2 ⟨i, rfl⟩)
    simp [rowSpells_of_decode hi] at hno
  · intro h r hr
    obtain ⟨i, rfl⟩ := mem_opcodeMap_iff.1 hr
    rw [Bool.eq_false_iff]
    intro hspells
    obtain ⟨j, hj, -⟩ := rowSpells_iff_decode.1 hspells
    exact h j hj

end OpcodeMap

/-! ## The illegal words (30_encoding.md R74) -/

section Illegal

variable {a : BitVec 9} {d : BitVec 32}

theorem decodeN_error_iff {i : Instr} : (∃ e, decodeN i a d = .error e) ↔ a ≠ 0 ∨ d ≠ 0 := by
  simp [exists_error_iff, decodeN_eq_ok_iff, or_iff_not_imp_left]

theorem decodePush_error_iff : (∃ e, decodePush a d = .error e) ↔ 257 ≤ a.toNat := by
  simp [exists_error_iff, decodePush_eq_ok_iff, Nat.lt_iff_add_one_le]

theorem decodeEnc_error_iff : (∃ e, decodeEnc a d = .error e) ↔ 257 ≤ a.toNat ∨ d ≠ 0 := by
  simp [exists_error_iff, decodeEnc_eq_ok_iff, or_iff_not_imp_left, Nat.lt_succ_iff]

theorem decodeWbits_error_iff : (∃ e, decodeWbits a d = .error e) ↔ 33 ≤ a.toNat := by
  simp [exists_error_iff, decodeWbits_eq_ok_iff, Nat.lt_iff_add_one_le]

theorem decodeDec_error_iff : (∃ e, decodeDec a d = .error e) ↔ a ≠ 0 ∨ d.extractLsb' 8 24 ≠ 0 := by
  simp [exists_error_iff, decodeDec_eq_ok_iff, or_iff_not_imp_left]

/-- The classes of R74 other than `z`, for the opcode and the fields `a` and `d`. -/
theorem decodeOp_error_iff (op : Nat) :
    (∃ e, decodeOp op a d = .error e) ↔
      8 ≤ op ∨
      ((op = 0 ∨ op = 1 ∨ op = 3 ∨ op = 6) ∧ (a ≠ 0 ∨ d ≠ 0)) ∨
      ((op = 2 ∨ op = 4) ∧ 257 ≤ a.toNat) ∨
      (op = 4 ∧ d ≠ 0) ∨
      (op = 5 ∧ 33 ≤ a.toNat) ∨
      (op = 7 ∧ (a ≠ 0 ∨ d.extractLsb' 8 24 ≠ 0)) := by
  match op with
  | 0 | 1 | 3 | 6 => simp [decodeOp, decodeN_error_iff]
  | 2 => simp [decodeOp, decodePush_error_iff]
  | 4 => simp [decodeOp, decodeEnc_error_iff]
  | 5 => simp [decodeOp, decodeWbits_error_iff]
  | 7 => simp [decodeOp, decodeDec_error_iff]
  | n + 8 => simp [decodeOp]

theorem decode_error_iff {w : Word48} :
    (∃ e, decode w = .error e) ↔ zField w ≠ 0 ∨ ∃ e, decodeOp (opField w).toNat (aField w) (dField w) = .error e := by
  unfold decode
  split_ifs with hz
  · simp [hz]
  · exact iff_of_true ⟨_, rfl⟩ (Or.inl hz)

end Illegal

/-! ## The words as numbers (30_encoding.md R70, R77) -/

theorem packWord_toNat (op : BitVec 4) (a : BitVec 9) (d : BitVec 32) :
    (packWord op a d).toNat = op.toNat * 2 ^ 44 + a.toNat * 2 ^ 32 + d.toNat := by
  have hlow : (a ++ d).toNat = a.toNat * 2 ^ 32 + d.toNat := by
    rw [BitVec.toNat_append, ← Nat.shiftLeft_add_eq_or_of_lt d.isLt, Nat.shiftLeft_eq]
  have hz : (0#3 ++ (a ++ d)).toNat = (a ++ d).toNat := by
    rw [BitVec.toNat_append, BitVec.toNat_ofNat, Nat.zero_mod, Nat.zero_shiftLeft, Nat.zero_or]
  rw [packWord, BitVec.toNat_append, ← Nat.shiftLeft_add_eq_or_of_lt (BitVec.isLt _), Nat.shiftLeft_eq, hz, hlow, Nat.add_assoc]

/-! ## The ignored bits of WBITS (30_encoding.md R72) -/

theorem wbitsPath_congr {len : BitVec 9} {bits bits' : BitVec 32} (h : ∀ i < len.toNat, bits.getLsbD i = bits'.getLsbD i) :
    wbitsPath len bits = wbitsPath len bits' := by
  have hpath : (List.range len.toNat).map (fun i => bits.getLsbD (len.toNat - 1 - i)) =
      (List.range len.toNat).map (fun i => bits'.getLsbD (len.toNat - 1 - i)) := by
    refine List.map_congr_left fun i hi => h _ ?_
    have := List.mem_range.1 hi
    omega
  unfold wbitsPath
  rw [hpath]

/-! ## The obligations -/

/-- Settles O1: the fields of a command's word are its opcode and operands, which `decode_eq_ok_iff` asks for. -/
theorem decodeEncodeRoundTrip : Obligations.DecodeEncodeRoundTrip := by
  unfold Obligations.DecodeEncodeRoundTrip
  intro i h
  exact decode_encode h

/-- Settles O2: the instances of `decode_eq_ok_iff`, and `encode_of_decode`. -/
theorem decodeReadsEachField : Obligations.DecodeReadsEachField := by
  unfold Obligations.DecodeReadsEachField
  intro w
  exact ⟨decode_eq_ok_iff_of_noOperand rfl rfl rfl, decode_eq_ok_iff_of_noOperand rfl rfl rfl,
    fun _ _ => decode_eq_push_iff, decode_eq_ok_iff_of_noOperand rfl rfl rfl, fun _ => decode_eq_enc_iff,
    fun _ _ => decode_eq_wbits_iff, decode_eq_ok_iff_of_noOperand rfl rfl rfl, fun _ => decode_eq_dec_iff,
    fun _ => encode_of_decode⟩

/-- Settles O3: each row is met by the words of its commands only (`rowSpells_iff_decode`), and a word decodes to one command. -/
theorem opcodeMapDecidesTheCommand : Obligations.OpcodeMapDecidesTheCommand := by
  unfold Obligations.OpcodeMapDecidesTheCommand
  have hspells {r : OpcodeRow} (hr : r ∈ opcodeMap) (w : Word48) :
      rowSpells r w = true ↔ ∃ i, decode w = .ok i ∧ opcodeRow i = r := by
    obtain ⟨i, rfl⟩ := mem_opcodeMap_iff.1 hr
    exact rowSpells_iff_decode
  refine ⟨rfl, fun w => ⟨fun r hr => hspells hr w, fun r hr r' hr' h h' => ?_, forall_rows_not_spelled_iff⟩⟩
  obtain ⟨i, hi, rfl⟩ := (hspells hr w).1 h
  obtain ⟨j, hj, rfl⟩ := (hspells hr' w).1 h'
  rw [hi] at hj
  cases hj
  rfl

/-- Settles O4: `z` apart, the classes are those of the opcode's format (`decodeOp_error_iff`). -/
theorem illegalWordsAreTheSevenClasses : Obligations.IllegalWordsAreTheSevenClasses := by
  unfold Obligations.IllegalWordsAreTheSevenClasses
  intro w
  refine ⟨?_, fun e s he hs => ?_⟩
  · rw [decode_error_iff, decodeOp_error_iff, or_left_comm]
    simp only [← BitVec.toNat_inj (x := opField w)]
    rfl
  · simp [accept, faulted, hs, he, raiseFault]

/-- Settles O5: `packWord_toNat` at each command's opcode and operands. -/
theorem wordsAreTheSumsOfTheSyntaxTable : Obligations.WordsAreTheSumsOfTheSyntaxTable := by
  unfold Obligations.WordsAreTheSumsOfTheSyntaxTable
  have hbyte (byte : Byte) : (byte.setWidth 32).toNat = byte.toNat := BitVec.toNat_setWidth_of_le (by decide)
  simp [encode, packWord_toNat, opcodeOf, aOperand, dOperand, hbyte]

/-- Settles O7: outside the finalised state WBITS reads `bits` only through its path, and the path only below `len`. -/
theorem wbitsIgnoresBitsAboveItsLength : Obligations.WbitsIgnoresBitsAboveItsLength := by
  unfold Obligations.WbitsIgnoresBitsAboveItsLength
  intro len bits bits' s _ hbits hfin
  simp only [exec, execWbits, hfin, wbitsPath_congr hbits, Bool.false_eq_true, if_false]

/-- Settles O6: each word is the word of its command, which is well-formed. -/
theorem decodeOfWrittenWords : Obligations.DecodeOfWrittenWords := by
  unfold Obligations.DecodeOfWrittenWords
  exact ⟨decode_encode (i := .nop) rfl, decode_encode (i := .clear) rfl, decode_encode (i := .push 97 3) rfl,
    decode_encode (i := .push 256 1) rfl, decode_encode (i := .build) rfl, decode_encode (i := .enc 256) rfl,
    decode_encode (i := .wbits 3 5) rfl, decode_encode (i := .wfin) rfl, decode_encode (i := .dec 0xE2) rfl⟩

/-- Settles O8: the five lines are assembled by evaluation. -/
theorem assemblerExamples : Obligations.AssemblerExamples := by
  unfold Obligations.AssemblerExamples
  decide

end Sys2Proof.Proofs

/-! The step on an accepted word (40_control.md): its four cases (R90), NOP (R91), and why it is total: from a state of the invariant
of 10_state.md R38 no command comes to an index, value or bit that does not exist. -/

namespace Sys2Proof.Proofs

open Sys2Proof.Machine
open Sys2Proof.Safety

section AcceptedWord

variable {s : State} {w : Word48}

/-! ## The cases of R90 beside `accept_clear` and `accept_of_decode` -/

theorem accept_of_faulted (hf : s.fault ≠ .none) (hw : w ≠ 0x100000000000#48) : accept w s = .next s := by
  simp [accept, faulted, hf, hw]

theorem accept_of_illegal {e : Illegal} (hf : s.fault = .none) (hdecode : decode w = .error e) :
    accept w s = .next (raiseFault .illegalCommand w s) := by
  simp [accept, faulted, hf, hdecode]

/-- Outside the commands themselves R90 has no case without a next state. -/
theorem accept_completes (hexec : ∀ i, decode w = .ok i → ∃ t, exec i s = .next t) : ∃ t, accept w s = .next t := by
  by_cases hf : s.fault = .none
  · cases hdecode : decode w with
    | error e => exact ⟨_, accept_of_illegal hf hdecode⟩
    | ok i =>
      rw [accept_of_decode hf hdecode]
      exact hexec i hdecode
  · by_cases hw : w = 0x100000000000#48
    · subst hw
      exact ⟨_, accept_clear s⟩
    · exact ⟨_, accept_of_faulted hf hw⟩

/-! ## No command comes to a stop of the model from a state of the invariant -/

theorem execPush_completes (h : Inv s) {sym : Symbol} (hsym : sym.toNat ≤ 256) (count : Count32) :
    ∃ t, execPush sym count s = .next t := by
  cases hp : s.phase with
  | built => simp [execPush, hp]
  | load =>
    have hread : readSeen sym s = .ok (s.seen.getLsbD sym.toNat) := if_pos (Nat.lt_succ_of_le hsym)
    cases hseen : s.seen.getLsbD sym.toNat with
    | true => simp [execPush, hp, hread, hseen]
    | false =>
      obtain ⟨hnodes, -⟩ := h.loadPhase hp
      obtain ⟨l1, l2, -, hpush, -⟩ := pushLeaf_spec h.tree hnodes count (Nat.lt_succ_of_le hsym) hseen
      simp [execPush, hp, hread, hseen, hpush]

theorem execBuild_completes (h : Inv s) : ∃ t, execBuild s = .next t := by
  cases hp : s.phase with
  | built => simp [execBuild, hp]
  | load =>
    by_cases hleaf : s.nleaf = 0
    · simp [execBuild, hp, hleaf]
    · obtain ⟨-, hqueue, hct, -⟩ := h.loadPhase hp
      obtain ⟨t, hbuild, -⟩ := buildTree_spec h.tree hqueue (nleaf_pos hleaf) hct
      exact ⟨t, by rw [execBuild, if_pos hp, if_neg hleaf, hbuild, outcomeOf_ok]⟩

theorem execEnc_completes (h : Inv s) {sym : Symbol} (hsym : sym.toNat ≤ 256) : ∃ t, execEnc sym s = .next t := by
  cases hp : s.phase with
  | load => simp [execEnc, hp]
  | built =>
    cases hfinal : s.wfin with
    | true => simp [execEnc, hp, hfinal]
    | false =>
      obtain ⟨-, hlookup⟩ | ⟨-, p, hlookup, -⟩ := h.lookup hp (Nat.lt_succ_of_le hsym)
      · simp [execEnc, hp, hfinal, hlookup]
      · simp [execEnc, hp, hfinal, hlookup]

/-- WBITS needs no invariant: its length alone decides whether its path exists (43_bit_writer.md R132). -/
theorem execWbits_completes {len : BitVec 9} (hlen : len.toNat ≤ 32) (bits : BitVec 32) (s : State) :
    ∃ t, execWbits len bits s = .next t := by
  cases hfinal : s.wfin with
  | true => simp [execWbits, hfinal]
  | false => simp [execWbits, hfinal, wbitsPath, hlen]

theorem execWfin_completes (s : State) : ∃ t, execWfin s = .next t := by
  cases hfinal : s.wfin with
  | true => simp [execWfin, hfinal]
  | false => simp [execWfin, hfinal]

theorem execDec_completes (h : Inv s) (byte : Byte) : ∃ t, execDec byte s = .next t := by
  cases hp : s.phase with
  | load => simp [execDec, hp]
  | built =>
    obtain ⟨hstanding, hdone⟩ := h.reader hp
    obtain ⟨t, hread, -⟩ := (h.oneTree hp).readBits_spec (encode (.dec byte)) (byteBits byte) hstanding hdone
    simp [execDec, hp, hread]

theorem exec_completes (h : Inv s) {i : Instr} (hwf : WellFormed i) : ∃ t, exec i s = .next t := by
  cases i with
  | nop => exact ⟨s, rfl⟩
  | clear => exact ⟨clearRun s, rfl⟩
  | push sym count => exact execPush_completes h (wellFormed_push_iff.1 hwf) count
  | build => exact execBuild_completes h
  | enc sym => exact execEnc_completes h (wellFormed_enc_iff.1 hwf)
  | wbits len bits => exact execWbits_completes (wellFormed_wbits_iff.1 hwf) bits s
  | wfin => exact execWfin_completes s
  | dec byte => exact execDec_completes h byte

end AcceptedWord

/-! ## The obligations -/

/-- Settles O57: the host's event is a reset, or a word, and what a word decodes to is well-formed (30_encoding.md R76) and
completes. -/
theorem everyStepAnswersANextState : Obligations.EveryStepAnswersANextState := by
  unfold Obligations.EveryStepAnswersANextState
  intro s h
  match hport : s.port with
  | [] => exact ⟨s, by simp only [step, serveHost, hport]⟩
  | .resetPulse :: rest => exact ⟨hardwareReset (setPort rest s), by simp only [step, serveHost, hport, hostEvent]⟩
  | .command w :: rest =>
    rw [step_of_command hport]
    have hinv : Inv (setPort rest s) := h.streams s.wout s.rout rest
    refine accept_completes fun i hdecode => ?_
    obtain ⟨-, -, -, -, hwf⟩ := decode_eq_ok_iff.1 hdecode
    exact exec_completes hinv hwf

/-- Settles O9: one lemma per case of R90. -/
theorem acceptedWordHasOneOutcome : Obligations.AcceptedWordHasOneOutcome := by
  unfold Obligations.AcceptedWordHasOneOutcome
  refine fun w s => ⟨?_, accept_of_faulted, fun e => accept_of_illegal, fun i => accept_of_decode⟩
  rintro - rfl
  exact accept_clear s

/-- Settles O17: the word of NOP is discarded while faulted (60_exceptions.md R176) and executed otherwise, and neither writes. -/
theorem nopChangesNothing : Obligations.NopChangesNothing := by
  unfold Obligations.NopChangesNothing
  refine fun s => ⟨rfl, ?_⟩
  by_cases hf : s.fault = .none
  · have hdecode : decode 0x000000000000#48 = .ok .nop := by decide
    exact accept_of_decode hf hdecode
  · exact accept_of_faulted hf (by decide)

end Sys2Proof.Proofs

/-! The tree builder (41_tree_builder.md): what PUSH inserts (R101, R102), the merges of BUILD one by one (R103), the tree they leave
(R104, R107), its special cases (R105, R106), and what both commands leave unchanged. -/

namespace Sys2Proof.Proofs

open Sys2Proof.Machine
open Sys2Proof.Safety

section TreeBuilder

variable {s t : State}

/-! ## PUSH past its checks (41_tree_builder.md R102) -/

theorem readSeen_of_legal {sym : Symbol} (hsym : sym.toNat ≤ 256) : readSeen sym s = .ok (s.seen.getLsbD sym.toNat) :=
  if_pos (Nat.lt_succ_of_le hsym)

theorem execPush_of_seen {sym : Symbol} (count : Count32) (hp : s.phase = .load) (hsym : sym.toNat ≤ 256)
    (hseen : s.seen.getLsbD sym.toNat = true) :
    execPush sym count s = .next (raiseFault .duplicateSymbol (encode (.push sym count)) s) := by
  simp [execPush, hp, readSeen_of_legal hsym, hseen]

theorem execPush_of_unseen {sym : Symbol} (count : Count32) (hp : s.phase = .load) (hsym : sym.toNat ≤ 256)
    (hseen : s.seen.getLsbD sym.toNat = false) : execPush sym count s = outcomeOf (pushLeaf sym count s) := by
  simp [execPush, hp, readSeen_of_legal hsym, hseen]

/-! ## BUILD past its checks (41_tree_builder.md R104) -/

theorem execBuild_of_load (hp : s.phase = .load) (hn : s.nleaf ≠ 0) : execBuild s = outcomeOf (buildTree s) := by
  rw [execBuild, if_pos hp, if_neg hn]

/-- BUILD of a table of one leaf or more, from a state of the invariant: `buildTree_spec` with its premises met. -/
theorem execBuild_spec (h : Inv s) (hp : s.phase = .load) (hn : s.nleaf ≠ 0) :
    ∃ t, execBuild s = .next t ∧ buildTree s = .ok t ∧ OneTree t t.root ∧ TableOk t t.root t.ct ∧
      t = { s with nm := t.nm, nnode := t.nnode, pq := [t.root], root := t.root, ct := t.ct, rcur := t.root, phase := .built } ∧
      ∀ i < s.nleaf.toNat, storeGet t.nm i = storeGet s.nm i := by
  obtain ⟨hnodes, hqueue, hct, -⟩ := h.loadPhase hp
  obtain ⟨t, hbuild, hone, htable, -, hframe, hold, -⟩ := buildTree_spec h.tree hqueue (nleaf_pos hn) hct
  refine ⟨t, ?_, hbuild, hone, htable, hframe, fun i hi => hold i (by omega)⟩
  rw [execBuild_of_load hp hn, hbuild, outcomeOf_ok]

/-- The root's count is the sum of all counts pushed (41_tree_builder.md R107 item 3). -/
theorem root_count_eq_leafTotal {root : NodeIdx} (h : OneTree s root) : cntAt s.nm root.toNat = leafTotal s.nm s.nleaf.toNat := by
  have hcounts := h.tree.counts
  unfold CountsOk at hcounts
  simpa [h.queue] using hcounts

/-- The tree BUILD answers is the one its merges leave: the rest of BUILD writes no node and no queue slot. -/
theorem buildTree_merges (h : buildTree s = .ok t) :
    ∃ m q, mergeLoop (s.pq.length - 1) s = .ok m ∧ m.pq = t.root :: q ∧ t.nm = m.nm ∧ t.nnode = m.nnode := by
  simp only [buildTree, bind, Except.bind] at h
  cases hloop : mergeLoop (s.pq.length - 1) s with
  | error f => simp [hloop] at h
  | ok m =>
    match hq : m.pq with
    | [] => simp [hloop, queueHead, hq] at h
    | k :: q =>
      cases hgen : genCodes (setRoot k m) with
      | error f => simp [hloop, queueHead, hq, hgen] at h
      | ok g =>
        simp only [hloop, queueHead, hq, hgen, Except.ok.injEq] at h
        subst h
        obtain ⟨hframe, -⟩ := genCodes_ok hgen
        refine ⟨m, q, rfl, ?_, ?_, ?_⟩
        · rw [hframe, hq]; rfl
        · rw [hframe]; rfl
        · rw [hframe]; rfl

/-! ## The run of merges (41_tree_builder.md R103, R104) -/

/-- The state one merge leaves; the state itself where no merge is possible. -/
def mergeNext (s : State) : State :=
  match mergeStep s with
  | .ok t => t
  | .error _ => s

theorem mergeNext_of_ok (h : mergeStep s = .ok t) : mergeNext s = t := by
  rw [mergeNext, h]

/-- A merge of a queue of two or more is `mergeNext`. -/
theorem mergeNext_spec (h : TreeOk s) (hq : 2 ≤ s.pq.length) :
    mergeStep s = .ok (mergeNext s) ∧ MergeOf s (mergeNext s) ∧ TreeOk (mergeNext s) := by
  obtain ⟨t, hstep, hmerge, htree⟩ := mergeStep_mergeOf h hq
  rw [mergeNext_of_ok hstep]
  exact ⟨hstep, hmerge, htree⟩

/-- `n` merges of a queue of more than `n` are `n` times `mergeNext`. -/
theorem mergeLoop_eq_iterate {n : Nat} (h : TreeOk s) (hn : n < s.pq.length) :
    mergeLoop n s = .ok (mergeNext^[n] s) := by
  induction n generalizing s with
  | zero => rfl
  | succ n ih =>
    obtain ⟨hstep, hmerge, htree⟩ := mergeNext_spec h (by omega)
    have hlen := hmerge.length
    simp only [mergeLoop, hstep, bind, Except.bind, Function.iterate_succ_apply]
    exact ih htree (by omega)

/-- After `n` merges of a queue of more than `n` `TreeOk` still holds and `QLEN` is lower by `n`. -/
theorem iterate_mergeNext_treeOk {n : Nat} (h : TreeOk s) (hn : n < s.pq.length) :
    TreeOk (mergeNext^[n] s) ∧ (mergeNext^[n] s).pq.length + n = s.pq.length := by
  induction n with
  | zero => exact ⟨h, rfl⟩
  | succ n ih =>
    obtain ⟨htree, hlen⟩ := ih (by omega)
    obtain ⟨-, hmerge, hnext⟩ := mergeNext_spec htree (by omega)
    have hlen' := hmerge.length
    rw [Function.iterate_succ_apply']
    exact ⟨hnext, by omega⟩

/-- Merge `n` of a queue of more than `n + 1`, as `MergeOf` says it. -/
theorem iterate_mergeNext_mergeOf {n : Nat} (h : TreeOk s) (hn : n + 1 < s.pq.length) :
    MergeOf (mergeNext^[n] s) (mergeNext^[n + 1] s) := by
  obtain ⟨htree, hlen⟩ := iterate_mergeNext_treeOk h (by omega : n < s.pq.length)
  obtain ⟨-, hmerge, -⟩ := mergeNext_spec htree (by omega)
  rwa [Function.iterate_succ_apply']

theorem iterate_mergeNext_nleaf {n : Nat} (h : TreeOk s) (hn : n < s.pq.length) : (mergeNext^[n] s).nleaf = s.nleaf := by
  obtain ⟨hframe, -⟩ := mergeLoop_ok (mergeLoop_eq_iterate h hn)
  rw [hframe.rest]

/-- BUILD's tree is the one `NLEAF - 1` merges leave, its root the one node still queued. -/
theorem buildTree_iterate (h : Inv s) (hp : s.phase = .load) (hn : s.nleaf ≠ 0) (hbuild : buildTree s = .ok t) :
    (mergeNext^[s.nleaf.toNat - 1] s).pq = [t.root] ∧ t.nm = (mergeNext^[s.nleaf.toNat - 1] s).nm ∧
      t.nnode = (mergeNext^[s.nleaf.toNat - 1] s).nnode := by
  obtain ⟨-, hqueue, -⟩ := h.loadPhase hp
  have hpos := nleaf_pos hn
  have hlt : s.nleaf.toNat - 1 < s.pq.length := by omega
  obtain ⟨m, q, hloop, hq, hnm, hnnode⟩ := buildTree_merges hbuild
  rw [hqueue, mergeLoop_eq_iterate h.tree hlt] at hloop
  cases hloop
  obtain ⟨-, hlen⟩ := iterate_mergeNext_treeOk h.tree hlt
  have hnil : q = [] := by
    rw [hq, List.length_cons] at hlen
    exact List.eq_nil_of_length_eq_zero (by omega)
  exact ⟨by rw [hq, hnil], hnm, hnnode⟩

/-! ## The order of the internal nodes (41_tree_builder.md R107 item 4) -/

/-- The internal nodes are in order of count, and the newest one's count is at most twice that of any queued node: the next merge
adds two queued counts, so its sum is no less. -/
def InnerSorted (s : State) : Prop :=
  (∀ i, s.nleaf.toNat ≤ i → i + 1 < s.nnode.toNat → cntAt s.nm i ≤ cntAt s.nm (i + 1)) ∧
    ∀ i, s.nleaf.toNat ≤ i → i + 1 = s.nnode.toNat → ∀ j ∈ s.pq, cntAt s.nm i ≤ 2 * cntAt s.nm j.toNat

theorem innerSorted_of_no_inner (h : s.nnode.toNat = s.nleaf.toNat) : InnerSorted s :=
  ⟨fun i _ _ => by omega, fun i _ _ => by omega⟩

theorem before_le {nm : List (Nat × Node)} {i j : NodeIdx} (h : Before nm i j) : cntAt nm i.toNat ≤ cntAt nm j.toNat := by
  unfold Before at h
  omega

/-- Both counts a merge adds are at most those of the nodes left in the queue (R100), so its sum is at most twice any of them. -/
theorem mergeOf_keeps_innerSorted (htree : TreeOk s) (h : MergeOf s t) (hs : InnerSorted s) : InnerSorted t := by
  obtain ⟨a, b, q, l1, l2, c, hpq, hab, hbq, hc, hnew, hold, hq, -, -, hnnode, ht⟩ := h
  obtain ⟨hsorted, hnewest⟩ := hs
  have hleaf : t.nleaf = s.nleaf := by rw [ht]
  have hcntNew : cntAt t.nm s.nnode.toNat = c.toNat := cntAt_of_get hnew
  have hcntOld : ∀ i, i ≠ s.nnode.toNat → cntAt t.nm i = cntAt s.nm i := fun i hi => by simp only [cntAt, hold i hi]
  have hle := before_le hab
  refine ⟨fun i hi hlt => ?_, fun i hi heq j hj => ?_⟩
  · rw [hleaf] at hi
    rw [hcntOld i (by omega)]
    by_cases hlast : i + 1 = s.nnode.toNat
    · have hhalf := hnewest i hi hlast a (by simp [hpq])
      rw [hlast, hcntNew]
      omega
    · rw [hcntOld _ hlast]
      exact hsorted i hi (by omega)
  · obtain rfl : i = s.nnode.toNat := by omega
    rw [hcntNew]
    have hmem : j = s.nnode ∨ j ∈ q := by
      rw [ht] at hj
      simp only [List.mem_append, List.mem_cons] at hj
      rw [hq, List.mem_append]
      tauto
    obtain rfl | hj := hmem
    · omega
    · have hjlt := htree.queue.1 j (by simp [hpq, hj])
      have hbj := before_le (hbq j hj)
      rw [hcntOld _ (by omega)]
      omega

theorem iterate_mergeNext_innerSorted {n : Nat} (h : TreeOk s) (hs : InnerSorted s) (hn : n < s.pq.length) :
    InnerSorted (mergeNext^[n] s) := by
  induction n with
  | zero => exact hs
  | succ n ih =>
    obtain ⟨htree, -⟩ := iterate_mergeNext_treeOk h (by omega : n < s.pq.length)
    exact mergeOf_keeps_innerSorted htree (iterate_mergeNext_mergeOf h hn) (ih (by omega))

end TreeBuilder

/-! ## The obligations -/

/-- Settles O22: the tree is one tree of the nodes `0 .. 2 NLEAF - 2` (`execBuild_spec`), and `CountsOk` of a queue of one node
is the root's count. -/
theorem buildMakesTheTree : Obligations.BuildMakesTheTree := by
  unfold Obligations.BuildMakesTheTree
  intro s h hp hn
  obtain ⟨t, hexec, -, hone, htable, hframe, hleaves⟩ := execBuild_spec h hp hn
  have hleaf : t.nleaf = s.nleaf := by rw [hframe]
  have hseen : t.seen = s.seen := by rw [hframe]
  have hrcur : t.rcur = t.root := by rw [hframe]
  have hroot := hone.root_eq
  have hnnode := hone.nnode_eq
  obtain ⟨-, -, hinner⟩ := hone.tree.nodes
  have hcount := root_count_eq_leafTotal hone
  rw [hleaf] at hroot hnnode hinner hcount
  refine ⟨t, hexec, by rw [hframe], hone.queue, hrcur, hroot, hnnode, hleaves, hinner, ?_, fun sym hsym => ?_, ?_⟩
  · rw [hcount]
    exact leafTotal_congr fun i hi => by simp only [cntAt, hleaves i hi]
  · rw [codeValid, htable.1 _ (Nat.lt_succ_of_le hsym), hseen]
  · rw [hone.queue, hrcur]
    exact hframe

/-- Settles O19: `pushLeaf_spec`, read field by field. -/
theorem pushInsertsItsLeaf : Obligations.PushInsertsItsLeaf := by
  unfold Obligations.PushInsertsItsLeaf
  intro s sym count h hp hsym hseen
  obtain ⟨hnodes, -⟩ := h.loadPhase hp
  have hlt : sym.toNat < 257 := Nat.lt_succ_of_le hsym
  have hroom := nleaf_lt_of_unseen h.tree hlt hseen
  have hnext : (s.nnode + 1).toNat = s.nnode.toNat + 1 := nnode_succ (by omega)
  obtain ⟨l1, l2, hpq, hpush, hbefore, hafter, -⟩ := pushLeaf_spec h.tree hnodes count hlt hseen
  refine ⟨_, l1, l2, (execPush_of_unseen count hp hsym hseen).trans (by rw [hpush, outcomeOf_ok]), hpq, rfl, hbefore, hafter,
    storeGet_put_same _ _ _, fun i hi => storeGet_put_other _ _ hi, fun i hi => getLsbD_setSeen _ _ _ hi, nleaf_succ hroom,
    hnext, rfl⟩

/-- Settles O21: a fault writes `FAULT` and `FINFO` only, and `pushLeaf_ok` names all that the effect writes. -/
theorem pushFrame : Obligations.PushFrame := by
  unfold Obligations.PushFrame
  intro s t sym count h
  obtain ⟨-, rfl⟩ | ⟨-, -, -, rfl⟩ | ⟨-, -, -, hpush⟩ := execPush_next h
  · simp
  · simp
  · obtain ⟨-, -, q, rfl⟩ := pushLeaf_ok hpush
    refine ⟨rfl, rfl, rfl, rfl, rfl, rfl, rfl, rfl, rfl, rfl, rfl, fun i hi => storeGet_put_other _ _ hi, fun i hi hne => ?_⟩
    exact (getLsbD_setSeen _ _ _ hi).trans (by simp [hne])

/-- Settles O23: the states are `mergeNext` iterated. -/
theorem everyMergeTakesTheTwoLowest : Obligations.EveryMergeTakesTheTwoLowest := by
  unfold Obligations.EveryMergeTakesTheTwoLowest
  intro s h hp hn
  obtain ⟨-, hqueue, -⟩ := h.loadPhase hp
  obtain ⟨t, hexec, hbuild, -⟩ := execBuild_spec h hp hn
  obtain ⟨hroot, hnm, hnnode⟩ := buildTree_iterate h hp hn hbuild
  exact ⟨fun n => mergeNext^[n] s, t, hexec, rfl, fun n hlt => iterate_mergeNext_mergeOf h.tree (by omega), hroot, hnm, hnnode⟩

/-- Settles O25: a fault writes `FAULT` and `FINFO` only, and `buildTree_ok` names all that the effect writes. -/
theorem buildFrame : Obligations.BuildFrame := by
  unfold Obligations.BuildFrame
  intro s t h
  obtain ⟨-, rfl⟩ | ⟨-, -, rfl⟩ | ⟨-, -, hbuild⟩ := execBuild_next h
  · simp
  · simp
  · obtain ⟨hframe, hold, -⟩ := buildTree_ok hbuild
    refine ⟨?_, ?_, ?_, ?_, ?_, ?_, ?_, ?_, ?_, hold⟩ <;> rw [hframe]

/-- Settles O26: the tree has one node, so the path the trie maps to its symbol is "0" (42_code_table.md R121), and the table holds
what the trie maps. -/
theorem singleEntryGetsTheCodeZero : Obligations.SingleEntryGetsTheCodeZero := by
  unfold Obligations.SingleEntryGetsTheCodeZero
  intro s h hp hsingle
  have hn : s.nleaf ≠ 0 := by simp [hsingle]
  obtain ⟨t, hexec, hbuild, hone, -, hframe, -⟩ := execBuild_spec h hp hn
  have hleaf : t.nleaf = 1 := by rw [hframe]; exact hsingle
  have hbuilt : t.phase = .built := by rw [hframe]
  have hcount : t.nleaf.toNat = 1 := by rw [hleaf]; rfl
  have hroot_eq := hone.root_eq
  have hnnode_eq := hone.nnode_eq
  have hroot : t.root = 0 := by bv_omega
  have hnnode : t.nnode = 1 := by bv_omega
  obtain ⟨sym, c, hget, hsym, -, hseen⟩ := hone.tree.leaves.1 0 (by simp [hleaf])
  refine ⟨t, sym, c, hexec, hroot, hnnode, by rw [hone.queue, hroot], hget, ?_⟩
  obtain ⟨hunseen, -⟩ | ⟨-, p, hlookup, htrie⟩ := (h.buildTree hp hn hbuild).lookup hbuilt hsym
  · simp [hseen] at hunseen
  · obtain ⟨-, rfl, -⟩ | ⟨hmany, -⟩ := hone.trie_iff.1 htrie
    · exact hlookup
    · exact absurd hleaf hmany

/-- Settles O59: every merge keeps `InnerSorted`, which holds while there is no internal node. -/
theorem internalNodesInOrderOfCount : Obligations.InternalNodesInOrderOfCount := by
  unfold Obligations.InternalNodesInOrderOfCount
  intro s h hp hn
  obtain ⟨hnodes, hqueue, -⟩ := h.loadPhase hp
  have hpos := nleaf_pos hn
  obtain ⟨t, hexec, hbuild, -⟩ := execBuild_spec h hp hn
  obtain ⟨-, hnm, hnnode⟩ := buildTree_iterate h hp hn hbuild
  have hlt : s.nleaf.toNat - 1 < s.pq.length := by omega
  obtain ⟨hsorted, -⟩ := iterate_mergeNext_innerSorted h.tree (innerSorted_of_no_inner hnodes) hlt
  rw [← hnm, ← hnnode, iterate_mergeNext_nleaf h.tree hlt] at hsorted
  exact ⟨t, hexec, hsorted⟩

/-- Settles O20: the two checks in R102's order. -/
theorem pushChecksPhaseThenDuplicate : Obligations.PushChecksPhaseThenDuplicate := by
  unfold Obligations.PushChecksPhaseThenDuplicate
  refine fun s sym count hsym => ⟨fun hp => ?_, fun hp hseen => execPush_of_seen count hp hsym hseen⟩
  have hload : s.phase ≠ .load := by simp [hp]
  exact if_neg hload

/-- Settles O24: the two checks in R106's order, with the word of BUILD. -/
theorem buildChecksPhaseThenEmptyTable : Obligations.BuildChecksPhaseThenEmptyTable := by
  unfold Obligations.BuildChecksPhaseThenEmptyTable
  refine fun s => ⟨fun hp => ?_, fun hp hn => ?_⟩
  · have hload : s.phase ≠ .load := by simp [hp]
    exact if_neg hload
  · exact (if_pos hp).trans (if_pos hn)

end Sys2Proof.Proofs

/-! The code table and the trie are one map (42_code_table.md R122, R123, R126), so the reader on the tree follows the decoder that
looks each candidate path up in the table (44_bit_reader.md R155). -/

namespace Sys2Proof.Proofs

open Sys2Proof.Machine
open Sys2Proof.Safety

section CodeTable

variable {s t : State}

/-! ## The table in the terms of the trie -/

theorem tableSymbol_lt {ct : List (Nat × CodeEntry)} {p : Path} {n : Nat} (hwf : StoreWf Config.nsym ct)
    (h : tableSymbol ct p = some n) : n < 257 := by
  obtain ⟨⟨n, e⟩, hfind, rfl⟩ := Option.map_eq_some_iff.1 h
  exact storeGet_lt hwf ((mem_iff_storeGet hwf n e).1 (List.mem_of_find?_eq_some hfind))

/-- The two directions of the code table give a path the same symbol, or both none. -/
theorem tableSymbol_eq_trieSymbol (h : Inv s) (hp : s.phase = .built) (p : Path) :
    tableSymbol s.ct p = (trieSymbol s.nm s.root p).map BitVec.toNat := by
  have hiff : ∀ sym : Symbol, tableSymbol s.ct p = some sym.toNat ↔ trieSymbol s.nm s.root p = some sym := fun sym =>
    (h.oneTree hp).tableSymbol_iff (h.codes hp) h.ctWf
  cases htrie : trieSymbol s.nm s.root p with
  | some sym => exact (hiff sym).2 htrie
  | none =>
    cases htable : tableSymbol s.ct p with
    | none => rfl
    | some n =>
      have hlt := tableSymbol_lt h.ctWf htable
      have hn : (BitVec.ofNat 9 n).toNat = n := by simp; omega
      have hhit := (hiff (BitVec.ofNat 9 n)).1 (by rw [hn, htable])
      simp [htrie] at hhit

/-- `Lookup(sym)` is `p` exactly when `p` is the trie's path to `sym` (42_code_table.md R126). -/
theorem lookupCode_eq_some_iff (h : Inv s) (hp : s.phase = .built) {sym : Symbol} {p : Path} :
    lookupCode sym s = .ok (some p) ↔ sym.toNat ≤ 256 ∧ trieSymbol s.nm s.root p = some sym := by
  by_cases hsym : sym.toNat < 257
  · obtain ⟨hunseen, hlookup⟩ | ⟨-, q, hlookup, hq⟩ := h.lookup hp hsym
    · have hno : trieSymbol s.nm s.root p ≠ some sym := fun htrie => by
        obtain ⟨-, hseen⟩ := (h.oneTree hp).trie_seen htrie
        simp [hunseen] at hseen
      simp [hlookup, hno]
    · constructor
      · intro hlookup'
        rw [hlookup] at hlookup'
        cases hlookup'
        exact ⟨Nat.le_of_lt_succ hsym, hq⟩
      · rintro ⟨-, htrie⟩
        rw [hlookup, (h.oneTree hp).trie_injective htrie hq]
  · have herror : lookupCode sym s = .error (.noSuchSymbol sym) := if_neg hsym
    refine ⟨fun hlookup => ?_, fun ⟨hle, _⟩ => absurd (Nat.lt_succ_of_le hle) hsym⟩
    simp [herror] at hlookup

/-! ## The table and the tree are fixed in BUILT (42_code_table.md R123) -/

/-- In BUILT, PUSH and BUILD are BadPhase and the other commands but CLEAR write neither the table nor the tree. -/
theorem exec_keeps_codes {i : Instr} (h : exec i s = .next t) (hp : s.phase = .built) (hclear : i ≠ .clear) :
    t.ct = s.ct ∧ t.nm = s.nm ∧ t.root = s.root := by
  cases i with
  | nop => cases h; exact ⟨rfl, rfl, rfl⟩
  | clear => exact absurd rfl hclear
  | push sym count =>
    obtain ⟨-, rfl⟩ | ⟨hload, -⟩ | ⟨hload, -⟩ := execPush_next h
    · exact ⟨rfl, rfl, rfl⟩
    · simp [hp] at hload
    · simp [hp] at hload
  | build =>
    obtain ⟨-, rfl⟩ | ⟨hload, -⟩ | ⟨hload, -⟩ := execBuild_next h
    · exact ⟨rfl, rfl, rfl⟩
    · simp [hp] at hload
    · simp [hp] at hload
  | enc sym =>
    obtain ⟨-, rfl⟩ | ⟨-, -, rfl⟩ | ⟨-, -, -, rfl⟩ | ⟨-, -, p, -, rfl⟩ := execEnc_next h
    · exact ⟨rfl, rfl, rfl⟩
    · exact ⟨rfl, rfl, rfl⟩
    · exact ⟨rfl, rfl, rfl⟩
    · rw [appendPath_frame]; exact ⟨rfl, rfl, rfl⟩
  | wbits len bits =>
    obtain ⟨-, rfl⟩ | ⟨-, p, -, rfl⟩ := execWbits_next h
    · exact ⟨rfl, rfl, rfl⟩
    · rw [appendPath_frame]; exact ⟨rfl, rfl, rfl⟩
  | wfin =>
    obtain ⟨-, rfl⟩ | ⟨-, rfl⟩ := execWfin_next h
    · exact ⟨rfl, rfl, rfl⟩
    · rw [flushPartial_frame]; exact ⟨rfl, rfl, rfl⟩
  | dec byte =>
    obtain ⟨-, rfl⟩ | ⟨-, hread⟩ := execDec_next h
    · exact ⟨rfl, rfl, rfl⟩
    · obtain ⟨hframe, -⟩ := readBits_ok hread
      rw [hframe]; exact ⟨rfl, rfl, rfl⟩

/-- `exec_keeps_codes` for an accepted word: only the word of CLEAR decodes to it. -/
theorem accept_keeps_codes {w : Word48} (h : accept w s = .next t) (hp : s.phase = .built) (hw : w ≠ 0x100000000000#48) :
    t.ct = s.ct ∧ t.nm = s.nm ∧ t.root = s.root := by
  obtain ⟨-, hclear, -⟩ | ⟨-, -, rfl⟩ | ⟨-, -, rfl⟩ | ⟨-, i, hdecode, hexec⟩ := accept_next h
  · exact absurd hclear hw
  · exact ⟨rfl, rfl, rfl⟩
  · exact ⟨rfl, rfl, rfl⟩
  · refine exec_keeps_codes hexec hp ?_
    rintro rfl
    have hencode : encode .clear = 0x100000000000#48 := by decide
    exact hw (by rw [← encode_of_decode hdecode, hencode])

/-! ## One bit, in the terms of the trie (44_bit_reader.md R150, R155) -/

/-- A path of one step or more is passed by internal nodes only, so the node it leads to decides what the trie says of it. -/
theorem trieSymbol_of_walk {nm : List (Nat × Node)} {root k : NodeIdx} {p : Path} {n : Node} (hwalk : walkFrom nm root p = some k)
    (hp : p ≠ []) (hk : readNode nm k = .ok n) : trieSymbol nm root p = leafSymAt nm k.toNat := by
  obtain ⟨c, l, r, hroot⟩ : ∃ c l r, readNode nm root = .ok (.inner c l r) := by
    obtain ⟨b, q, rfl⟩ := List.exists_cons_of_ne_nil hp
    simp only [walkFrom] at hwalk
    split at hwalk
    · next c l r hroot => exact ⟨c, l, r, hroot⟩
    · simp at hwalk
  obtain ⟨-, hget⟩ := readNode_ok_iff.1 hk
  cases n <;> simp [trieSymbol, hroot, hwalk, hk, leafSymAt, hget]

/-- A walk from a leaf is the empty one. -/
theorem walkFrom_leaf {nm : List (Nat × Node)} {k j : NodeIdx} {p : Path} {sym : Symbol} {c : Count}
    (hk : readNode nm k = .ok (.leaf sym c)) (hwalk : walkFrom nm k p = some j) : p = [] := by
  cases p with
  | nil => rfl
  | cons b p => simp [walkFrom, hk] at hwalk

/-- What a bit does at the node the candidate path leads to, as the trie says of the extended path. -/
theorem matchBit_trie (h : Inv s) (hp : s.phase = .built) {cand : Path} (hwalk : walkFrom s.nm s.root cand = some s.rcur) (b : Bool) :
    matchBit s.nm s.rcur b = .ok .noCode ∨
    (∃ nxt, matchBit s.nm s.rcur b = .ok (.goOn nxt) ∧ walkFrom s.nm s.root (cand ++ [b]) = some nxt ∧ Standing s nxt ∧
      trieSymbol s.nm s.root (cand ++ [b]) = none) ∨
    ∃ sym, matchBit s.nm s.rcur b = .ok (.hit sym) ∧ trieSymbol s.nm s.root (cand ++ [b]) = some sym := by
  have hone := h.oneTree hp
  obtain ⟨hstanding, -⟩ := h.reader hp
  have hne : cand ++ [b] ≠ [] := by simp
  have hext : walkFrom s.nm s.root (cand ++ [b]) = walkFrom s.nm s.rcur [b] := by
    rw [walkFrom_append, hwalk, Option.bind_some]
  obtain ⟨-, -, -, hm⟩ | ⟨nxt, c, l, r, hstep, hget, hm⟩ | ⟨sym, hm, ⟨hn, -, rfl, c, hleaf⟩ | ⟨nxt, c, hstep, hleaf⟩⟩ :=
    hone.matchBit_spec hstanding b
  · exact Or.inl hm
  · obtain ⟨-, hnnode, -⟩ := h.tree.bounds
    have hinner := readNode_of_get ((hone.inner_lt hget).trans_le hnnode) hget
    rw [hstep] at hext
    refine Or.inr (Or.inl ⟨nxt, hm, hext, Or.inl ⟨c, l, r, hget⟩, ?_⟩)
    rw [trieSymbol_of_walk hext hne hinner]
    simp [leafSymAt, hget]
  · obtain rfl := walkFrom_leaf hleaf hwalk
    exact Or.inr (Or.inr ⟨sym, hm, hone.trie_iff.2 (Or.inl ⟨hn, rfl, c, hleaf⟩)⟩)
  · obtain ⟨-, hget⟩ := readNode_ok_iff.1 hleaf
    rw [hstep] at hext
    refine Or.inr (Or.inr ⟨sym, hm, ?_⟩)
    rw [trieSymbol_of_walk hext hne hleaf]
    simp [leafSymAt, hget]

/-! ## The reader at one bit (44_bit_reader.md R151) -/

section OneBit

variable {w : Word48} {b : Bool} {bs : List Bool}

theorem readBits_of_noCode (hdone : s.rdone = false) (hbit : matchBit s.nm s.rcur b = .ok .noCode) :
    readBits w (b :: bs) s = .ok (raiseFault .noMatch w s) := by
  simp [readBits, hdone, hbit, bind, Except.bind]

theorem readBits_of_goOn {nxt : NodeIdx} (hdone : s.rdone = false) (hbit : matchBit s.nm s.rcur b = .ok (.goOn nxt)) :
    readBits w (b :: bs) s = readBits w bs (setRcur nxt s) := by
  simp [readBits, hdone, hbit, bind, Except.bind]

theorem readBits_of_hit {sym : Symbol} (hdone : s.rdone = false) (hbit : matchBit s.nm s.rcur b = .ok (.hit sym)) :
    readBits w (b :: bs) s = readBits w bs (takeSymbol sym s) := by
  simp [readBits, hdone, hbit, bind, Except.bind]

end OneBit

/-! ## The reader mirrors the candidate-path decoder (44_bit_reader.md R155) -/

theorem refBit_of_done {ct : List (Nat × CodeEntry)} {r : RefDecoder} (hdone : r.done = true) (b : Bool) : refBit ct r b = r :=
  if_pos hdone

theorem refBits_of_done {ct : List (Nat × CodeEntry)} (bs : List Bool) {r : RefDecoder} (hdone : r.done = true) :
    refBits ct bs r = r := by
  induction bs with
  | nil => rfl
  | cons b bs ih =>
    show refBits ct bs (refBit ct r b) = r
    rw [refBit_of_done hdone, ih]

theorem refBit_of_none (h : Inv s) (hp : s.phase = .built) {r : RefDecoder} (hdone : r.done = false) {b : Bool}
    (htrie : trieSymbol s.nm s.root (r.cand ++ [b]) = none) : refBit s.ct r b = ⟨r.cand ++ [b], r.out, false⟩ := by
  simp [refBit, hdone, tableSymbol_eq_trieSymbol h hp, htrie]

/-- The decoder at a match, in the terms of `takeSymbol`: EOD ends it, any other symbol is emitted as its low byte. -/
theorem refBit_of_some (h : Inv s) (hp : s.phase = .built) {r : RefDecoder} (hdone : r.done = false) {b : Bool} {sym : Symbol}
    (htrie : trieSymbol s.nm s.root (r.cand ++ [b]) = some sym) :
    refBit s.ct r b = if sym = Config.eodSym then ⟨[], r.out, true⟩ else ⟨[], r.out ++ [symByte sym], false⟩ := by
  have heod : sym.toNat = 256 ↔ sym = Config.eodSym := by bv_omega
  have hbyte : BitVec.ofNat 8 sym.toNat = symByte sym := by
    apply BitVec.eq_of_toNat_eq
    simp [symByte]
  simp [refBit, hdone, tableSymbol_eq_trieSymbol h hp, htrie, heod, hbyte]

/-- The reader of `s` is where the decoder `r` is: it stands at the node the candidate path leads to and has emitted, after `past`,
what `r` has. -/
def Mirrors (past : List Byte) (s : State) (r : RefDecoder) : Prop :=
  s.rout = past ++ r.out ∧ s.rdone = r.done ∧ walkFrom s.nm s.root r.cand = some s.rcur

variable {past : List Byte} {r : RefDecoder}

theorem mirrors_takeSymbol (hm : Mirrors past s r) (hdone : s.rdone = false) (sym : Symbol) :
    Mirrors past (takeSymbol sym s)
      (if sym = Config.eodSym then ⟨[], r.out, true⟩ else ⟨[], r.out ++ [symByte sym], false⟩) := by
  obtain ⟨hout, -, -⟩ := hm
  by_cases heod : sym = Config.eodSym
  · simp [Mirrors, takeSymbol, heod, hout, walkFrom]
  · simp [Mirrors, takeSymbol, heod, hout, hdone, walkFrom]

/-- A step of the reader to an internal node keeps the invariant. -/
theorem inv_setRcur (h : Inv s) (hp : s.phase = .built) (hdone : s.rdone = false) {k : NodeIdx} (hk : Standing s k) :
    Inv (setRcur k s) :=
  h.readerChange hp rfl (fun _ => ⟨hk, fun hc => by simp [hdone] at hc⟩) h.faultInfo

/-- A match puts the reader back at the root, where it may stand. -/
theorem inv_takeSymbol (h : Inv s) (hp : s.phase = .built) (sym : Symbol) : Inv (takeSymbol sym s) := by
  have hframe := takeSymbol_frame sym s
  have hrcur := takeSymbol_rcur sym s
  obtain ⟨hfault, hfinfo⟩ := takeSymbol_fault sym s
  refine h.readerChange hp hframe (fun _ => ⟨?_, fun _ => hrcur⟩) ?_
  · rw [hrcur]
    exact ((h.oneTree hp).of_frame hframe).standing_root
  · unfold FaultOk
    rw [hfault, hfinfo]
    exact h.faultInfo

/-- The simulation: bits read without a fault leave the reader where they leave the decoder. -/
theorem readBits_mirrors {w : Word48} {bs : List Bool} (h : Inv s) (hp : s.phase = .built) (hm : Mirrors past s r)
    (hread : readBits w bs s = .ok t) (hgood : t.fault = .none) : Mirrors past t (refBits s.ct bs r) := by
  induction bs generalizing s r with
  | nil =>
    cases hread
    exact hm
  | cons b bs ih =>
    have ⟨hout, hsame, hwalk⟩ := hm
    cases hdone : s.rdone with
    | true =>
      rw [readBits_done w _ hdone] at hread
      cases hread
      rwa [refBits_of_done _ (hsame.symm.trans hdone)]
    | false =>
      have hrdone := hsame.symm.trans hdone
      show Mirrors past t (refBits s.ct bs (refBit s.ct r b))
      obtain hbit | ⟨nxt, hbit, hnxt, hstanding, htrie⟩ | ⟨sym, hbit, htrie⟩ := matchBit_trie h hp hwalk b
      · rw [readBits_of_noCode hdone hbit] at hread
        cases hread
        simp at hgood
      · rw [readBits_of_goOn hdone hbit] at hread
        rw [refBit_of_none h hp hrdone htrie]
        exact ih (s := setRcur nxt s) (inv_setRcur h hp hdone hstanding) hp ⟨hout, hdone, hnxt⟩ hread
      · rw [readBits_of_hit hdone hbit] at hread
        have hframe := takeSymbol_frame sym s
        have hphase : (takeSymbol sym s).phase = .built := by rw [hframe]; exact hp
        have hct : (takeSymbol sym s).ct = s.ct := by rw [hframe]
        rw [refBit_of_some h hp hrdone htrie, ← hct]
        exact ih (inv_takeSymbol h hp sym) hphase (mirrors_takeSymbol hm hdone sym) hread

end CodeTable

/-! ## The obligations -/

/-- Settles O40: the simulation `readBits_mirrors`, from a decoder that has emitted nothing yet. -/
theorem candidatePathEquivalence : Obligations.CandidatePathEquivalence := by
  unfold Obligations.CandidatePathEquivalence
  intro s t w bs cand h hp _ hwalk hread hgood
  have hmirrors : Mirrors s.rout s ⟨cand, [], s.rdone⟩ := ⟨(List.append_nil _).symm, rfl, hwalk⟩
  obtain ⟨hout, hdone, hcand⟩ := readBits_mirrors h hp hmirrors hread hgood
  obtain ⟨hframe, -⟩ := readBits_ok hread
  refine ⟨hout, hdone, ?_⟩
  rw [hframe] at hcand
  exact hcand

/-- Settles O27: `lookupCode_eq_some_iff`, and in BUILT every word but CLEAR keeps the table and the tree. -/
theorem tableAndTrieAreInverse : Obligations.TableAndTrieAreInverse := by
  unfold Obligations.TableAndTrieAreInverse
  exact fun s h hp => ⟨fun sym p => lookupCode_eq_some_iff h hp, fun w t hacc hw => accept_keeps_codes hacc hp hw⟩

end Sys2Proof.Proofs

/-! The bit writer (43_bit_writer.md): ENC, WBITS and WFIN past their checks and at them (R131 to R134), what they leave unchanged, and
the packing law of a run (R135). -/

namespace Sys2Proof.Proofs

open Sys2Proof.Machine
open Sys2Proof.Safety

section Writer

variable {s t u : State}

/-! ## The writer commands, one outcome per check (43_bit_writer.md R131 to R133) -/

theorem execEnc_of_load (hp : s.phase = .load) (sym : Symbol) :
    execEnc sym s = .next (raiseFault .badPhase (encode (.enc sym)) s) := by
  simp [execEnc, hp]

theorem execEnc_of_final (hp : s.phase = .built) (hfin : s.wfin = true) (sym : Symbol) :
    execEnc sym s = .next (raiseFault .writeAfterFinal (encode (.enc sym)) s) := by
  simp [execEnc, hp, hfin]

theorem execEnc_of_uncoded {sym : Symbol} (hp : s.phase = .built) (hfin : s.wfin = false) (hcode : lookupCode sym s = .ok none) :
    execEnc sym s = .next (raiseFault .symbolNotCoded (encode (.enc sym)) s) := by
  simp [execEnc, hp, hfin, hcode]

theorem execEnc_of_code {sym : Symbol} {p : Path} (hp : s.phase = .built) (hfin : s.wfin = false)
    (hcode : lookupCode sym s = .ok (some p)) : execEnc sym s = .next (appendPath p s) := by
  simp [execEnc, hp, hfin, hcode]

theorem execWbits_of_final (hfin : s.wfin = true) (len : BitVec 9) (bits : BitVec 32) :
    execWbits len bits s = .next (raiseFault .writeAfterFinal (encode (.wbits len bits)) s) :=
  if_pos hfin

theorem execWbits_of_path {len : BitVec 9} {bits : BitVec 32} {p : Path} (hfin : s.wfin = false) (hpath : wbitsPath len bits = .ok p) :
    execWbits len bits s = .next (appendPath p s) := by
  simp [execWbits, hfin, hpath]

theorem execWfin_of_final (hfin : s.wfin = true) : execWfin s = .next (raiseFault .writeAfterFinal (encode .wfin) s) := if_pos hfin

theorem execWfin_of_open (hfin : s.wfin = false) : execWfin s = .next (setWfin (flushPartial s)) := by
  simp [execWfin, hfin]

/-- An entry that is not valid is looked up as none (42_code_table.md R122). -/
theorem lookupCode_of_invalid {sym : Symbol} (hsym : sym.toNat ≤ 256) (hvalid : codeValid sym s = false) :
    lookupCode sym s = .ok none := by
  have hget : storeGet s.ct sym.toNat = none := by simpa [codeValid] using hvalid
  simp [lookupCode, hget, Nat.lt_succ_of_le hsym]

/-- The path of WBITS is the one whose step `i` is `bits[len - 1 - i]` (30_encoding.md R72). -/
theorem wbitsPath_eq_of_steps {len : BitVec 9} {bits : BitVec 32} {p : Path} (hlen : len.toNat ≤ 32) (hp : p.length = len.toNat)
    (hstep : ∀ i < len.toNat, p.getD i false = bits.getLsbD (len.toNat - 1 - i)) : wbitsPath len bits = .ok p := by
  have hpath : (List.range len.toNat).map (fun i => bits.getLsbD (len.toNat - 1 - i)) = p := by
    refine List.ext_getElem (by simp [hp]) fun i _ hi => ?_
    rw [List.getElem_map, List.getElem_range, ← hstep i (hp ▸ hi), List.getD_eq_getElem _ _ hi]
  rw [← hpath]
  exact if_pos hlen

/-! ## The writer's registers (10_state.md R29) -/

/-- The commands that use the writer. -/
def WriterCommand (i : Instr) : Prop := (∃ sym, i = .enc sym) ∨ (∃ len bits, i = .wbits len bits) ∨ i = .wfin

/-- `t` has the writer of `s`: `WACC`, `WNB`, `WFIN` and the bytes emitted. -/
def SameWriter (s t : State) : Prop := t.wacc = s.wacc ∧ t.wnb = s.wnb ∧ t.wfin = s.wfin ∧ t.wout = s.wout

theorem SameWriter.refl (s : State) : SameWriter s s := ⟨rfl, rfl, rfl, rfl⟩

theorem SameWriter.trans (h : SameWriter s t) (h' : SameWriter t u) : SameWriter s u := by
  obtain ⟨hacc, hnb, hfin, hout⟩ := h
  obtain ⟨hacc', hnb', hfin', hout'⟩ := h'
  exact ⟨hacc'.trans hacc, hnb'.trans hnb, hfin'.trans hfin, hout'.trans hout⟩

theorem SameWriter.holds {c : List Bool} (h : SameWriter s t) (hc : Holds c s) : Holds c t := by
  obtain ⟨hacc, hnb, -, -⟩ := h
  simpa only [Holds, hacc, hnb] using hc

theorem SameWriter.appendBit (h : SameWriter s t) (b : Bool) : SameWriter (appendBit b s) (appendBit b t) := by
  obtain ⟨hacc, hnb, hfin, hout⟩ := h
  unfold Machine.appendBit
  rw [hacc, hnb]
  split
  · exact ⟨rfl, rfl, hfin, by simp [hout]⟩
  · exact ⟨rfl, rfl, hfin, hout⟩

/-- What a path does to the writer depends on the writer only. -/
theorem SameWriter.appendPath (h : SameWriter s t) (p : Path) : SameWriter (appendPath p s) (appendPath p t) := by
  induction p generalizing s t with
  | nil => exact h
  | cons b p ih => exact ih (h.appendBit b)

theorem appendPath_append (p q : Path) (s : State) : appendPath (p ++ q) s = appendPath q (appendPath p s) :=
  List.foldl_append

theorem appendPath_wfin (p : Path) (s : State) : (appendPath p s).wfin = s.wfin := by rw [appendPath_frame]

/-! ## What a command does to the writer -/

section Exec

variable {i : Instr}

/-- PUSH, BUILD, DEC and NOP leave the writer alone, whether they fault or not. -/
theorem exec_keeps_writer (h : exec i s = .next t) (hi : ¬ WriterCommand i) (hclear : i ≠ .clear) : SameWriter s t := by
  cases i with
  | nop => cases h; exact .refl s
  | clear => exact absurd rfl hclear
  | push sym count =>
    obtain ⟨-, rfl⟩ | ⟨-, -, -, rfl⟩ | ⟨-, -, -, hpush⟩ := execPush_next h
    · exact .refl s
    · exact .refl s
    · rw [pushLeaf_frame hpush]; exact .refl s
  | build =>
    obtain ⟨-, rfl⟩ | ⟨-, -, rfl⟩ | ⟨-, -, hbuild⟩ := execBuild_next h
    · exact .refl s
    · exact .refl s
    · obtain ⟨hframe, -⟩ := buildTree_ok hbuild
      rw [hframe]; exact .refl s
  | enc sym => exact absurd (.inl ⟨sym, rfl⟩) hi
  | wbits len bits => exact absurd (.inr (.inl ⟨len, bits, rfl⟩)) hi
  | wfin => exact absurd (.inr (.inr rfl)) hi
  | dec byte =>
    obtain ⟨-, rfl⟩ | ⟨-, hread⟩ := execDec_next h
    · exact .refl s
    · obtain ⟨hframe, -⟩ := readBits_ok hread
      rw [hframe]; exact .refl s

/-- Everything a writer command can do: record a fault; append its path; or, WFIN, flush and finalise. -/
theorem exec_of_writerCommand (h : exec i s = .next t) (hi : WriterCommand i) :
    (∃ code, code ≠ .none ∧ t = raiseFault code (encode i) s) ∨
    (i ≠ .wfin ∧ s.wfin = false ∧ t = appendPath (pathOfCommand i s) s) ∨
    (i = .wfin ∧ s.wfin = false ∧ t = setWfin (flushPartial s)) := by
  obtain ⟨sym, rfl⟩ | ⟨len, bits, rfl⟩ | rfl := hi
  · obtain ⟨-, rfl⟩ | ⟨-, -, rfl⟩ | ⟨-, -, -, rfl⟩ | ⟨-, hfin, p, hcode, rfl⟩ := execEnc_next h
    · exact Or.inl ⟨.badPhase, by simp, rfl⟩
    · exact Or.inl ⟨.writeAfterFinal, by simp, rfl⟩
    · exact Or.inl ⟨.symbolNotCoded, by simp, rfl⟩
    · exact Or.inr (Or.inl ⟨by simp, hfin, by simp [pathOfCommand, hcode]⟩)
  · obtain ⟨-, rfl⟩ | ⟨hfin, p, hpath, rfl⟩ := execWbits_next h
    · exact Or.inl ⟨.writeAfterFinal, by simp, rfl⟩
    · exact Or.inr (Or.inl ⟨by simp, hfin, by simp [pathOfCommand, hpath]⟩)
  · obtain ⟨-, rfl⟩ | ⟨hfin, rfl⟩ := execWfin_next h
    · exact Or.inl ⟨.writeAfterFinal, by simp, rfl⟩
    · exact Or.inr (Or.inr ⟨rfl, hfin, rfl⟩)

theorem pathOfCommand_eq_nil (hi : ¬ WriterCommand i) (s : State) : pathOfCommand i s = [] := by
  cases i with
  | enc sym => exact absurd (.inl ⟨sym, rfl⟩) hi
  | wbits len bits => exact absurd (.inr (.inl ⟨len, bits, rfl⟩)) hi
  | _ => rfl

/-- A command other than CLEAR and WFIN that raises no fault appends its path, which is empty for one that does not use the writer. -/
theorem exec_appends_path (h : exec i s = .next t) (hclear : i ≠ .clear) (hwfin : i ≠ .wfin) (hgood : t.fault = .none) :
    SameWriter (appendPath (pathOfCommand i s) s) t := by
  by_cases hi : WriterCommand i
  · obtain ⟨code, hcode, rfl⟩ | ⟨-, -, rfl⟩ | ⟨rfl, -⟩ := exec_of_writerCommand h hi
    · exact absurd hgood hcode
    · exact .refl _
    · exact absurd rfl hwfin
  · rw [pathOfCommand_eq_nil hi]
    exact exec_keeps_writer h hi hclear

/-- After finalisation only CLEAR writes to the writer (43_bit_writer.md R134). -/
theorem exec_keeps_final_writer (h : exec i s = .next t) (hclear : i ≠ .clear) (hfin : s.wfin = true) : SameWriter s t := by
  by_cases hi : WriterCommand i
  · obtain ⟨code, -, rfl⟩ | ⟨-, hopen, -⟩ | ⟨-, hopen, -⟩ := exec_of_writerCommand h hi
    · exact .refl s
    · simp [hfin] at hopen
    · simp [hfin] at hopen
  · exact exec_keeps_writer h hi hclear

/-- The flag stays set under every word but CLEAR's (43_bit_writer.md R134). -/
theorem accept_keeps_wfin {w : Word48} (h : accept w s = .next t) (hw : w ≠ 0x100000000000#48) (hfin : s.wfin = true) :
    t.wfin = true := by
  obtain ⟨-, hclear, -⟩ | ⟨-, -, rfl⟩ | ⟨-, -, rfl⟩ | ⟨-, i, hdecode, hexec⟩ := accept_next h
  · exact absurd hclear hw
  · exact hfin
  · exact hfin
  · have hclear : i ≠ .clear := by
      rintro rfl
      have hword : encode .clear = 0x100000000000#48 := by decide
      exact hw (by rw [← encode_of_decode hdecode, hword])
    obtain ⟨-, -, htfin, -⟩ := exec_keeps_final_writer hexec hclear hfin
    exact htfin.trans hfin

/-- PUSH, BUILD and DEC answer the same, but for `WFIN`, whatever `WFIN` is (43_bit_writer.md R134). -/
theorem exec_ignores_wfin (h : exec i s = .next t)
    (hi : (∃ sym count, i = .push sym count) ∨ i = .build ∨ ∃ byte, i = .dec byte) :
    exec i { s with wfin := false } = .next { t with wfin := false } := by
  have hpast : exec i (withPast [] [] (fun _ => false) id s) = mapNext (withPast [] [] (fun _ => false) id) (exec i s) := by
    obtain ⟨sym, count, rfl⟩ | rfl | ⟨byte, rfl⟩ := hi
    · exact execPush_past sym count
    · exact execBuild_past
    · exact execDec_past byte
  rw [h] at hpast
  exact hpast

/-- The state written by a writer command, fault or not (43_bit_writer.md R131 to R133). -/
theorem exec_writer_frame (h : exec i s = .next t) (hi : WriterCommand i) :
    t = { s with fault := t.fault, finfo := t.finfo, wacc := t.wacc, wnb := t.wnb, wfin := t.wfin, wout := t.wout } ∧
      (i ≠ .wfin → t.wfin = s.wfin) := by
  obtain ⟨code, -, rfl⟩ | ⟨-, -, rfl⟩ | ⟨rfl, -, rfl⟩ := exec_of_writerCommand h hi
  · exact ⟨rfl, fun _ => rfl⟩
  · exact ⟨by rw [appendPath_frame], fun _ => appendPath_wfin _ s⟩
  · exact ⟨by rw [flushPartial_frame]; rfl, fun hne => absurd rfl hne⟩

end Exec

/-! ## Runs of commands (60_exceptions.md R176, R181) -/

section Runs

variable {i : Instr} {is js : List Instr}

/-- Every command of the list is one a word decodes to, and none is CLEAR. -/
def NoClear (is : List Instr) : Prop := ∀ i ∈ is, WellFormed i ∧ i ≠ .clear

theorem encode_ne_clear (h : i ≠ .clear) : encode i ≠ 0x100000000000#48 := by
  intro hword
  have hop : opField (encode i) = 1 := by rw [hword]; decide
  simp only [encode, opField_packWord] at hop
  cases i <;> simp [opcodeOf] at hop h

theorem accept_encode (hf : s.fault = .none) (hwf : WellFormed i) : accept (encode i) s = exec i s :=
  accept_of_decode hf (decode_encode hwf)

theorem runCommands_of_faulted (hf : s.fault ≠ .none) (his : NoClear is) : runCommands is s = .next s := by
  induction is with
  | nil => rfl
  | cons i is ih =>
    obtain ⟨⟨-, hclear⟩, his⟩ := List.forall_mem_cons.1 his
    have hrun : runCommands (i :: is) s = runCommands is s := by
      simp only [runCommands, List.map_cons, runWords, accept_of_faulted hf (encode_ne_clear hclear)]
    rw [hrun, ih his]

theorem runCommands_cons_iff (hf : s.fault = .none) (hwf : WellFormed i) :
    runCommands (i :: is) s = .next t ↔ ∃ u, exec i s = .next u ∧ runCommands is u = .next t := by
  simp only [runCommands, List.map_cons, runWords, accept_encode hf hwf]
  cases exec i s <;> simp

theorem runCommands_append_iff :
    runCommands (is ++ js) s = .next t ↔ ∃ u, runCommands is s = .next u ∧ runCommands js u = .next t := by
  induction is generalizing s with
  | nil => simp [runCommands, runWords]
  | cons i is ih =>
    simp only [runCommands, List.map_append, List.map_cons, List.cons_append, runWords] at ih ⊢
    cases accept (encode i) s with
    | next v => exact ih
    | fault r => simp
    | refused r => simp

/-- The first fault of a run without CLEAR stays, so a run that ends without a fault raised none (10_state.md R22). -/
theorem good_of_runCommands (h : runCommands is s = .next t) (his : NoClear is) (hgood : t.fault = .none) : s.fault = .none := by
  by_contra hf
  rw [runCommands_of_faulted hf his] at h
  cases h
  exact hf hgood

theorem appendedPath_cons (hf : s.fault = .none) (hwf : WellFormed i) (h : exec i s = .next u) :
    appendedPath (i :: is) s = pathOfCommand i s ++ appendedPath is u := by
  simp [appendedPath, accept_encode hf hwf, h]

/-- A run without WFIN and without a fault leaves the writer that the concatenation of its paths leaves. -/
theorem runCommands_appends_path (h : runCommands is s = .next t) (his : NoClear is) (hwfin : .wfin ∉ is) (hf : s.fault = .none)
    (hgood : t.fault = .none) : SameWriter (appendPath (appendedPath is s) s) t := by
  induction is generalizing s with
  | nil =>
    cases h
    exact .refl _
  | cons i is ih =>
    obtain ⟨⟨hwf, hclear⟩, his⟩ := List.forall_mem_cons.1 his
    obtain ⟨hi, hwfin⟩ := List.ne_and_not_mem_of_not_mem_cons hwfin
    obtain ⟨u, hexec, hrun⟩ := (runCommands_cons_iff hf hwf).1 h
    have hu := good_of_runCommands hrun his hgood
    have hstep := exec_appends_path hexec hclear (Ne.symm hi) hu
    rw [appendedPath_cons hf hwf hexec, appendPath_append]
    exact (hstep.appendPath _).trans (ih hrun his hwfin hu)

/-- A run from a finalised state keeps the writer. -/
theorem runCommands_keeps_final_writer (h : runCommands is s = .next t) (his : NoClear is) (hfin : s.wfin = true) :
    SameWriter s t := by
  induction is generalizing s with
  | nil =>
    cases h
    exact .refl _
  | cons i is ih =>
    by_cases hf : s.fault = .none
    · obtain ⟨⟨hwf, hclear⟩, his⟩ := List.forall_mem_cons.1 his
      obtain ⟨u, hexec, hrun⟩ := (runCommands_cons_iff hf hwf).1 h
      have hstep := exec_keeps_final_writer hexec hclear hfin
      have ⟨_, _, hufin, _⟩ := hstep
      exact hstep.trans (ih hrun his (hufin.trans hfin))
    · rw [runCommands_of_faulted hf his] at h
      cases h
      exact .refl _

/-- The bytes before WFIN and the flush of the bits held are the padded bytes (43_bit_writer.md R135). -/
theorem paddedBytes_eq (l : List Bool) :
    paddedBytes l = wholeBytes l ++ if restBits l = [] then [] else [byteOf (restBits l)] := by
  have hrest : restBits l = [] ↔ l.length % 8 = 0 := by rw [← List.length_eq_zero_iff, restBits_length]
  simp only [paddedBytes, hrest]
  split <;> simp

/-- WFIN after a path: the padded bytes are out and the writer is empty (43_bit_writer.md R133, R135). -/
theorem flushPartial_after_path {c : List Bool} (h : Holds c s) (p : Path) (ht : SameWriter (appendPath p s) t) :
    (flushPartial t).wout = s.wout ++ paddedBytes (c ++ p) ∧ (flushPartial t).wnb = 0 ∧ (flushPartial t).wacc = 0 := by
  obtain ⟨hout, hholds⟩ := appendPath_packs p h
  obtain ⟨hflush, hempty⟩ := flushPartial_spec (ht.holds hholds)
  obtain ⟨-, -, -, htout⟩ := ht
  refine ⟨?_, hempty⟩
  rw [hflush, htout, hout, paddedBytes_eq, List.append_assoc]

end Runs

end Writer

/-! ## The obligations -/

/-- Settles O37: a run leaves the writer that its concatenated path leaves (`runCommands_appends_path`), WFIN flushes it, and nothing
but CLEAR writes to it after that. -/
theorem packingLaw : Obligations.PackingLaw := by
  unfold Obligations.PackingLaw
  intro is js s t c hc hfin hf hcommands hwfin
  obtain ⟨his, hjs⟩ : NoClear is ∧ NoClear js := List.forall_mem_append.1 hcommands
  refine ⟨fun hrun hgood => ?_, fun hrun hgood => ?_⟩
  · have hwriter := runCommands_appends_path hrun his hwfin hf hgood
    obtain ⟨hout, hholds⟩ := appendPath_packs (appendedPath is s) hc
    have hrest := hwriter.holds hholds
    obtain ⟨-, -, -, htout⟩ := hwriter
    exact ⟨htout.trans hout, hrest⟩
  · obtain ⟨u, hbefore, hafter⟩ := runCommands_append_iff.1 hrun
    have hrest : NoClear (.wfin :: js) := List.forall_mem_cons.2 ⟨⟨rfl, by simp⟩, hjs⟩
    have hu := good_of_runCommands hafter hrest hgood
    have hwriter := runCommands_appends_path hbefore his hwfin hf hu
    obtain ⟨v, hexec, hjsrun⟩ := (runCommands_cons_iff hu rfl).1 hafter
    have hopen : u.wfin = false := by
      obtain ⟨-, -, hufin, -⟩ := hwriter
      rw [hufin, appendPath_wfin, hfin]
    have hv : setWfin (flushPartial u) = v := by
      have := (execWfin_of_open hopen).symm.trans hexec
      simpa using this
    subst hv
    obtain ⟨hout, hnb, hacc⟩ := flushPartial_after_path hc _ hwriter
    obtain ⟨htacc, htnb, htfin, htout⟩ := runCommands_keeps_final_writer hjsrun hjs rfl
    exact ⟨htout.trans hout, htacc.trans hacc, htnb.trans hnb, htfin⟩

/-- Settles O31: past its checks ENC is `appendPath` of the code. -/
theorem encAppendsTheCode : Obligations.EncAppendsTheCode := by
  unfold Obligations.EncAppendsTheCode
  intro s sym p c hp hfin hcode hc
  obtain ⟨hout, hholds⟩ := appendPath_packs p hc
  exact ⟨appendPath p s, execEnc_of_code hp hfin hcode, hout, hholds, appendPath_frame p s⟩

/-- Settles O33: past its check WBITS is `appendPath` of its path, which its steps determine. -/
theorem wbitsAppendsItsPath : Obligations.WbitsAppendsItsPath := by
  unfold Obligations.WbitsAppendsItsPath
  intro s len bits c p hfin hlen hc hp hstep
  obtain ⟨hout, hholds⟩ := appendPath_packs p hc
  exact ⟨appendPath p s, execWbits_of_path hfin (wbitsPath_eq_of_steps hlen hp hstep), hout, hholds, appendPath_frame p s⟩

/-- Settles O34: `flushPartial_spec`, and the word of WFIN. -/
theorem wfinFlushesThePartialByte : Obligations.WfinFlushesThePartialByte := by
  unfold Obligations.WfinFlushesThePartialByte
  intro s c hc
  refine ⟨fun hfin => ?_, fun hfin => ?_⟩
  · obtain ⟨hout, hnb, hacc⟩ := flushPartial_spec hc
    show execWfin s = _
    rw [execWfin_of_open hfin, flushPartial_frame, hout, hnb, hacc]
    rfl
  · have hword : encode .wfin = 0x600000000000#48 := by decide
    rw [← hword]
    exact execWfin_of_final hfin

/-- Settles O35: the three checks, `accept_keeps_wfin` for the words and `exec_ignores_wfin` for PUSH, BUILD and DEC. -/
theorem noWriteAfterFinalisation : Obligations.NoWriteAfterFinalisation := by
  unfold Obligations.NoWriteAfterFinalisation
  intro s hfin
  refine ⟨execWbits_of_final hfin, execWfin_of_final hfin, fun hp => execEnc_of_final hp hfin, ?_,
    fun i t hi hexec => exec_ignores_wfin hexec hi⟩
  intro e rest t hport hstep
  cases e with
  | resetPulse => exact Or.inr (Or.inr rfl)
  | command w =>
    by_cases hw : w = 0x100000000000#48
    · exact Or.inr (Or.inl (by rw [hw]))
    · rw [step_of_command hport] at hstep
      exact Or.inl (accept_keeps_wfin hstep hw hfin)

/-- Settles O36: `exec_writer_frame`, field by field. -/
theorem writerFrame : Obligations.WriterFrame := by
  unfold Obligations.WriterFrame
  intro s t i hi h
  obtain ⟨hframe, hwfin⟩ := exec_writer_frame h hi
  rw [hframe]
  exact ⟨rfl, rfl, rfl, rfl, rfl, rfl, rfl, rfl, rfl, rfl, rfl, rfl, hwfin⟩

/-- Settles O32: the three checks in R131's order. -/
theorem encChecksInOrder : Obligations.EncChecksInOrder := by
  unfold Obligations.EncChecksInOrder
  intro s sym hsym
  exact ⟨fun hp => execEnc_of_load hp sym, fun hp hfin => execEnc_of_final hp hfin sym,
    fun hp hfin hvalid => execEnc_of_uncoded hp hfin (lookupCode_of_invalid hsym hvalid)⟩

end Sys2Proof.Proofs

/-! The round trip from a built state (44_bit_reader.md R157): the encoder packs the codes of its symbols one after the other, and the
reader on the same tree takes them off again, stopping inside the last byte. -/

namespace Sys2Proof.Proofs

open Sys2Proof.Machine
open Sys2Proof.Safety

section RoundTrip

variable {s t v : State}

/-! ## The bits of the bytes emitted (20_memory.md R52) -/

theorem byteBits_byteOf (l : List Bool) (hl : l.length ≤ 8) : byteBits (byteOf l) = l ++ List.replicate (8 - l.length) false := by
  have hbits : byteBits (byteOf l) = (List.range 8).map fun i => l.getD i false := by
    show (List.range 8).map (fun i => (byteOf l).getLsbD (7 - i)) = _
    refine List.map_congr_left fun i hi => ?_
    have hi := List.mem_range.1 hi
    rw [byteOf_bit l (by omega), Nat.sub_sub_self (by omega)]
  rw [hbits]
  refine List.ext_getElem (by simp; omega) fun i _ _ => ?_
  rw [List.getElem_map, List.getElem_range, List.getElem_append]
  split
  · next hi => exact List.getD_eq_getElem _ _ hi
  · next hi => rw [List.getD_eq_default _ _ (by omega), List.getElem_replicate]

/-- The whole bytes and the rest are all of the bits. -/
theorem wholeBytes_bits (l : List Bool) : (wholeBytes l).flatMap byteBits ++ restBits l = l := by
  induction hn : l.length using Nat.strong_induction_on generalizing l with
  | _ n ih =>
    by_cases hshort : l.length < 8
    · simp [wholeBytes_short hshort, restBits_short hshort]
    · have htake : (l.take 8).length = 8 := by simp; omega
      have hrest := ih (l.drop 8).length (by simp; omega) (l.drop 8) rfl
      rw [← List.take_append_drop 8 l, wholeBytes_append_of_length htake, restBits_append_of_length htake, List.flatMap_cons,
        List.append_assoc, hrest, byteBits_byteOf _ htake.le, htake]
      simp

/-- The padded bytes are the bits and fewer than eight zeros (43_bit_writer.md R133). -/
theorem paddedBytes_bits (l : List Bool) : ∃ k < 8, (paddedBytes l).flatMap byteBits = l ++ List.replicate k false := by
  have hwhole := wholeBytes_bits l
  rw [paddedBytes_eq]
  split
  · next hrest =>
    rw [hrest, List.append_nil] at hwhole
    exact ⟨0, by omega, by simp [hwhole]⟩
  · next hrest =>
    have hpos := List.length_pos_of_ne_nil hrest
    have hlt : (restBits l).length < 8 := by rw [restBits_length]; omega
    refine ⟨8 - (restBits l).length, by omega, ?_⟩
    rw [List.flatMap_append, List.flatMap_singleton, byteBits_byteOf _ hlt.le, ← List.append_assoc, hwhole]

/-! ## Encoding a list of symbols (43_bit_writer.md R131) -/

/-- The code of `sym` in `s`, empty where there is none. -/
def codeOf (s : State) (sym : Symbol) : Path := pathOfCommand (.enc sym) s

/-- Every symbol of the list has a code in `s`. -/
def AllCoded (s : State) (syms : List Symbol) : Prop := ∀ sym ∈ syms, lookupCode sym s = .ok (some (codeOf s sym))

/-- A symbol seen has a code in BUILT, and the trie maps that code to it (42_code_table.md R126). -/
theorem code_of_seen (h : Inv s) (hp : s.phase = .built) {sym : Symbol} (hseen : s.seen.getLsbD sym.toNat = true) :
    lookupCode sym s = .ok (some (codeOf s sym)) ∧ trieSymbol s.nm s.root (codeOf s sym) = some sym := by
  obtain ⟨hunseen, -⟩ | ⟨-, p, hlookup, htrie⟩ := h.lookup hp (BitVec.lt_of_getLsbD hseen)
  · simp [hseen] at hunseen
  · have hcode : codeOf s sym = p := by simp [codeOf, pathOfCommand, hlookup]
    rw [hcode]
    exact ⟨hlookup, htrie⟩

/-- Appending bits leaves the table alone. -/
theorem lookupCode_appendPath (sym : Symbol) (p : Path) (s : State) : lookupCode sym (appendPath p s) = lookupCode sym s := by
  rw [appendPath_frame]
  rfl

theorem codeOf_appendPath (p : Path) (s : State) : codeOf (appendPath p s) = codeOf s := by
  funext sym
  simp only [codeOf, pathOfCommand, lookupCode_appendPath]

/-- ENC of a list of symbols appends their codes one after the other. -/
theorem runCommands_enc {syms : List Symbol} (hp : s.phase = .built) (hf : s.fault = .none) (hfin : s.wfin = false)
    (hcoded : AllCoded s syms) : runCommands (syms.map .enc) s = .next (appendPath (syms.flatMap (codeOf s)) s) := by
  induction syms generalizing s with
  | nil => rfl
  | cons sym syms ih =>
    obtain ⟨hsym, hcoded⟩ := List.forall_mem_cons.1 hcoded
    have hwf : WellFormed (.enc sym) := by
      by_contra hill
      have herror : lookupCode sym s = .error (.noSuchSymbol sym) := if_neg fun hlt => hill (decide_eq_true hlt)
      simp [herror] at hsym
    have hrest : AllCoded (appendPath (codeOf s sym) s) syms := fun sym' hsym' => by
      rw [lookupCode_appendPath, codeOf_appendPath]
      exact hcoded sym' hsym'
    refine (runCommands_cons_iff hf hwf).2 ⟨appendPath (codeOf s sym) s, execEnc_of_code hp hfin hsym, ?_⟩
    rw [ih (by rw [appendPath_phase, hp]) (by rw [appendPath_fault, hf]) (by rw [appendPath_wfin, hfin]) hrest, codeOf_appendPath,
      List.flatMap_cons, appendPath_append]

/-- The symbols encoded for `B`: its bytes, then EOD. -/
def payloadSymbols (B : List Byte) : List Symbol := B.map (·.setWidth 9) ++ [Config.eodSym]

theorem encodeCommands_eq (B : List Byte) : encodeCommands B = (payloadSymbols B).map .enc ++ [.wfin] := by
  simp [encodeCommands, payloadSymbols]

/-- A writer with `WNB = 0` holds no bit (10_state.md R29). -/
theorem holds_nil_of_wnb (h : WriterOk s) (hnb : s.wnb = 0) : Holds [] s := by
  obtain ⟨c, hc⟩ := holds_of_writerOk h
  have ⟨hlen, hcnb, _⟩ := hc
  rw [hnb] at hcnb
  have hnil : c.length = 0 := by
    have := congrArg BitVec.toNat hcnb
    simp at this
    omega
  rwa [List.length_eq_zero_iff.1 hnil] at hc

/-- The whole encoding from a state that holds no bit: the codes, padded. -/
theorem runCommands_encodeCommands {B : List Byte} (hp : s.phase = .built) (hf : s.fault = .none) (hfin : s.wfin = false)
    (hholds : Holds [] s) (hcoded : AllCoded s (payloadSymbols B)) :
    runCommands (encodeCommands B) s = .next { s with
      wacc := 0, wnb := 0, wfin := true, wout := s.wout ++ paddedBytes ((payloadSymbols B).flatMap (codeOf s)) } := by
  rw [encodeCommands_eq]
  refine runCommands_append_iff.2 ⟨_, runCommands_enc hp hf hfin hcoded, ?_⟩
  generalize (payloadSymbols B).flatMap (codeOf s) = p
  obtain ⟨hout, hnb, hacc⟩ := flushPartial_after_path hholds p (.refl _)
  refine (runCommands_cons_iff (by rw [appendPath_fault, hf]) rfl).2
    ⟨_, execWfin_of_open (by rw [appendPath_wfin, hfin]), ?_⟩
  rw [flushPartial_frame, hout, hnb, hacc, appendPath_frame]
  rfl

/-! ## Decoding the codes of a list of symbols (44_bit_reader.md R150, R155) -/

section Decode

variable {w : Word48} {code : Symbol → Path}

/-- The trie maps the code of each symbol of the list to it. -/
def AllMapped (v : State) (code : Symbol → Path) (syms : List Symbol) : Prop :=
  ∀ sym ∈ syms, trieSymbol v.nm v.root (code sym) = some sym

theorem takeSymbol_of_ne_eod {sym : Symbol} (hr : v.rcur = v.root) (hsym : sym ≠ Config.eodSym) :
    takeSymbol sym v = { v with rout := v.rout ++ [symByte sym] } := by
  simp only [takeSymbol, if_neg hsym, emitR, setRcur, ← hr]

theorem takeSymbol_eod (hr : v.rcur = v.root) : takeSymbol Config.eodSym v = { v with rdone := true } := by
  simp only [takeSymbol, if_true, setRdone, setRcur, ← hr]

/-- The codes of symbols other than EOD are read as the symbols' bytes, and the reader is at the root again. -/
theorem readBits_symbols {syms : List Symbol} (h : OneTree v v.root) (hd : v.rdone = false) (hr : v.rcur = v.root)
    (hcode : AllMapped v code syms) (heod : ∀ sym ∈ syms, sym ≠ Config.eodSym) (rest : List Bool) :
    readBits w (syms.flatMap code ++ rest) v = readBits w rest { v with rout := v.rout ++ syms.map symByte } := by
  induction syms generalizing v with
  | nil => simp
  | cons sym syms ih =>
    obtain ⟨hsym, hcode⟩ := List.forall_mem_cons.1 hcode
    obtain ⟨hne, heod⟩ := List.forall_mem_cons.1 heod
    have hone := h.of_frame (takeSymbol_frame sym v)
    rw [takeSymbol_of_ne_eod hr hne] at hone
    rw [List.flatMap_cons, List.append_assoc, h.readBits_code w hsym hd hr, takeSymbol_of_ne_eod hr hne,
      ih hone hd hr hcode heod]
    simp

/-- The codes of symbols other than EOD, then EOD's, then anything: the symbols' bytes come out and the end is reached. -/
theorem readBits_until_eod {syms : List Symbol} (h : OneTree v v.root) (hd : v.rdone = false) (hr : v.rcur = v.root)
    (hcode : AllMapped v code (syms ++ [Config.eodSym])) (heod : ∀ sym ∈ syms, sym ≠ Config.eodSym) (rest : List Bool) :
    readBits w ((syms ++ [Config.eodSym]).flatMap code ++ rest) v =
      .ok { v with rdone := true, rout := v.rout ++ syms.map symByte } := by
  obtain ⟨hcode, hend⟩ := List.forall_mem_append.1 hcode
  have hone : OneTree { v with rout := v.rout ++ syms.map symByte } v.root := h.of_frame rfl
  have htake : takeSymbol Config.eodSym { v with rout := v.rout ++ syms.map symByte } =
      { v with rdone := true, rout := v.rout ++ syms.map symByte } := takeSymbol_eod hr
  rw [List.flatMap_append, List.flatMap_singleton, List.append_assoc, readBits_symbols h hd hr hcode heod,
    hone.readBits_code w (hend _ (List.mem_singleton_self _)) hd hr, htake, readBits_done _ _ rfl]

/-- A walk of one step or more starts at an internal node. -/
theorem inner_of_walkFrom {nm : List (Nat × Node)} {k j : NodeIdx} {p : Path} (hp : p ≠ []) (hwalk : walkFrom nm k p = some j) :
    ∃ c l r, readNode nm k = .ok (.inner c l r) := by
  obtain ⟨b, q, rfl⟩ := List.exists_cons_of_ne_nil hp
  simp only [walkFrom] at hwalk
  split at hwalk
  · next c l r hk => exact ⟨c, l, r, hk⟩
  · simp at hwalk

/-- A proper beginning of a walk moves the reader and nothing else. -/
theorem readBits_of_walk {q q' : Path} {k j : NodeIdx} (hd : v.rdone = false) (hq : q' ≠ [])
    (hwalk : walkFrom v.nm k (q ++ q') = some j) : ∃ k', readBits w q (setRcur k v) = .ok (setRcur k' v) := by
  induction q generalizing k with
  | nil => exact ⟨k, rfl⟩
  | cons b q ih =>
    obtain ⟨c, l, r, hk⟩ := inner_of_walkFrom (by simp) hwalk
    have hstep : walkFrom v.nm (if b then r else l) (q ++ q') = some j := by simpa [walkFrom, hk] using hwalk
    obtain ⟨c', l', r', hnxt⟩ := inner_of_walkFrom (by simp [hq]) hstep
    have hbit : matchBit (setRcur k v).nm (setRcur k v).rcur b = .ok (.goOn (if b then r else l)) := by
      simp [matchBit, hk, hnxt, bind, Except.bind]
    obtain ⟨k', hread⟩ := ih hstep
    exact ⟨k', by rw [readBits_of_goOn (s := setRcur k v) hd hbit]; exact hread⟩

/-- A proper beginning of a code, read from the root, comes to no end. -/
theorem readBits_code_beginning (h : OneTree v v.root) (hd : v.rdone = false) (hr : v.rcur = v.root) {q q' : Path} {sym : Symbol}
    (hq : q' ≠ []) (hcode : trieSymbol v.nm v.root (q ++ q') = some sym) :
    ∃ u, readBits w q v = .ok u ∧ u.rdone = false := by
  obtain ⟨-, hzero, -⟩ | ⟨-, -, j, c, hwalk, -⟩ := h.trie_iff.1 hcode
  · obtain ⟨rfl, -⟩ | ⟨-, rfl⟩ := List.append_eq_singleton_iff.1 hzero
    · exact ⟨v, rfl, hd⟩
    · exact absurd rfl hq
  · obtain ⟨k', hread⟩ := readBits_of_walk (w := w) hd hq hwalk
    have hset : setRcur v.root v = v := by rw [← hr]; rfl
    rw [hset] at hread
    exact ⟨setRcur k' v, hread, hd⟩

/-- A proper beginning of the codes comes to no end: EOD's code is the last, and it is not complete. -/
theorem readBits_before_eod {syms : List Symbol} {xs ys : List Bool} (h : OneTree v v.root) (hd : v.rdone = false)
    (hr : v.rcur = v.root) (hcode : AllMapped v code (syms ++ [Config.eodSym])) (heod : ∀ sym ∈ syms, sym ≠ Config.eodSym)
    (hys : ys ≠ []) (hxs : xs ++ ys = (syms ++ [Config.eodSym]).flatMap code) : ∃ u, readBits w xs v = .ok u ∧ u.rdone = false := by
  induction syms generalizing v xs with
  | nil =>
    have heq : xs ++ ys = code Config.eodSym := by simpa using hxs
    have hend := hcode Config.eodSym (by simp)
    rw [← heq] at hend
    exact readBits_code_beginning h hd hr hys hend
  | cons sym syms ih =>
    obtain ⟨hsym, hcode⟩ := List.forall_mem_cons.1 hcode
    obtain ⟨hne, heod⟩ := List.forall_mem_cons.1 heod
    rw [List.cons_append, List.flatMap_cons] at hxs
    by_cases hpre : code sym <+: xs
    · obtain ⟨zs, rfl⟩ := hpre
      rw [List.append_assoc, List.append_cancel_left_eq] at hxs
      have hone := h.of_frame (takeSymbol_frame sym v)
      rw [takeSymbol_of_ne_eod hr hne] at hone
      rw [h.readBits_code w hsym hd hr, takeSymbol_of_ne_eod hr hne]
      exact ih hone hd hr hcode heod hxs
    · obtain ⟨zs, hzs, -⟩ | ⟨zs, rfl, -⟩ := List.append_eq_append_iff.1 hxs
      · have hnil : zs ≠ [] := by
          rintro rfl
          exact hpre (by rw [hzs, List.append_nil])
        rw [hzs] at hsym
        exact readBits_code_beginning h hd hr hnil hsym
      · exact absurd (List.prefix_append _ _) hpre

end Decode

/-! ## The payload, byte by byte (44_bit_reader.md R151) -/

/-- DEC of a list of bytes reads their bits, as long as no fault comes. -/
theorem runCommands_dec {W : List Byte} {w : Word48} (hp : v.phase = .built) (hf : v.fault = .none)
    (hread : readBits w (W.flatMap byteBits) v = .ok t) (hgood : t.fault = .none) : runCommands (W.map .dec) v = .next t := by
  induction W generalizing v with
  | nil =>
    cases hread
    rfl
  | cons b W ih =>
    obtain ⟨m, hbyte, hm, hrest⟩ := readBits_append w (byteBits b) _ hf hread hgood
    obtain ⟨hframe, -⟩ := readBits_ok hbyte
    have hexec : exec (.dec b) v = .next m := by
      show execDec b v = _
      rw [execDec, if_pos hp, readBits_word w _ _ hbyte hm, outcomeOf_ok]
    have hmp : m.phase = .built := by rw [hframe, hp]
    exact (runCommands_cons_iff hf rfl).2 ⟨m, hexec, ih hmp hm hrest⟩

theorem symByte_setWidth (b : Byte) : symByte (b.setWidth 9) = b := by
  apply BitVec.eq_of_toNat_eq
  simpa [symByte] using b.isLt

theorem setWidth_ne_eod (b : Byte) : b.setWidth 9 ≠ Config.eodSym := by
  have := b.isLt
  bv_omega

section Payload

variable {B : List Byte} {code : Symbol → Path} {w : Word48}

theorem payload_ne_eod (B : List Byte) : ∀ sym ∈ B.map (·.setWidth 9), sym ≠ Config.eodSym := by
  intro sym hsym
  obtain ⟨b, -, rfl⟩ := List.mem_map.1 hsym
  exact setWidth_ne_eod b

/-- The payload of `B`, read from the root, comes out as `B` and ends. -/
theorem readBits_payload (h : OneTree v v.root) (hd : v.rdone = false) (hr : v.rcur = v.root)
    (hcode : AllMapped v code (payloadSymbols B)) (rest : List Bool) :
    readBits w ((payloadSymbols B).flatMap code ++ rest) v = .ok { v with rdone := true, rout := v.rout ++ B } := by
  have hbytes : (B.map (·.setWidth 9)).map symByte = B := by
    rw [List.map_map]
    exact List.map_id'' symByte_setWidth B
  rw [payloadSymbols, readBits_until_eod h hd hr hcode (payload_ne_eod B), hbytes]

/-- EOD's code alone makes the payload non-empty. -/
theorem payload_ne_nil (h : OneTree v v.root) (hcode : AllMapped v code (payloadSymbols B)) :
    (payloadSymbols B).flatMap code ≠ [] := by
  intro hnil
  have hmem : Config.eodSym ∈ payloadSymbols B := by simp [payloadSymbols]
  have heod := hcode _ hmem
  rw [List.flatMap_eq_nil_iff.1 hnil _ hmem] at heod
  obtain ⟨-, hzero, -⟩ | ⟨-, hne, -⟩ := h.trie_iff.1 heod
  · simp at hzero
  · exact hne rfl

/-- Without its last byte the padded payload is a proper beginning of the codes. -/
theorem dropLast_bits {l : List Bool} (hl : l ≠ []) : ∃ ys, ys ≠ [] ∧ (paddedBytes l).dropLast.flatMap byteBits ++ ys = l := by
  obtain ⟨k, hk, hbits⟩ := paddedBytes_bits l
  have hne : paddedBytes l ≠ [] := by
    intro hnil
    rw [hnil, List.flatMap_nil] at hbits
    exact hl (List.append_eq_nil_iff.1 hbits.symm).1
  rw [← List.dropLast_append_getLast hne, List.flatMap_append, List.flatMap_singleton] at hbits
  have hbyte : (byteBits ((paddedBytes l).getLast hne)).length = 8 := rfl
  obtain ⟨ys, hl, hys⟩ | ⟨ys, -, hys⟩ := List.append_eq_append_iff.1 hbits
  · refine ⟨ys, ?_, hl.symm⟩
    rintro rfl
    have hlen := congrArg List.length hys
    simp [hbyte] at hlen
    omega
  · have hlen := congrArg List.length hys
    simp [hbyte] at hlen
    omega

/-- DEC of the padded payload gives back `B` and ends; DEC of all but its last byte does not end. -/
theorem runCommands_dec_payload (h : OneTree v v.root) (hp : v.phase = .built) (hf : v.fault = .none) (hd : v.rdone = false)
    (hr : v.rcur = v.root) (hcode : AllMapped v code (payloadSymbols B)) :
    runCommands ((paddedBytes ((payloadSymbols B).flatMap code)).map .dec) v =
        .next { v with rdone := true, rout := v.rout ++ B } ∧
      ∃ u, runCommands ((paddedBytes ((payloadSymbols B).flatMap code)).dropLast.map .dec) v = .next u ∧ u.rdone = false := by
  obtain ⟨k, -, hbits⟩ := paddedBytes_bits ((payloadSymbols B).flatMap code)
  obtain ⟨ys, hys, hdrop⟩ := dropLast_bits (payload_ne_nil h hcode)
  have hread := readBits_payload (w := 0) h hd hr hcode
  refine ⟨runCommands_dec hp hf ((congrArg (readBits 0 · v) hbits).trans (hread _)) hf, ?_⟩
  obtain ⟨u, hu, hudone⟩ := readBits_before_eod (w := 0) h hd hr hcode (payload_ne_eod B) hys hdrop
  have hall := hread []
  rw [List.append_nil, ← hdrop] at hall
  obtain ⟨u', hu', hgood, -⟩ := readBits_append 0 _ _ hf hall hf
  cases hu.symm.trans hu'
  exact ⟨u, runCommands_dec hp hf hu hgood, hudone⟩

end Payload

end RoundTrip

/-! ## The obligation -/

/-- Settles O46: the encoder packs the codes of `B` and EOD (`runCommands_encodeCommands`), which the trie maps back to them, so the
reader of any state with that tree takes them off again (`runCommands_dec_payload`). -/
theorem roundTripFromABuiltState : Obligations.RoundTripFromABuiltState := by
  unfold Obligations.RoundTripFromABuiltState
  intro s B h hp hf hfin hnb heod hB
  have hcode : ∀ sym ∈ payloadSymbols B,
      lookupCode sym s = .ok (some (codeOf s sym)) ∧ trieSymbol s.nm s.root (codeOf s sym) = some sym := by
    refine List.forall_mem_append.2 ⟨List.forall_mem_map.2 fun b hb => ?_, List.forall_mem_singleton.2 ?_⟩
    · refine code_of_seen h hp ?_
      rw [BitVec.toNat_setWidth_of_le (by decide)]
      exact hB b hb
    · exact code_of_seen h hp heod
  have hholds := holds_nil_of_wnb h.writer hnb
  refine ⟨_, runCommands_encodeCommands hp hf hfin hholds fun sym hsym => (hcode sym hsym).1, ?_⟩
  intro v hv hvp hvf hnm hroot hd hr
  refine runCommands_dec_payload (hv.oneTree hvp) hvp hvf hd hr fun sym hsym => ?_
  rw [hnm, hroot]
  exact (hcode sym hsym).2

end Sys2Proof.Proofs

/-! The bit reader (44_bit_reader.md): DEC at its phase check, after the end, on a byte that begins with EOD's code and at a NoMatch
(R151 to R154), what it leaves unchanged, and a whole byte as the candidate-path decoder reads it (R155). -/

namespace Sys2Proof.Proofs

open Sys2Proof.Machine
open Sys2Proof.Safety

section BitReader

variable {s t : State} {byte : Byte} {w : Word48}

/-! ## DEC past its check and at it (44_bit_reader.md R151) -/

theorem execDec_of_load (hp : s.phase = .load) (byte : Byte) :
    execDec byte s = .next (raiseFault .badPhase (encode (.dec byte)) s) := by
  simp [execDec, hp]

theorem execDec_of_readBits (hp : s.phase = .built) (hread : readBits (encode (.dec byte)) (byteBits byte) s = .ok t) :
    execDec byte s = .next t := by
  rw [execDec, if_pos hp, hread, outcomeOf_ok]

theorem execDec_frame (h : execDec byte s = .next t) : ReaderFrame s t := by
  obtain ⟨-, rfl⟩ | ⟨-, hread⟩ := execDec_next h
  · rfl
  · exact (readBits_ok hread).1

/-! ## Two leaves or more: no bit can fail (42_code_table.md R125) -/

theorem readBits_of_two_leaves (h : Inv s) (hp : s.phase = .built) (hn : s.nleaf ≠ 1) (w : Word48) (bs : List Bool) :
    ∃ t, readBits w bs s = .ok t ∧ t.fault = s.fault ∧ t.finfo = s.finfo := by
  obtain ⟨hstanding, hdone⟩ := h.reader hp
  obtain ⟨t, hread, hframe, -, -, hfault | ⟨-, -, hone, -⟩, -⟩ := (h.oneTree hp).readBits_spec w bs hstanding hdone
  · exact ⟨t, hread, hfault⟩
  · rw [hframe] at hone
    exact absurd hone hn

/-! ## EOD's code at the root ends the byte (44_bit_reader.md R152) -/

theorem readBits_eod_code (h : OneTree s s.root) (hd : s.rdone = false) (hr : s.rcur = s.root) {p : Path}
    (hcode : trieSymbol s.nm s.root p = some Config.eodSym) (rest : List Bool) :
    readBits w (p ++ rest) s = .ok { s with rdone := true } := by
  rw [h.readBits_code w hcode hd hr, takeSymbol_eod hr, readBits_done _ _ rfl]

/-! ## One leaf: zeros match its code, a one matches nothing (44_bit_reader.md R154) -/

/-- The one node is the root, so the reader never leaves it. -/
theorem rcur_eq_root_of_one_leaf (h : Inv s) (hp : s.phase = .built) (hn : s.nleaf = 1) : s.rcur = s.root := by
  have hone := h.oneTree hp
  obtain ⟨⟨c, l, r, hinner⟩ | ⟨-, hroot⟩, -⟩ := h.reader hp
  · have hlt := hone.inner_lt hinner
    have hnnode := hone.nnode_eq
    have hroot := hone.root_eq
    have hnleaf : s.nleaf.toNat = 1 := by rw [hn]; rfl
    exact BitVec.eq_of_toNat_eq (by omega)
  · exact hroot

theorem readNode_root_of_leafSymAt (h : OneTree s s.root) {sym : Symbol} (hsym : leafSymAt s.nm s.root.toNat = some sym) :
    ∃ c, readNode s.nm s.root = .ok (.leaf sym c) := by
  obtain ⟨-, hbound, -⟩ := h.tree.bounds
  unfold leafSymAt at hsym
  split at hsym
  · next sym' c hget =>
    cases hsym
    exact ⟨c, readNode_of_get (h.root_lt.trans_le hbound) hget⟩
  · simp at hsym

/-- The one code is "0" (42_code_table.md R121). -/
theorem trieSymbol_of_one_leaf (h : OneTree s s.root) (hn : s.nleaf = 1) {sym : Symbol}
    (hsym : leafSymAt s.nm s.root.toNat = some sym) : trieSymbol s.nm s.root [false] = some sym :=
  h.trie_iff.2 (Or.inl ⟨hn, rfl, readNode_root_of_leafSymAt h hsym⟩)

/-- Zeros are read as so many copies of the leaf's symbol, each by its code "0". -/
theorem readBits_zeros (h : Inv s) (hp : s.phase = .built) (hn : s.nleaf = 1) (hd : s.rdone = false) {sym : Symbol} {k : Nat}
    (hsym : leafSymAt s.nm s.root.toNat = some sym) (heod : sym ≠ Config.eodSym ∨ k = 0) (rest : List Bool) :
    readBits w (List.replicate k false ++ rest) s =
      readBits w rest { s with rout := s.rout ++ List.replicate k (symByte sym) } := by
  have hone := h.oneTree hp
  have hcode : AllMapped s (fun _ => [false]) (List.replicate k sym) := fun sym' hmem => by
    rw [List.eq_of_mem_replicate hmem]
    exact trieSymbol_of_one_leaf hone hn hsym
  have hne : ∀ sym' ∈ List.replicate k sym, sym' ≠ Config.eodSym := fun sym' hmem => by
    obtain ⟨hk, rfl⟩ := List.mem_replicate.1 hmem
    exact heod.resolve_right hk
  have hread := readBits_symbols (w := w) hone hd (rcur_eq_root_of_one_leaf h hp hn) hcode hne rest
  rwa [List.flatMap_replicate, List.flatten_replicate_singleton, List.map_replicate] at hread

/-- Zeros, then a one: NoMatch there, with the zeros' symbols emitted and the rest of the bits not looked at. -/
theorem readBits_noMatch (h : Inv s) (hp : s.phase = .built) (hn : s.nleaf = 1) (hd : s.rdone = false) {sym : Symbol} {k : Nat}
    (hsym : leafSymAt s.nm s.root.toNat = some sym) (heod : sym ≠ Config.eodSym ∨ k = 0) (rest : List Bool) :
    readBits w (List.replicate k false ++ true :: rest) s =
      .ok (raiseFault .noMatch w { s with rout := s.rout ++ List.replicate k (symByte sym) }) := by
  obtain ⟨c, hleaf⟩ := readNode_root_of_leafSymAt (h.oneTree hp) hsym
  have hbit : matchBit s.nm s.rcur true = .ok .noCode := by
    rw [rcur_eq_root_of_one_leaf h hp hn]
    simp [matchBit, hleaf, bind, Except.bind]
  rw [readBits_zeros h hp hn hd hsym heod]
  exact readBits_of_noCode hd hbit

/-! ## The bytes that come to no NoMatch -/

/-- On one leaf the bits of such a byte are not looked at, or begin with EOD's code "0", or are all zeros. -/
theorem readBits_without_noMatch (h : Inv s) (hp : s.phase = .built)
    (hbyte : s.nleaf ≠ 1 ∨ s.rdone = true ∨ byte = 0 ∨ (leafSymAt s.nm s.root.toNat = some 256 ∧ byte.getLsbD 7 = false)) :
    ∃ t, readBits w (byteBits byte) s = .ok t ∧ t.fault = s.fault ∧ t.finfo = s.finfo := by
  by_cases hn : s.nleaf = 1
  · have hone := h.oneTree hp
    cases hd : s.rdone with
    | true => exact ⟨s, readBits_done w _ hd, rfl, rfl⟩
    | false =>
      have hr := rcur_eq_root_of_one_leaf h hp hn
      have hbyte : byte = 0 ∨ (leafSymAt s.nm s.root.toNat = some 256 ∧ byte.getLsbD 7 = false) := by
        simpa [hn, hd] using hbyte
      by_cases heod : leafSymAt s.nm s.root.toNat = some Config.eodSym
      · have hbits : byteBits byte = [false] ++ (byteBits byte).tail := by
          obtain rfl | ⟨-, hbit⟩ := hbyte
          · decide
          · rw [byteBits, hbit]
            rfl
        rw [hbits]
        exact ⟨_, readBits_eod_code hone hd hr (trieSymbol_of_one_leaf hone hn heod) _, rfl, rfl⟩
      · obtain rfl : byte = 0 := hbyte.resolve_right fun ⟨hleaf, _⟩ => heod hleaf
        obtain ⟨sym, c, hleaf⟩ := hone.root_leaf hn
        obtain ⟨-, hget⟩ := readNode_ok_iff.1 hleaf
        have hsym : leafSymAt s.nm s.root.toNat = some sym := by simp [leafSymAt, hget]
        have hne : sym ≠ Config.eodSym := fun hc => heod (hc ▸ hsym)
        have hbits : byteBits 0 = List.replicate 8 false ++ [] := by decide
        rw [hbits, readBits_zeros h hp hn hd hsym (Or.inl hne)]
        exact ⟨_, rfl, rfl, rfl⟩
  · exact readBits_of_two_leaves h hp hn w _

end BitReader

/-! ## The obligations -/

/-- Settles O39: the byte is read without a fault (`readBits_without_noMatch`), so the reader mirrors the candidate-path decoder. -/
theorem decDecodesTheByte : Obligations.DecDecodesTheByte := by
  unfold Obligations.DecDecodesTheByte
  intro s byte cand h hp hf hbyte hwalk
  obtain ⟨t, hread, hfault, hfinfo⟩ := readBits_without_noMatch (w := encode (.dec byte)) h hp hbyte
  obtain ⟨hframe, -⟩ := readBits_ok hread
  have hmirrors : Mirrors s.rout s ⟨cand, [], s.rdone⟩ := ⟨(List.append_nil _).symm, rfl, hwalk⟩
  obtain ⟨hout, hdone, hcand⟩ := readBits_mirrors h hp hmirrors hread (hfault.trans hf)
  unfold ReaderFrame at hframe
  rw [hfault, hfinfo] at hframe
  exact ⟨t, execDec_of_readBits hp hread, hout, hdone, hcand, hframe⟩

/-- Settles O43: the code of EOD is the trie's path to it, and it is read as the end. -/
theorem eodTerminatesDecoding : Obligations.EodTerminatesDecoding := by
  unfold Obligations.EodTerminatesDecoding
  intro s byte p rest h hp hd hr hlookup hbits
  obtain ⟨-, hcode⟩ := (lookupCode_eq_some_iff h hp).1 hlookup
  refine execDec_of_readBits hp ?_
  rw [hbits, readBits_eod_code (h.oneTree hp) hd hr hcode]

/-- Settles O44: on one leaf `readBits_noMatch`, on more no bit fails. -/
theorem noMatchIsPrecise : Obligations.NoMatchIsPrecise := by
  unfold Obligations.NoMatchIsPrecise
  intro s byte h hp
  constructor
  · intro sym c k rest hn hd hget hbits heod
    have hsym : leafSymAt s.nm s.root.toNat = some sym := by simp [leafSymAt, hget]
    have hread := readBits_noMatch (w := encode (.dec byte)) h hp hn hd hsym heod rest
    rw [← hbits] at hread
    refine (execDec_of_readBits hp hread).trans ?_
    rw [← rcur_eq_root_of_one_leaf h hp hn, ← hd, BitVec.setWidth_eq_extractLsb' (by decide)]
    rfl
  · intro hn t hexec
    obtain ⟨u, hread, hfault⟩ := readBits_of_two_leaves h hp hn (encode (.dec byte)) (byteBits byte)
    cases (execDec_of_readBits hp hread).symm.trans hexec
    exact hfault

/-- Settles O45: DEC changes at most what the reader's frame names. -/
theorem decFrame : Obligations.DecFrame := by
  unfold Obligations.DecFrame
  intro s t byte h
  rw [execDec_frame h]
  exact ⟨rfl, rfl, rfl, rfl, rfl, rfl, rfl, rfl, rfl, rfl, rfl, rfl, rfl⟩

/-- Settles O41: the phase check comes before any bit. -/
theorem decChecksThePhase : Obligations.DecChecksThePhase := by
  unfold Obligations.DecChecksThePhase
  exact fun s byte hp => execDec_of_load hp byte

/-- Settles O42: past the phase check, a reader at its end looks at no bit. -/
theorem decAfterTheEndDoesNothing : Obligations.DecAfterTheEndDoesNothing := by
  unfold Obligations.DecAfterTheEndDoesNothing
  exact fun s byte hp hd => execDec_of_readBits hp (readBits_done _ _ hd)

end Sys2Proof.Proofs

/-! The faults (60_exceptions.md): which fault each command records and when (R171, R172), in the order of its checks (R173), what a
fault leaves of the state (R175), the faulted block (R176) and the idle one (R184). -/

namespace Sys2Proof.Proofs

open Sys2Proof.Machine
open Sys2Proof.Safety

section Faults

variable {s t : State}

/-! ## Every fault before any effect, NoMatch at its bit (60_exceptions.md R174, R175) -/

/-- `t` is `s` with a fault other than NoMatch recorded for the word `w`. -/
def FaultsBeforeEffect (w : Word48) (s t : State) : Prop := ∃ code, code ≠ .noMatch ∧ t = raiseFault code w s

/-- `t` is a state the reader has come to from `s` at a NoMatch of the word `w` (44_bit_reader.md R154). -/
def StopsAtNoMatch (w : Word48) (s t : State) : Prop := ReaderFrame s t ∧ t.fault = .noMatch ∧ t.finfo = w ∧ t.rdone = false

theorem execPush_precise {sym : Symbol} {count : Count32} (h : execPush sym count s = .next t) (hf : s.fault = .none) :
    t.fault = .none ∨ FaultsBeforeEffect (encode (.push sym count)) s t := by
  obtain ⟨-, rfl⟩ | ⟨-, -, -, rfl⟩ | ⟨-, -, -, hpush⟩ := execPush_next h
  · exact Or.inr ⟨.badPhase, by simp, rfl⟩
  · exact Or.inr ⟨.duplicateSymbol, by simp, rfl⟩
  · rw [pushLeaf_frame hpush]
    exact Or.inl hf

theorem execBuild_precise (h : execBuild s = .next t) (hf : s.fault = .none) :
    t.fault = .none ∨ FaultsBeforeEffect (encode .build) s t := by
  obtain ⟨-, rfl⟩ | ⟨-, -, rfl⟩ | ⟨-, -, hbuild⟩ := execBuild_next h
  · exact Or.inr ⟨.badPhase, by simp, rfl⟩
  · exact Or.inr ⟨.invalidInput, by simp, rfl⟩
  · obtain ⟨hframe, -⟩ := buildTree_ok hbuild
    rw [hframe]
    exact Or.inl hf

theorem execEnc_precise {sym : Symbol} (h : execEnc sym s = .next t) (hf : s.fault = .none) :
    t.fault = .none ∨ FaultsBeforeEffect (encode (.enc sym)) s t := by
  obtain ⟨-, rfl⟩ | ⟨-, -, rfl⟩ | ⟨-, -, -, rfl⟩ | ⟨-, -, p, -, rfl⟩ := execEnc_next h
  · exact Or.inr ⟨.badPhase, by simp, rfl⟩
  · exact Or.inr ⟨.writeAfterFinal, by simp, rfl⟩
  · exact Or.inr ⟨.symbolNotCoded, by simp, rfl⟩
  · exact Or.inl ((appendPath_fault p s).trans hf)

theorem execWbits_precise {len : BitVec 9} {bits : BitVec 32} (h : execWbits len bits s = .next t) (hf : s.fault = .none) :
    t.fault = .none ∨ FaultsBeforeEffect (encode (.wbits len bits)) s t := by
  obtain ⟨-, rfl⟩ | ⟨-, p, -, rfl⟩ := execWbits_next h
  · exact Or.inr ⟨.writeAfterFinal, by simp, rfl⟩
  · exact Or.inl ((appendPath_fault p s).trans hf)

theorem execWfin_precise (h : execWfin s = .next t) (hf : s.fault = .none) :
    t.fault = .none ∨ FaultsBeforeEffect (encode .wfin) s t := by
  obtain ⟨-, rfl⟩ | ⟨-, rfl⟩ := execWfin_next h
  · exact Or.inr ⟨.writeAfterFinal, by simp, rfl⟩
  · exact Or.inl ((flushPartial_fault s).trans hf)

theorem execDec_precise {byte : Byte} (h : execDec byte s = .next t) (hf : s.fault = .none) :
    t.fault = .none ∨ FaultsBeforeEffect (encode (.dec byte)) s t ∨ StopsAtNoMatch (encode (.dec byte)) s t := by
  obtain ⟨-, rfl⟩ | ⟨-, hread⟩ := execDec_next h
  · exact Or.inr (Or.inl ⟨.badPhase, by simp, rfl⟩)
  · obtain ⟨hframe, -, ⟨hfault, -⟩ | hnoMatch, -⟩ := readBits_ok hread
    · exact Or.inl (hfault.trans hf)
    · exact Or.inr (Or.inr ⟨hframe, hnoMatch⟩)

/-- Every way a command can leave the unfaulted state. -/
theorem exec_precise {i : Instr} (h : exec i s = .next t) (hf : s.fault = .none) :
    t.fault = .none ∨ FaultsBeforeEffect (encode i) s t ∨ StopsAtNoMatch (encode i) s t := by
  cases i with
  | nop => cases h; exact Or.inl hf
  | clear => cases h; exact Or.inl rfl
  | push sym count => exact (execPush_precise h hf).imp_right .inl
  | build => exact (execBuild_precise h hf).imp_right .inl
  | enc sym => exact (execEnc_precise h hf).imp_right .inl
  | wbits len bits => exact (execWbits_precise h hf).imp_right .inl
  | wfin => exact (execWfin_precise h hf).imp_right .inl
  | dec byte => exact execDec_precise h hf

/-- `FINFO` is the word of the command that faulted (60_exceptions.md R174). -/
theorem finfo_of_exec {i : Instr} (h : exec i s = .next t) (hf : s.fault = .none) (ht : t.fault ≠ .none) : t.finfo = encode i := by
  obtain hgood | ⟨code, -, rfl⟩ | ⟨-, -, hfinfo, -⟩ := exec_precise h hf
  · exact absurd hgood ht
  · rfl
  · exact hfinfo

/-! ## The bytes that meet a NoMatch (44_bit_reader.md R152, R154) -/

/-- In BUILT the bits of `byte` come to a 1 at the leaf root before an end: the tree has one leaf, and a bit is set that is not behind
EOD's code "0". -/
abbrev MeetsNoMatch (byte : Byte) (s : State) : Prop :=
  s.nleaf = 1 ∧ s.rdone = false ∧
    ∃ sym ∈ leafSymAt s.nm s.root.toNat, if sym = 256 then byte.getLsbD 7 = true else byte ≠ 0

theorem zeros_then_one {l : List Bool} (h : true ∈ l) : ∃ k rest, l = List.replicate k false ++ true :: rest := by
  induction l with
  | nil => simp at h
  | cons b l ih =>
    cases b with
    | true => exact ⟨0, l, rfl⟩
    | false =>
      obtain ⟨k, rest, rfl⟩ := ih (by simpa using h)
      exact ⟨k + 1, rest, rfl⟩

theorem true_mem_byteBits {byte : Byte} (h : byte ≠ 0) : true ∈ byteBits byte := by
  have hbits : byteBits byte = (List.range 8).map fun j => byte.getLsbD (7 - j) := rfl
  by_contra hzero
  rw [hbits, List.mem_map] at hzero
  refine h (byte_ext fun i hi => ?_)
  have hbit : ¬ byte.getLsbD i = true := fun hone =>
    hzero ⟨7 - i, List.mem_range.2 (by omega), by rw [Nat.sub_sub_self (by omega), hone]⟩
  simpa using hbit

/-- Such a byte is zeros and then a one; on the leaf of EOD the one comes first. -/
theorem byteBits_of_meetsNoMatch {byte : Byte} {sym : Symbol} (h : if sym = 256 then byte.getLsbD 7 = true else byte ≠ 0) :
    ∃ k rest, byteBits byte = List.replicate k false ++ true :: rest ∧ (sym ≠ Config.eodSym ∨ k = 0) := by
  split at h
  · exact ⟨0, (byteBits byte).tail, by simp [byteBits, h], Or.inr rfl⟩
  · next hsym =>
    obtain ⟨k, rest, hbits⟩ := zeros_then_one (true_mem_byteBits h)
    exact ⟨k, rest, hbits, Or.inl hsym⟩

theorem leafSymAt_root_of_one_leaf (h : OneTree s s.root) (hn : s.nleaf = 1) : ∃ sym, leafSymAt s.nm s.root.toNat = some sym := by
  obtain ⟨sym, c, hleaf⟩ := h.root_leaf hn
  obtain ⟨-, hget⟩ := readNode_ok_iff.1 hleaf
  exact ⟨sym, by simp [leafSymAt, hget]⟩

/-- A byte that does not meet a NoMatch is one of those of `readBits_without_noMatch`. -/
theorem cases_of_not_meetsNoMatch (h : Inv s) (hp : s.phase = .built) {byte : Byte} (hbyte : ¬ MeetsNoMatch byte s) :
    s.nleaf ≠ 1 ∨ s.rdone = true ∨ byte = 0 ∨ (leafSymAt s.nm s.root.toNat = some 256 ∧ byte.getLsbD 7 = false) := by
  by_contra hcases
  simp only [not_or, not_not, Bool.not_eq_true, not_and, Bool.not_eq_false] at hcases
  obtain ⟨hn, hd, hzero, heod⟩ := hcases
  obtain ⟨sym, hsym⟩ := leafSymAt_root_of_one_leaf (h.oneTree hp) hn
  refine hbyte ⟨hn, hd, sym, hsym, ?_⟩
  split
  · next hsym256 => exact heod (hsym256 ▸ hsym)
  · exact hzero

theorem execDec_noMatch_iff (h : Inv s) (hp : s.phase = .built) (hf : s.fault = .none) {byte : Byte}
    (hexec : execDec byte s = .next t) : t.fault = .noMatch ↔ MeetsNoMatch byte s := by
  constructor
  · intro ht
    by_contra hbyte
    obtain ⟨u, hread, hfault, -⟩ := readBits_without_noMatch (w := encode (.dec byte)) h hp (cases_of_not_meetsNoMatch h hp hbyte)
    cases (execDec_of_readBits hp hread).symm.trans hexec
    simp [hfault, hf] at ht
  · rintro ⟨hn, hd, sym, hsym, hbits⟩
    obtain ⟨k, rest, hbits, heod⟩ := byteBits_of_meetsNoMatch hbits
    have hread := readBits_noMatch (w := encode (.dec byte)) h hp hn hd hsym heod rest
    rw [← hbits] at hread
    cases (execDec_of_readBits hp hread).symm.trans hexec
    rfl

/-! ## The fault each command records (60_exceptions.md R171 to R173) -/

/-- The first of the command's checks, in the order of R173, that fails in `s`. -/
def firstFault : Instr → State → FaultCode
  | .nop, _ => .none
  | .clear, _ => .none
  | .push sym _, s =>
    if s.phase = .built then .badPhase else if s.seen.getLsbD sym.toNat = true then .duplicateSymbol else .none
  | .build, s => if s.phase = .built then .badPhase else if s.nleaf = 0 then .invalidInput else .none
  | .enc sym, s =>
    if s.phase = .load then .badPhase
    else if s.wfin = true then .writeAfterFinal
    else if codeValid sym s = false then .symbolNotCoded
    else .none
  | .wbits _ _, s => if s.wfin = true then .writeAfterFinal else .none
  | .wfin, s => if s.wfin = true then .writeAfterFinal else .none
  | .dec byte, s => if s.phase = .load then .badPhase else if MeetsNoMatch byte s then .noMatch else .none

theorem codeValid_of_lookupCode {sym : Symbol} {o : Option Path} (h : lookupCode sym s = .ok o) : codeValid sym s = o.isSome := by
  unfold lookupCode at h
  unfold codeValid
  split at h
  · split at h
    · next hget => cases h; simp [hget]
    · next e hget =>
      split at h
      · cases h; simp [hget]
      · cases h
  · cases h

theorem execPush_fault {sym : Symbol} {count : Count32} (h : execPush sym count s = .next t) (hf : s.fault = .none) :
    t.fault = firstFault (.push sym count) s := by
  obtain ⟨hp, rfl⟩ | ⟨hp, -, hseen, rfl⟩ | ⟨hp, -, hseen, hpush⟩ := execPush_next h
  · simp [firstFault, hp]
  · simp [firstFault, hp, hseen]
  · rw [pushLeaf_frame hpush]
    simp [firstFault, hp, hseen, hf]

theorem execBuild_fault (h : execBuild s = .next t) (hf : s.fault = .none) : t.fault = firstFault .build s := by
  obtain ⟨hp, rfl⟩ | ⟨hp, hn, rfl⟩ | ⟨hp, hn, hbuild⟩ := execBuild_next h
  · simp [firstFault, hp]
  · simp [firstFault, hp, hn]
  · obtain ⟨hframe, -⟩ := buildTree_ok hbuild
    rw [firstFault, if_neg (by simp [hp]), if_neg hn, hframe]
    exact hf

theorem execEnc_fault {sym : Symbol} (h : execEnc sym s = .next t) (hf : s.fault = .none) :
    t.fault = firstFault (.enc sym) s := by
  obtain ⟨hp, rfl⟩ | ⟨hp, hfin, rfl⟩ | ⟨hp, hfin, hcode, rfl⟩ | ⟨hp, hfin, p, hcode, rfl⟩ := execEnc_next h
  · simp [firstFault, hp]
  · simp [firstFault, hp, hfin]
  · simp [firstFault, hp, hfin, codeValid_of_lookupCode hcode]
  · simp [firstFault, hp, hfin, codeValid_of_lookupCode hcode, appendPath_fault, hf]

theorem execWbits_fault {len : BitVec 9} {bits : BitVec 32} (h : execWbits len bits s = .next t) (hf : s.fault = .none) :
    t.fault = firstFault (.wbits len bits) s := by
  obtain ⟨hfin, rfl⟩ | ⟨hfin, p, -, rfl⟩ := execWbits_next h
  · simp [firstFault, hfin]
  · simp [firstFault, hfin, appendPath_fault, hf]

theorem execWfin_fault (h : execWfin s = .next t) (hf : s.fault = .none) : t.fault = firstFault .wfin s := by
  obtain ⟨hfin, rfl⟩ | ⟨hfin, rfl⟩ := execWfin_next h
  · simp [firstFault, hfin]
  · simp [firstFault, hfin, flushPartial_fault, hf]

theorem execDec_fault (hinv : Inv s) {byte : Byte} (h : execDec byte s = .next t) (hf : s.fault = .none) :
    t.fault = firstFault (.dec byte) s := by
  obtain ⟨hp, rfl⟩ | ⟨hp, hread⟩ := execDec_next h
  · simp [firstFault, hp]
  · rw [firstFault, if_neg (by simp [hp])]
    by_cases hbyte : MeetsNoMatch byte s
    · rw [if_pos hbyte]
      exact (execDec_noMatch_iff hinv hp hf h).2 hbyte
    · rw [if_neg hbyte]
      obtain ⟨-, -, ⟨hfault, -⟩ | ⟨hfault, -⟩, -⟩ := readBits_ok hread
      · exact hfault.trans hf
      · exact absurd ((execDec_noMatch_iff hinv hp hf h).1 hfault) hbyte

/-- A command records the first fault its checks come to, and none if they pass. -/
theorem exec_fault (hinv : Inv s) {i : Instr} (h : exec i s = .next t) (hf : s.fault = .none) : t.fault = firstFault i s := by
  cases i with
  | nop => cases h; exact hf
  | clear => cases h; rfl
  | push sym count => exact execPush_fault h hf
  | build => exact execBuild_fault h hf
  | enc sym => exact execEnc_fault h hf
  | wbits len bits => exact execWbits_fault h hf
  | wfin => exact execWfin_fault h hf
  | dec byte => exact execDec_fault hinv h hf

/-! ## The condition of each fault (60_exceptions.md R171) -/

theorem phase_ne_built_iff : s.phase ≠ .built ↔ s.phase = .load := by cases s.phase <;> simp

theorem phase_ne_load_iff : s.phase ≠ .load ↔ s.phase = .built := by cases s.phase <;> simp

section Conditions

variable {i : Instr}

theorem firstFault_invalidInput_iff :
    firstFault i s = .invalidInput ↔ i = .build ∧ s.phase = .load ∧ s.nleaf = 0 := by
  cases i with
  | build => simp [firstFault, ite_eq_iff, phase_ne_built_iff]
  | _ => simp [firstFault, ite_eq_iff]

theorem firstFault_duplicateSymbol_iff :
    firstFault i s = .duplicateSymbol ↔
      ∃ sym count, i = .push sym count ∧ s.phase = .load ∧ s.seen.getLsbD sym.toNat = true := by
  cases i with
  | push sym count => simp [firstFault, ite_eq_iff, phase_ne_built_iff]
  | _ => simp [firstFault, ite_eq_iff]

theorem firstFault_symbolNotCoded_iff :
    firstFault i s = .symbolNotCoded ↔ ∃ sym, i = .enc sym ∧ s.phase = .built ∧ s.wfin = false ∧ codeValid sym s = false := by
  cases i with
  | enc sym => simp [firstFault, ite_eq_iff, phase_ne_load_iff]
  | _ => simp [firstFault, ite_eq_iff]

theorem firstFault_writeAfterFinal_iff :
    firstFault i s = .writeAfterFinal ↔ s.wfin = true ∧
      ((∃ sym, i = .enc sym ∧ s.phase = .built) ∨ (∃ len bits, i = .wbits len bits) ∨ i = .wfin) := by
  cases i with
  | enc sym => simp [firstFault, ite_eq_iff, phase_ne_load_iff, and_comm]
  | _ => simp [firstFault, ite_eq_iff]

theorem firstFault_noMatch_iff :
    firstFault i s = .noMatch ↔ ∃ byte, i = .dec byte ∧ s.phase = .built ∧ MeetsNoMatch byte s := by
  cases i with
  | dec byte => simp [firstFault, ite_eq_iff, phase_ne_load_iff, MeetsNoMatch]
  | _ => simp [firstFault, ite_eq_iff]

theorem firstFault_ne_illegalCommand : firstFault i s ≠ .illegalCommand := by
  cases i <;> simp [firstFault, ite_eq_iff]

end Conditions

end Faults

/-! ## The obligations -/

/-- Settles O49: the fault recorded is the first of the command's checks that fails (`exec_fault`). -/
theorem faultConditions : Obligations.FaultConditions := by
  unfold Obligations.FaultConditions
  intro i s t hinv _ h hf
  refine ⟨?_, exec_badPhase_iff h hf, ?_, ?_, ?_, ?_, ?_, finfo_of_exec h hf⟩
  all_goals rw [exec_fault hinv h hf]
  · exact firstFault_invalidInput_iff
  · exact firstFault_duplicateSymbol_iff
  · exact firstFault_symbolNotCoded_iff
  · exact firstFault_writeAfterFinal_iff
  · simp [firstFault_noMatch_iff, MeetsNoMatch]
  · exact firstFault_ne_illegalCommand

/-- Settles O50: every way out of the unfaulted state (`exec_precise`) is one of the two that R175 tells apart. -/
theorem faultsArePrecise : Obligations.FaultsArePrecise := by
  unfold Obligations.FaultsArePrecise
  intro i s t h hf ht
  obtain hgood | ⟨code, hcode, rfl⟩ | ⟨hframe, hfault, hfinfo, hdone⟩ := exec_precise h hf
  · exact absurd hgood ht
  · exact ⟨fun _ => rfl, fun hnoMatch => absurd hnoMatch hcode⟩
  · unfold ReaderFrame at hframe
    rw [hfault, hfinfo] at hframe
    exact ⟨fun hne => absurd hfault hne, fun _ => ⟨hframe, hdone⟩⟩

/-- Settles O11: while faulted, CLEAR's word is `accept_clear` and every other word `accept_of_faulted`. -/
theorem faultedBlockDiscardsAllButClear : Obligations.FaultedBlockDiscardsAllButClear := by
  unfold Obligations.FaultedBlockDiscardsAllButClear
  intro s w hf
  split
  · next hw => rw [hw, accept_clear]; rfl
  · next hw => exact accept_of_faulted hf hw

/-- Settles O13: without an event of the host there is nothing to serve. -/
theorem idleBlockHoldsItsState : Obligations.IdleBlockHoldsItsState := by
  unfold Obligations.IdleBlockHoldsItsState
  intro s hport
  simp only [step, serveHost, hport]

end Sys2Proof.Proofs

/-! Whole runs from any state (70_reset_and_hazards.md): what reset and CLEAR give (R200, R201), the PUSHes and the BUILD that start a
run (R203, R204), and the round trip through the tree they build (44_bit_reader.md R157). -/

namespace Sys2Proof.Proofs

open Sys2Proof.Machine
open Sys2Proof.Safety

section WholeRuns

variable {s t : State}

/-! ## The invariant at the start of a run (10_state.md R39) -/

/-- No node is written, so there is none to be wrong. -/
theorem treeOk_reset : TreeOk State.reset where
  bounds := by simp [Bounds]
  seenCounted := by simp [SeenCounted, seenCount]
  leaves := by simp [LeavesOk]
  nodes := by simp [NodesOk]
  queue := by simp [QueueOk]
  forest := by simp [ForestOk, childList]
  counts := by simp [CountsOk, leafTotal]
  nmWf := storeWf_nil _

theorem inv_reset : Inv State.reset where
  tree := treeOk_reset
  loadPhase := by simp [LoadOk]
  builtPhase := by simp [BuiltOk]
  codes := by simp [CodesOk]
  writer := by simp [WriterOk]
  reader := by simp [ReaderOk]
  faultInfo := by simp [FaultOk]
  ctWf := storeWf_nil _

/-! ## The PUSHes of a table (41_tree_builder.md R102) -/

/-- `t` is `s` but for what a PUSH that raises no fault writes. -/
def LoadFrame (s t : State) : Prop := t = { s with nleaf := t.nleaf, nnode := t.nnode, seen := t.seen, nm := t.nm, pq := t.pq }

theorem LoadFrame.trans {u : State} (h : LoadFrame s t) (h' : LoadFrame t u) : LoadFrame s u := by
  unfold LoadFrame at *
  rw [h', h]

/-- PUSH of an unseen symbol keeps the invariant and marks that symbol. -/
theorem execPush_spec (h : Inv s) (hp : s.phase = .load) {sym : Symbol} (count : Count32) (hsym : sym.toNat ≤ 256)
    (hunseen : s.seen.getLsbD sym.toNat = false) :
    ∃ t, execPush sym count s = .next t ∧ Inv t ∧ LoadFrame s t ∧
      ∀ i < 257, t.seen.getLsbD i = (s.seen.getLsbD i || decide (i = sym.toNat)) := by
  obtain ⟨hnodes, -⟩ := h.loadPhase hp
  have hlt : sym.toNat < 257 := Nat.lt_succ_of_le hsym
  obtain ⟨l1, l2, -, hpush, -⟩ := pushLeaf_spec h.tree hnodes count hlt hunseen
  refine ⟨_, ?_, h.pushLeaf hp hlt hunseen hpush, pushLeaf_frame hpush, fun i hi => getLsbD_setSeen _ _ _ hi⟩
  rw [execPush_of_unseen count hp hsym hunseen, hpush, outcomeOf_ok]

/-- The PUSH commands of a table of `(sym, count)` pairs. -/
def pushCommands (pairs : List (Symbol × Count32)) : List Instr := pairs.map fun e => .push e.1 e.2

/-- The PUSHes of distinct unseen symbols raise no fault, and afterwards those symbols are seen, and all that were. -/
theorem runCommands_pushCommands {pairs : List (Symbol × Count32)} (h : Inv s) (hp : s.phase = .load) (hf : s.fault = .none)
    (hlegal : ∀ e ∈ pairs, e.1.toNat ≤ 256) (hnodup : (pairs.map Prod.fst).Nodup)
    (hunseen : ∀ e ∈ pairs, s.seen.getLsbD e.1.toNat = false) :
    ∃ t, runCommands (pushCommands pairs) s = .next t ∧ Inv t ∧ LoadFrame s t ∧
      (∀ i < 257, s.seen.getLsbD i = true → t.seen.getLsbD i = true) ∧
      ∀ sym ∈ pairs.map Prod.fst, t.seen.getLsbD sym.toNat = true := by
  induction pairs generalizing s with
  | nil => exact ⟨s, rfl, h, rfl, fun _ _ hi => hi, by simp⟩
  | cons e pairs ih =>
    obtain ⟨hsym, hlegal⟩ := List.forall_mem_cons.1 hlegal
    obtain ⟨hnew, hunseen⟩ := List.forall_mem_cons.1 hunseen
    obtain ⟨hfresh, hnodup⟩ := List.nodup_cons.1 hnodup
    obtain ⟨u, hpush, hu, hframe, hseen⟩ := execPush_spec h hp e.2 hsym hnew
    have hstill : ∀ e' ∈ pairs, u.seen.getLsbD e'.1.toNat = false := fun e' he' => by
      have hne : e'.1.toNat ≠ e.1.toNat := fun heq =>
        hfresh (BitVec.eq_of_toNat_eq heq ▸ List.mem_map_of_mem he')
      rw [hseen _ (Nat.lt_succ_of_le (hlegal e' he')), hunseen e' he', decide_eq_false hne]
      rfl
    obtain ⟨t, hrun, ht, hframe', hkept, hpushed⟩ :=
      ih hu (by rw [hframe, hp]) (by rw [hframe, hf]) hlegal hnodup hstill
    refine ⟨t, (runCommands_cons_iff hf (wellFormed_push_iff.2 hsym)).2 ⟨u, hpush, hrun⟩, ht, hframe.trans hframe',
      fun i hi hs => hkept i hi (by rw [hseen i hi, hs]; rfl), List.forall_mem_cons.2 ⟨?_, hpushed⟩⟩
    have hlt : e.1.toNat < 257 := Nat.lt_succ_of_le hsym
    exact hkept _ hlt (by rw [hseen _ hlt]; simp)

/-! ## The built state a run starts from (70_reset_and_hazards.md R203, R204) -/

/-- `s` is as BUILD leaves it after a CLEAR and the PUSHes of `syms`: the writer holds no bit, the reader is at the root. -/
structure ReadyToCode (syms : List Symbol) (s : State) : Prop where
  inv : Inv s
  phase : s.phase = .built
  good : s.fault = .none
  notFinal : s.wfin = false
  noBits : s.wnb = 0
  notDone : s.rdone = false
  atRoot : s.rcur = s.root
  seen : ∀ sym ∈ syms, s.seen.getLsbD sym.toNat = true

/-- Neither the streams nor the host's events tell whether a state is ready. -/
theorem ReadyToCode.past {syms : List Symbol} (h : ReadyToCode syms s) (x y : List Byte) (g : List HostEvent → List HostEvent) :
    ReadyToCode syms (withPast x y id g s) :=
  ⟨h.inv.streams _ _ _, h.phase, h.good, h.notFinal, h.noBits, h.notDone, h.atRoot, h.seen⟩

/-- The PUSHes of a table with a symbol in it and BUILD, from the reset state. -/
theorem runCommands_table_reset {pairs : List (Symbol × Count32)} {sym : Symbol} (hlegal : ∀ e ∈ pairs, e.1.toNat ≤ 256)
    (hnodup : (pairs.map Prod.fst).Nodup) (hsym : sym ∈ pairs.map Prod.fst) :
    ∃ b, runCommands (pushCommands pairs ++ [.build]) State.reset = .next b ∧ ReadyToCode (pairs.map Prod.fst) b ∧
      b.wout = [] ∧ b.rout = [] := by
  obtain ⟨m, hpushes, hm, hload, -, hseen⟩ :=
    runCommands_pushCommands inv_reset State.reset_phase State.reset_fault hlegal hnodup (by simp)
  have hphase : m.phase = .load := by rw [hload]; rfl
  have hgood : m.fault = .none := by rw [hload]; rfl
  have hleaf : m.nleaf ≠ 0 := fun hzero => by
    obtain ⟨j, hj, -⟩ := hm.tree.seen_on_leaf (BitVec.lt_of_getLsbD (hseen sym hsym)) (hseen sym hsym)
    simp [hzero] at hj
  obtain ⟨b, hexec, hbuild, -, -, hframe, -⟩ := execBuild_spec hm hphase hleaf
  have hrun : runCommands (pushCommands pairs ++ [.build]) State.reset = .next b :=
    runCommands_append_iff.2 ⟨m, hpushes, (runCommands_cons_iff hgood rfl).2 ⟨b, hexec, rfl⟩⟩
  unfold LoadFrame at hload
  rw [hload] at hframe
  have hready : ReadyToCode (pairs.map Prod.fst) b :=
    { inv := hm.buildTree hphase hleaf hbuild
      phase := by rw [hframe]
      good := by rw [hframe]; rfl
      notFinal := by rw [hframe]; rfl
      noBits := by rw [hframe]; rfl
      notDone := by rw [hframe]; rfl
      atRoot := by rw [hframe]
      seen := by rw [hframe]; exact hseen }
  exact ⟨b, hrun, hready, by rw [hframe]; rfl, by rw [hframe]; rfl⟩

/-- The start of a run leaves one and the same built state from every state, behind the streams it found
(70_reset_and_hazards.md R201). -/
theorem runCommands_tableCommands {pairs : List (Symbol × Count32)} {sym : Symbol} (hlegal : ∀ e ∈ pairs, e.1.toNat ≤ 256)
    (hnodup : (pairs.map Prod.fst).Nodup) (hsym : sym ∈ pairs.map Prod.fst) :
    ∃ b, ReadyToCode (pairs.map Prod.fst) b ∧ b.wout = [] ∧ b.rout = [] ∧
      ∀ s, runCommands (tableCommands pairs) s = .next (withPast s.wout s.rout id (fun _ => s.port) b) := by
  obtain ⟨b, hrun, hready, hwout, hrout⟩ := runCommands_table_reset hlegal hnodup hsym
  refine ⟨b, hready, hwout, hrout, fun s => ?_⟩
  have hclear : encode .clear = 0x100000000000#48 := by decide
  unfold runCommands at hrun
  rw [runCommands, tableCommands, List.cons_append, List.map_cons, hclear, runWords_clear_eq_reset, ← pushCommands, hrun, mapNext]

/-! ## The end of an encode run (43_bit_writer.md R133) -/

/-- A finalised writer that holds no bit keeps the invariant (10_state.md R29). -/
theorem inv_finalised (h : Inv s) (out : List Byte) : Inv { s with wacc := 0, wnb := 0, wfin := true, wout := out } :=
  h.writerChange rfl ⟨by simp, fun _ => rfl⟩

end WholeRuns

/-! ## The obligations -/

/-- Settles O47: the start of a run leaves the same tree from both states (`runCommands_tableCommands`), so the round trip from a
built state holds for the encode run's own reader and for that of the other run. -/
theorem roundTripLaw : Obligations.RoundTripLaw := by
  unfold Obligations.RoundTripLaw
  intro pairs B s s' hlegal hnodup heod hB
  obtain ⟨b, hready, hwout, hrout, htable⟩ := runCommands_tableCommands hlegal hnodup heod
  have hs := hready.past s.wout s.rout fun _ => s.port
  have hs' := hready.past s'.wout s'.rout fun _ => s'.port
  obtain ⟨W, hencode, hdecode⟩ := roundTripFromABuiltState _ B hs.inv hs.phase hs.good hs.notFinal hs.noBits (hs.seen _ heod)
    fun c hc => by rw [← BitVec.toNat_setWidth_of_le (by decide : 8 ≤ 9)]; exact hs.seen _ (hB c hc)
  obtain ⟨hsame, -⟩ := hdecode _ (inv_finalised hs.inv _) hs.phase hs.good rfl rfl hs.notDone hs.atRoot
  obtain ⟨hother, u, hshort, hnotDone⟩ := hdecode _ hs'.inv hs'.phase hs'.good rfl rfl hs'.notDone hs'.atRoot
  refine ⟨_, W, runCommands_append_iff.2 ⟨_, htable s, hencode⟩, ⟨hs.good, hs.phase, rfl⟩, ?_,
    ⟨_, hsame, ⟨hs.good, rfl⟩, rfl⟩, ⟨_, runCommands_append_iff.2 ⟨_, htable s', hother⟩, ⟨hs'.good, rfl⟩, ?_⟩,
    u, runCommands_append_iff.2 ⟨_, htable s', hshort⟩, hnotDone⟩
  · simp [withPast, hwout]
  · simp [withPast, hrout]

/-- Settles O14: the block serves the reset pulse with `hardwareReset`, and the events behind it stay. -/
theorem hardwareResetGivesTheResetState : Obligations.HardwareResetGivesTheResetState := by
  unfold Obligations.HardwareResetGivesTheResetState
  intro s rest hport
  simp only [step, serveHost, hport, hostEvent, hardwareReset, setPort_port]

/-- Settles O16: CLEAR has no check, and `clearRun` is the reset state but for what R201 keeps. -/
theorem clearIsResetButForTheStreams : Obligations.ClearIsResetButForTheStreams := by
  unfold Obligations.ClearIsResetButForTheStreams
  intro s
  simp only [exec, execClear, clearRun]

end Sys2Proof.Proofs

/-! The invariant of 10_state.md R38, effect by effect: what every command, every accepted word and every event of the host keeps of it,
and of the canonical form of the two stores (log entry 2). -/

namespace Sys2Proof.Proofs

open Sys2Proof.Machine
open Sys2Proof.Safety

section Invariant

variable {s t : State} {i : Instr} {w : Word48}

/-! ## Faults, CLEAR and reset (60_exceptions.md R174, R177) -/

/-- A fault is recorded together with the word that raised it; only the word of NOP, which raises none, is all zero (R38 item 10). -/
theorem inv_raiseFault (h : Inv s) {code : FaultCode} (hcode : code ≠ .none) (hw : w ≠ 0) : Inv (raiseFault code w s) where
  tree := h.tree.congr rfl rfl rfl rfl rfl
  loadPhase := h.loadPhase
  builtPhase := h.builtPhase
  codes := h.codes
  writer := h.writer
  reader := h.reader
  faultInfo := iff_of_false hcode hw
  ctWf := h.ctWf

theorem inv_clearRun (s : State) : Inv (clearRun s) := inv_reset.streams s.wout s.rout s.port

theorem inv_hardwareReset (s : State) : Inv (hardwareReset s) := inv_reset.streams [] [] s.port

/-! ## The commands -/

theorem execPush_keeps_inv (h : Inv s) {sym : Symbol} {count : Count32} (hexec : execPush sym count s = .next t) : Inv t := by
  have hword : encode (.push sym count) ≠ 0 := encode_ne_zero (by simp)
  obtain ⟨-, rfl⟩ | ⟨-, -, -, rfl⟩ | ⟨hp, hsym, hunseen, hpush⟩ := execPush_next hexec
  · exact inv_raiseFault h (by simp) hword
  · exact inv_raiseFault h (by simp) hword
  · exact h.pushLeaf hp hsym hunseen hpush

theorem execBuild_keeps_inv (h : Inv s) (hexec : execBuild s = .next t) : Inv t := by
  have hword : encode .build ≠ 0 := encode_ne_zero (by simp)
  obtain ⟨-, rfl⟩ | ⟨-, -, rfl⟩ | ⟨hp, hn, hbuild⟩ := execBuild_next hexec
  · exact inv_raiseFault h (by simp) hword
  · exact inv_raiseFault h (by simp) hword
  · exact h.buildTree hp hn hbuild

/-- A finalised writer holds no bit (10_state.md R29). -/
theorem writerOk_finalised (h : WriterOk s) : WriterOk (setWfin (flushPartial s)) := by
  obtain ⟨c, hc⟩ := holds_of_writerOk h
  obtain ⟨-, hnb, hacc⟩ := flushPartial_spec hc
  exact ⟨by simp [hacc], fun _ => hnb⟩

theorem writerCommand_keeps_inv (h : Inv s) (hexec : exec i s = .next t) (hi : WriterCommand i) : Inv t := by
  obtain ⟨code, hcode, rfl⟩ | ⟨-, hopen, rfl⟩ | ⟨-, -, rfl⟩ := exec_of_writerCommand hexec hi
  · have hnop : i ≠ .nop := by
      rintro rfl
      simp [WriterCommand] at hi
    exact inv_raiseFault h hcode (encode_ne_zero hnop)
  · refine h.writerChange ?_ (appendPath_writerOk _ h.writer hopen)
    rw [appendPath_frame]
  · refine h.writerChange ?_ (writerOk_finalised h.writer)
    rw [flushPartial_frame]
    rfl

theorem execDec_keeps_inv (h : Inv s) {byte : Byte} (hexec : execDec byte s = .next t) : Inv t := by
  have hword : encode (.dec byte) ≠ 0 := encode_ne_zero (by simp)
  obtain ⟨-, rfl⟩ | ⟨hp, hread⟩ := execDec_next hexec
  · exact inv_raiseFault h (by simp) hword
  · obtain ⟨hstanding, hdone⟩ := h.reader hp
    obtain ⟨u, hread', hframe, hstanding', hdone', hfault, -⟩ :=
      (h.oneTree hp).readBits_spec (encode (.dec byte)) (byteBits byte) hstanding hdone
    cases hread'.symm.trans hread
    refine h.readerChange hp hframe (fun _ => ⟨hstanding', hdone'⟩) ?_
    unfold FaultOk
    obtain ⟨hsame, hsame'⟩ | ⟨hnoMatch, hinfo, -⟩ := hfault
    · rw [hsame, hsame']
      exact h.faultInfo
    · rw [hnoMatch, hinfo]
      exact iff_of_false (by simp) hword

/-- Every command keeps the invariant, whether it raises a fault or not. -/
theorem exec_keeps_inv (h : Inv s) (hexec : exec i s = .next t) : Inv t := by
  cases i with
  | nop => cases hexec; exact h
  | clear => cases hexec; exact inv_clearRun s
  | push sym count => exact execPush_keeps_inv h hexec
  | build => exact execBuild_keeps_inv h hexec
  | enc sym => exact writerCommand_keeps_inv h hexec (.inl ⟨sym, rfl⟩)
  | wbits len bits => exact writerCommand_keeps_inv h hexec (.inr (.inl ⟨len, bits, rfl⟩))
  | wfin => exact writerCommand_keeps_inv h hexec (.inr (.inr rfl))
  | dec byte => exact execDec_keeps_inv h hexec

/-- An illegal word is not all zero, since that word is NOP (30_encoding.md R74). -/
theorem ne_zero_of_illegal {e : Illegal} (h : decode w = .error e) : w ≠ 0 := by
  rintro rfl
  have hnop : decode 0#48 = .ok .nop := by decide
  simp [hnop] at h

/-- Every accepted word keeps the invariant (40_control.md R90). -/
theorem accept_keeps_inv (h : Inv s) (hacc : accept w s = .next t) : Inv t := by
  obtain ⟨-, -, rfl⟩ | ⟨-, -, rfl⟩ | ⟨-, ⟨e, hillegal⟩, rfl⟩ | ⟨-, i, -, hexec⟩ := accept_next hacc
  · exact inv_clearRun s
  · exact h
  · exact inv_raiseFault h (by simp) (ne_zero_of_illegal hillegal)
  · exact exec_keeps_inv h hexec

/-! ## The canonical form of the stores (20_memory.md R50, log entry 2) -/

theorem storesWf_empty (hnm : t.nm = []) (hct : t.ct = []) : StoresWf t := by
  rw [StoresWf, hnm, hct]
  exact ⟨storeWf_nil _, storeWf_nil _⟩

/-- PUSH lists its leaf at `NNODE`, which it has checked to be an index of `NM` (20_memory.md R51). -/
theorem pushLeaf_keeps_storesWf (h : StoresWf s) {sym : Symbol} {count : Count32} (hpush : pushLeaf sym count s = .ok t) :
    StoresWf t := by
  obtain ⟨hnm, hct⟩ := h
  obtain ⟨hlt, -, q, rfl⟩ := pushLeaf_ok hpush
  exact ⟨storePut_wf _ hnm hlt, hct⟩

theorem writerCommand_keeps_storesWf (h : StoresWf s) (hexec : exec i s = .next t) (hi : WriterCommand i) : StoresWf t := by
  obtain ⟨hframe, -⟩ := exec_writer_frame hexec hi
  rw [hframe]
  exact h

/-- Every command keeps the canonical form: PUSH and BUILD write the stores, CLEAR empties them. -/
theorem exec_keeps_storesWf (h : StoresWf s) (hexec : exec i s = .next t) : StoresWf t := by
  cases i with
  | nop => cases hexec; exact h
  | clear => cases hexec; exact storesWf_empty rfl rfl
  | push sym count =>
    obtain ⟨-, rfl⟩ | ⟨-, -, -, rfl⟩ | ⟨-, -, -, hpush⟩ := execPush_next hexec
    · exact h
    · exact h
    · exact pushLeaf_keeps_storesWf h hpush
  | build =>
    obtain ⟨-, rfl⟩ | ⟨-, -, rfl⟩ | ⟨-, -, hbuild⟩ := execBuild_next hexec
    · exact h
    · exact h
    · obtain ⟨-, -, hkept⟩ := buildTree_ok hbuild
      exact hkept h
  | enc sym => exact writerCommand_keeps_storesWf h hexec (.inl ⟨sym, rfl⟩)
  | wbits len bits => exact writerCommand_keeps_storesWf h hexec (.inr (.inl ⟨len, bits, rfl⟩))
  | wfin => exact writerCommand_keeps_storesWf h hexec (.inr (.inr rfl))
  | dec byte =>
    rw [execDec_frame hexec]
    exact h

theorem accept_keeps_storesWf (h : StoresWf s) (hacc : accept w s = .next t) : StoresWf t := by
  obtain ⟨-, -, rfl⟩ | ⟨-, -, rfl⟩ | ⟨-, -, rfl⟩ | ⟨-, i, -, hexec⟩ := accept_next hacc
  · exact storesWf_empty rfl rfl
  · exact h
  · exact h
  · exact exec_keeps_storesWf h hexec

end Invariant

/-! ## The obligations -/

/-- Settles O56: reset gives `inv_reset` again, and every accepted word keeps the invariant (`accept_keeps_inv`); the host's events
are not in it. -/
theorem everyStepKeepsTheInvariant : Obligations.EveryStepKeepsTheInvariant := by
  unfold Obligations.EveryStepKeepsTheInvariant
  intro s t h hstep
  obtain ⟨-, rfl⟩ | ⟨rest, -, rfl⟩ | ⟨w, rest, -, hacc⟩ := step_next hstep
  · exact h
  · exact inv_hardwareReset _
  · have hinv : Inv (setPort rest s) := h.streams s.wout s.rout rest
    exact accept_keeps_inv hinv hacc

/-- Settles O58: a reset empties the stores, and every accepted word keeps their form (`accept_keeps_storesWf`). -/
theorem storesStayCanonical : Obligations.StoresStayCanonical := by
  unfold Obligations.StoresStayCanonical
  intro s t h hstep
  obtain ⟨-, rfl⟩ | ⟨rest, -, rfl⟩ | ⟨w, rest, -, hacc⟩ := step_next hstep
  · exact h
  · exact storesWf_empty rfl rfl
  · exact accept_keeps_storesWf (s := setPort rest s) h hacc

/-- Settles O55: `inv_reset`. -/
theorem invariantHoldsAtReset : Obligations.InvariantHoldsAtReset := by
  unfold Obligations.InvariantHoldsAtReset
  exact inv_reset

end Sys2Proof.Proofs

/-! The shape of the tree and of its code (10_state.md R38 item 6, 42_code_table.md R124, R125): no code begins another, the lengths of
the codes, and the code that every long enough bit sequence begins with. -/

namespace Sys2Proof.Proofs

open Sys2Proof.Machine
open Sys2Proof.Safety

section CodeShape

variable {s : State}

/-- A code ends on a leaf and no step leaves a leaf, so a path with a code in front of it maps to that code's symbol or to none
(42_code_table.md R124). -/
theorem trieSymbol_prefix_eq (h : OneTree s s.root) {p p' : Path} {sym sym' : Symbol} (hp : trieSymbol s.nm s.root p = some sym)
    (hp' : trieSymbol s.nm s.root p' = some sym') (hprefix : p <+: p') : sym = sym' := by
  obtain ⟨q, rfl⟩ := hprefix
  obtain ⟨hn, -, c, hleaf⟩ | ⟨hn, -, j, c, hwalk, hleaf⟩ := h.trie_iff.1 hp
  · obtain ⟨-, -, c', hleaf'⟩ | ⟨hn', -⟩ := h.trie_iff.1 hp'
    · rw [hleaf] at hleaf'
      cases hleaf'
      rfl
    · exact absurd hn hn'
  · obtain ⟨hn', -⟩ | ⟨-, -, j', c', hwalk', hleaf'⟩ := h.trie_iff.1 hp'
    · exact absurd hn' hn
    · rw [walkFrom_append, hwalk, Option.bind_some] at hwalk'
      obtain ⟨-, rfl⟩ := Safety.walkFrom_leaf hleaf hwalk'
      rw [hleaf] at hleaf'
      cases hleaf'
      rfl

/-- The length of a path the trie maps (42_code_table.md R125). -/
theorem trieSymbol_length (h : OneTree s s.root) {p : Path} {sym : Symbol} (hp : trieSymbol s.nm s.root p = some sym) :
    1 ≤ p.length ∧ p.length ≤ 256 ∧ (s.nleaf = 1 → p.length = 1) ∧ (s.nleaf ≠ 1 → p.length ≤ s.nleaf.toNat - 1) := by
  obtain ⟨hn, rfl, -⟩ | ⟨hn, hne, j, c, hwalk, -⟩ := h.trie_iff.1 hp
  · exact ⟨by simp, by simp, fun _ => rfl, fun hn' => absurd hn hn'⟩
  · have hpos := List.length_pos_of_ne_nil hne
    have hlen := h.walk_length hwalk
    obtain ⟨hleaves, -⟩ := h.tree.bounds
    exact ⟨hpos, by omega, fun hn' => absurd hn' hn, fun _ => hlen⟩

/-- A child has a smaller index than its node, so bits enough for the internal nodes from `k` down lead from `k` to a leaf. -/
theorem walkFrom_reaches_leaf (h : TreeOk s) {k : NodeIdx} {bs : List Bool} (hk : k.toNat < s.nnode.toNat)
    (hlen : k.toNat + 1 - s.nleaf.toNat ≤ bs.length) :
    ∃ p j sym c, p <+: bs ∧ walkFrom s.nm k p = some j ∧ readNode s.nm j = .ok (.leaf sym c) := by
  induction bs generalizing k with
  | nil =>
    obtain ⟨-, sym, c, hleaf, -⟩ | ⟨hinner, -⟩ := h.leaf_or_inner hk
    · exact ⟨[], k, sym, c, List.prefix_rfl, rfl, hleaf⟩
    · simp at hlen
      omega
  | cons b bs ih =>
    obtain ⟨-, sym, c, hleaf, -⟩ | ⟨hinner, c, l, r, hread, hl, hr⟩ := h.leaf_or_inner hk
    · exact ⟨[], k, sym, c, List.nil_prefix, rfl, hleaf⟩
    · have hchild : (if b then r else l).toNat < k.toNat := by cases b <;> simpa
      rw [List.length_cons] at hlen
      obtain ⟨p, j, sym, c, hp, hwalk, hleaf⟩ := ih (hchild.trans hk) (by omega)
      exact ⟨b :: p, j, sym, c, List.cons_prefix_cons.2 ⟨rfl, hp⟩, by simpa [walkFrom, hread] using hwalk, hleaf⟩

/-- With two leaves or more a bit sequence of `NLEAF - 1` bits or more begins with a path of the trie (42_code_table.md R125). -/
theorem exists_trieSymbol_prefix (h : OneTree s s.root) (hn : s.nleaf ≠ 1) {bs : List Bool}
    (hlen : s.nleaf.toNat - 1 ≤ bs.length) : ∃ sym p, trieSymbol s.nm s.root p = some sym ∧ p <+: bs := by
  have hroot := h.root_eq
  obtain ⟨p, j, sym, c, hp, hwalk, hleaf⟩ := walkFrom_reaches_leaf h.tree h.root_lt (by omega : _ ≤ bs.length)
  obtain ⟨_, l, r, hinner⟩ := h.root_inner hn
  exact ⟨sym, p, by simp [trieSymbol, hinner, hwalk, hleaf], hp⟩

end CodeShape

/-! ## The obligations -/

/-- Settles O28: `trieSymbol_prefix_eq`, the table being the trie (`lookupCode_eq_some_iff`). -/
theorem noCodeBeginsAnother : Obligations.NoCodeBeginsAnother := by
  unfold Obligations.NoCodeBeginsAnother
  intro s sym sym' p p' h hp hne hcode hcode' hprefix
  obtain ⟨-, htrie⟩ := (lookupCode_eq_some_iff h hp).1 hcode
  obtain ⟨-, htrie'⟩ := (lookupCode_eq_some_iff h hp).1 hcode'
  exact hne (trieSymbol_prefix_eq (h.oneTree hp) htrie htrie' hprefix)

/-- Settles O29: the walk along the bits ends on a leaf (`exists_trieSymbol_prefix`); of two codes that begin one sequence one begins
the other, so they are one (`trieSymbol_prefix_eq`). -/
theorem codeLengthsAndCompleteness : Obligations.CodeLengthsAndCompleteness := by
  unfold Obligations.CodeLengthsAndCompleteness
  intro s h hp
  have hone := h.oneTree hp
  refine ⟨fun sym p hcode => ?_, fun hn bs hlen => ?_⟩
  · obtain ⟨-, htrie⟩ := (lookupCode_eq_some_iff h hp).1 hcode
    exact trieSymbol_length hone htrie
  · obtain ⟨sym, p, htrie, hprefix⟩ := exists_trieSymbol_prefix hone hn hlen
    obtain ⟨hsym, -⟩ := hone.trie_seen htrie
    refine ⟨sym, p, (lookupCode_eq_some_iff h hp).2 ⟨Nat.le_of_lt_succ hsym, htrie⟩, hprefix, fun sym' p' hcode' hprefix' => ?_⟩
    obtain ⟨-, htrie'⟩ := (lookupCode_eq_some_iff h hp).1 hcode'
    obtain hle | hle := List.prefix_or_prefix_of_prefix hprefix' hprefix
    · exact trieSymbol_prefix_eq hone htrie' htrie hle
    · exact (trieSymbol_prefix_eq hone htrie htrie' hle).symm

/-- Settles O30: `OneTree.reached` and `OneTree.path_unique`; a walk from the root stays below `NNODE`. -/
theorem everyNodeIsReachedByOnePath : Obligations.EveryNodeIsReachedByOnePath := by
  unfold Obligations.EveryNodeIsReachedByOnePath
  intro s h hp k
  have hone := h.oneTree hp
  refine ⟨fun hk => ?_, fun hk p hwalk => ?_⟩
  · obtain ⟨p, hwalk⟩ := hone.reached hk
    exact ⟨p, hwalk, fun q hq => hone.path_unique hq hwalk⟩
  · obtain ⟨hlt, -⟩ := hone.tree.walk_bound hone.root_lt hwalk
    omega

end Sys2Proof.Proofs

/-! What bounds the commands: the faults each can raise (60_exceptions.md R172), the bytes each can emit (70_reset_and_hazards.md R207);
and the writer, which keeps only the bits (43_bit_writer.md R136). -/

namespace Sys2Proof.Proofs

open Sys2Proof.Machine
open Sys2Proof.Safety

section Bounds

variable {s t : State} {i : Instr}

/-! ## The faults of a command -/

theorem firstFault_mem_faultsOf (i : Instr) (s : State) : firstFault i s = .none ∨ firstFault i s ∈ faultsOf i := by
  cases i with
  | nop => exact Or.inl rfl
  | clear => exact Or.inl rfl
  | _ => simp only [firstFault]; split_ifs <;> simp [faultsOf]

/-! ## The bytes a command emits -/

theorem wholeBytes_length (l : List Bool) : (wholeBytes l).length = l.length / 8 := by simp [wholeBytes]

/-- At most seven bits are held, so a path of `p.length` bits completes at most `(7 + p.length) / 8` bytes. -/
theorem appendPath_wout_length_le (h : WriterOk s) (p : Path) :
    (appendPath p s).wout.length ≤ s.wout.length + (7 + p.length) / 8 := by
  obtain ⟨c, hc⟩ := holds_of_writerOk h
  obtain ⟨hout, -⟩ := appendPath_packs p hc
  obtain ⟨hheld, -⟩ := hc
  rw [hout, List.length_append, wholeBytes_length, List.length_append]
  omega

theorem flushPartial_wout_length_le (s : State) : (flushPartial s).wout.length ≤ s.wout.length + 1 := by
  unfold flushPartial
  split <;> simp

/-- A code has at most 256 bits (42_code_table.md R122, R125), in every state. -/
theorem lookupCode_length_le {sym : Symbol} {p : Path} (h : lookupCode sym s = .ok (some p)) : p.length ≤ 256 := by
  unfold lookupCode at h
  split at h
  · split at h
    · simp at h
    · split at h
      · next e _ hlen =>
        cases h
        rwa [codePath_length]
      · simp at h
  · simp at h

theorem wbitsPath_length_le {len : BitVec 9} {bits : BitVec 32} {p : Path} (h : wbitsPath len bits = .ok p) : p.length ≤ 32 := by
  unfold wbitsPath at h
  split at h
  · next hlen =>
    cases h
    simpa using hlen
  · simp at h

theorem execEnc_wout_length_le (hinv : WriterOk s) {sym : Symbol} (h : execEnc sym s = .next t) :
    t.wout.length ≤ s.wout.length + 32 := by
  obtain ⟨-, rfl⟩ | ⟨-, -, rfl⟩ | ⟨-, -, -, rfl⟩ | ⟨-, -, p, hcode, rfl⟩ := execEnc_next h
  · simp
  · simp
  · simp
  · have hbytes := appendPath_wout_length_le hinv p
    have hlen := lookupCode_length_le hcode
    omega

theorem execWbits_wout_length_le (hinv : WriterOk s) {len : BitVec 9} {bits : BitVec 32} (h : execWbits len bits s = .next t) :
    t.wout.length ≤ s.wout.length + 4 := by
  obtain ⟨-, rfl⟩ | ⟨-, p, hpath, rfl⟩ := execWbits_next h
  · simp
  · have hbytes := appendPath_wout_length_le hinv p
    have hlen := wbitsPath_length_le hpath
    omega

theorem execWfin_wout_length_le (h : execWfin s = .next t) : t.wout.length ≤ s.wout.length + 1 := by
  obtain ⟨-, rfl⟩ | ⟨-, rfl⟩ := execWfin_next h
  · simp
  · exact flushPartial_wout_length_le s

theorem execDec_rout_length_le {byte : Byte} (h : execDec byte s = .next t) : t.rout.length ≤ s.rout.length + 8 := by
  obtain ⟨-, rfl⟩ | ⟨-, hread⟩ := execDec_next h
  · simp
  · obtain ⟨-, -, -, out, hout, hlen⟩ := readBits_ok hread
    rw [hout, List.length_append]
    exact Nat.add_le_add_left hlen _

/-- Only the writer commands write `WOUT` (10_state.md R31). -/
theorem exec_keeps_wout (h : exec i s = .next t) (hi : ¬ WriterCommand i) : t.wout = s.wout := by
  by_cases hclear : i = .clear
  · subst hclear
    cases h
    rfl
  · obtain ⟨-, -, -, hout⟩ := exec_keeps_writer h hi hclear
    exact hout

/-- Only DEC writes `ROUT` (10_state.md R31). -/
theorem exec_keeps_rout (h : exec i s = .next t) (hi : ∀ byte, i ≠ .dec byte) : t.rout = s.rout := by
  by_cases hwriter : WriterCommand i
  · obtain ⟨hframe, -⟩ := exec_writer_frame h hwriter
    rw [hframe]
  · cases i with
    | nop => cases h; rfl
    | clear => cases h; rfl
    | push sym count =>
      obtain ⟨-, rfl⟩ | ⟨-, -, -, rfl⟩ | ⟨-, -, -, hpush⟩ := execPush_next h
      · rfl
      · rfl
      · rw [pushLeaf_frame hpush]
    | build =>
      obtain ⟨-, rfl⟩ | ⟨-, -, rfl⟩ | ⟨-, -, hbuild⟩ := execBuild_next h
      · rfl
      · rfl
      · obtain ⟨hframe, -⟩ := buildTree_ok hbuild
        rw [hframe]
    | enc sym => exact absurd (.inl ⟨sym, rfl⟩) hwriter
    | wbits len bits => exact absurd (.inr (.inl ⟨len, bits, rfl⟩)) hwriter
    | wfin => exact absurd (.inr (.inr rfl)) hwriter
    | dec byte => exact absurd rfl (hi byte)

end Bounds

/-! ## The obligations -/

/-- Settles O38: both runs leave the writer that the same path leaves in `s` (`runCommands_appends_path`). -/
theorem writerKeepsNoRecordOfCuts : Obligations.WriterKeepsNoRecordOfCuts := by
  unfold Obligations.WriterKeepsNoRecordOfCuts
  intro is js s t u _ _ hf hcommands hrun hrun' hgood hgood' hpath
  have hopen : ∀ is', is' ⊆ is ++ js → NoClear is' ∧ .wfin ∉ is' := fun is' hsub => by
    refine ⟨fun i hi => ?_, fun hmem => ?_⟩
    · obtain ⟨hwf, hclear, -⟩ := hcommands i (hsub hi)
      exact ⟨hwf, hclear⟩
    · obtain ⟨-, -, hwfin⟩ := hcommands .wfin (hsub hmem)
      exact hwfin rfl
  obtain ⟨his, hfin⟩ := hopen is (List.subset_append_left is js)
  obtain ⟨hjs, hfin'⟩ := hopen js (List.subset_append_right is js)
  obtain ⟨hacc, hnb, -, hout⟩ := runCommands_appends_path hrun his hfin hf hgood
  obtain ⟨hacc', hnb', -, hout'⟩ := runCommands_appends_path hrun' hjs hfin' hf hgood'
  rw [hpath] at hacc hnb hout
  exact ⟨hacc.trans hacc'.symm, hnb.trans hnb'.symm, hout.trans hout'.symm⟩

/-- Settles O48: every command but DEC records the first of its checks that fails, and the checks are those of R172; DEC records
BadPhase, or the reader's NoMatch. -/
theorem faultsOfEachCommand : Obligations.FaultsOfEachCommand := by
  unfold Obligations.FaultsOfEachCommand
  intro i s t h hf
  have hchecks := firstFault_mem_faultsOf i s
  cases i with
  | nop => cases h; exact Or.inl hf
  | clear => cases h; exact Or.inl rfl
  | push sym count => rwa [execPush_fault h hf]
  | build => rwa [execBuild_fault h hf]
  | enc sym => rwa [execEnc_fault h hf]
  | wbits len bits => rwa [execWbits_fault h hf]
  | wfin => rwa [execWfin_fault h hf]
  | dec byte =>
    obtain ⟨-, rfl⟩ | ⟨-, hread⟩ := execDec_next h
    · simp [faultsOf]
    · obtain ⟨-, -, ⟨hfault, -⟩ | ⟨hfault, -⟩, -⟩ := readBits_ok hread
      · exact Or.inl (hfault.trans hf)
      · simp [faultsOf, hfault]

/-- Settles O53: ENC, WBITS and WFIN on `WOUT` and DEC on `ROUT` have their bounds; every other command leaves the stream as it is. -/
theorem emittedBytesAreBounded : Obligations.EmittedBytesAreBounded := by
  unfold Obligations.EmittedBytesAreBounded
  intro i s t hinv _ h
  have hwout : ¬ WriterCommand i → t.wout.length ≤ s.wout.length := fun hi => (congrArg _ (exec_keeps_wout h hi)).le
  have hrout : (∀ byte, i ≠ .dec byte) → t.rout.length ≤ s.rout.length := fun hi => (congrArg _ (exec_keeps_rout h hi)).le
  cases i with
  | enc sym => exact ⟨execEnc_wout_length_le hinv.writer h, hrout (by simp)⟩
  | wbits len bits => exact ⟨execWbits_wout_length_le hinv.writer h, hrout (by simp)⟩
  | wfin => exact ⟨execWfin_wout_length_le h, hrout (by simp)⟩
  | dec byte => exact ⟨hwout (by simp [WriterCommand]), execDec_rout_length_le h⟩
  | _ => exact ⟨hwout (by simp [WriterCommand]), hrout (by simp)⟩

end Sys2Proof.Proofs
